-- ==== Sys2Proof/Word.lean ====
section
/-! DEFINITION. The word types of the HCC (00_scope.md R8, R16): every value is unsigned. -/

namespace Sys2Proof

/-- A host register, a command word or a bus value (`REG_W` = 32). -/
abbrev Word := BitVec 32

/-- A symbol value (`SYM_W` = 8). -/
abbrev Symbol := BitVec 8

/-- A stored node weight (`IW_W` = 40). -/
abbrev Weight := BitVec 40

/-- A node index, which is also the queue's insertion tag (`IDX_W` = 9). -/
abbrev NodeIdx := BitVec 9

/-- The bits of one code-table entry (`CODE_W` = 256), bit 0 nearest the root. -/
abbrev CodeBits := BitVec 256

/-- The index that names no node (R8). -/
def nil : NodeIdx := 0x1FF

end Sys2Proof
end

