-- ==== Sys2Proof/Syntax.lean ====
section
/-! DEFINITION. The command set: one constructor per row of spec/opcode_table.json (30_encoding.md R74). -/

namespace Sys2Proof

/-- One command with its operands (30_encoding.md R73). `decode` carries the bit count `n` itself, as the
assembler writes it (R77); the other operands have exactly the width of their field. -/
inductive Instr where
  | nop
  | clear
  | pushleaf (sym : Symbol)
  | pqpop
  | build
  | gencodes
  | lookup (sym : Symbol) (k : BitVec 3)
  | decode (n : Nat)
  | decend
  | decrst
  | readnode (idx : NodeIdx)
  deriving DecidableEq, Repr

/-- The mnemonic of a command, without its operands: a row of the opcode map R74. -/
inductive Op where
  | nop | clear | pushleaf | pqpop | build | gencodes | lookup | decode | decend | decrst | readnode
  deriving DecidableEq, Repr

/-- The row a command belongs to. -/
def Instr.op : Instr → Op
  | .nop => .nop
  | .clear => .clear
  | .pushleaf _ => .pushleaf
  | .pqpop => .pqpop
  | .build => .build
  | .gencodes => .gencodes
  | .lookup _ _ => .lookup
  | .decode _ => .decode
  | .decend => .decend
  | .decrst => .decrst
  | .readnode _ => .readnode

end Sys2Proof
end

