-- ==== Sys2Proof/WellFormed.lean ====
section
/-! DEFINITION. Which command terms have an encoding (30_encoding.md R73). -/

namespace Sys2Proof

/-- The bit count of DECODE is 1 to 32: a zero-bit DECODE cannot be encoded, and `CNT` has five bits (R73).
Every other operand's type is exactly its field. -/
def Instr.wellFormed : Instr → Bool
  | .decode n => decide (1 ≤ n) && decide (n ≤ 32)
  | .nop => true
  | .clear => true
  | .pushleaf _ => true
  | .pqpop => true
  | .build => true
  | .gencodes => true
  | .lookup _ _ => true
  | .decend => true
  | .decrst => true
  | .readnode _ => true

end Sys2Proof
end

