-- ==== Sys2Proof/Decode.lean ====
section
/-! DEFINITION. The command decoder (30_encoding.md R70 to R76), total on every 32-bit word, and the encoder
written from the same tables. -/

namespace Sys2Proof

/-- Why a word is ILLEGAL (R76). -/
inductive Illegal where
  /-- The opcode is 0xB to 0xF. -/
  | reservedOpcode
  /-- The opcode is a command's and a reserved bit is 1. -/
  | reservedBit
  deriving DecidableEq, Repr

/-- `OPC`, c[3:0] (R71). -/
def opcField (c : Word) : BitVec 4 := c.extractLsb' 0 4

/-- `K`, c[6:4] (R71). -/
def kField (c : Word) : BitVec 3 := c.extractLsb' 4 3

/-- `SYM`, c[15:8] (R71). -/
def symField (c : Word) : Symbol := c.extractLsb' 8 8

/-- `CNT`, c[20:16] (R71). -/
def cntField (c : Word) : BitVec 5 := c.extractLsb' 16 5

/-- `IDX`, c[24:16] (R71). -/
def idxField (c : Word) : NodeIdx := c.extractLsb' 16 9

/-- One row of the opcode map R74: the word `c` selects it when `c AND mask = bits`. -/
structure Row where
  op   : Op
  bits : Word
  mask : Word
  deriving DecidableEq, Repr

/-- The opcode map (R74). -/
def opcodeMap : List Row :=
  [ ⟨.nop,      0x00000000, 0xFFFFFFFF⟩,
    ⟨.clear,    0x00000001, 0xFFFFFFFF⟩,
    ⟨.pushleaf, 0x00000002, 0xFFFF00FF⟩,
    ⟨.pqpop,    0x00000003, 0xFFFFFFFF⟩,
    ⟨.build,    0x00000004, 0xFFFFFFFF⟩,
    ⟨.gencodes, 0x00000005, 0xFFFFFFFF⟩,
    ⟨.lookup,   0x00000006, 0xFFFF008F⟩,
    ⟨.decode,   0x00000007, 0xFFE0FFFF⟩,
    ⟨.decend,   0x00000008, 0xFFFFFFFF⟩,
    ⟨.decrst,   0x00000009, 0xFFFFFFFF⟩,
    ⟨.readnode, 0x0000000A, 0xFE00FFFF⟩ ]

/-- Whether a word selects a row (R74). -/
def Row.selectedBy (r : Row) (c : Word) : Bool := c &&& r.mask == r.bits

/-- The operands of a command of row `op`, taken from its word (R73). -/
def assemble (op : Op) (c : Word) : Instr :=
  match op with
  | .nop => .nop
  | .clear => .clear
  | .pushleaf => .pushleaf (symField c)
  | .pqpop => .pqpop
  | .build => .build
  | .gencodes => .gencodes
  | .lookup => .lookup (symField c) (kField c)
  | .decode => .decode ((cntField c).toNat + 1)
  | .decend => .decend
  | .decrst => .decrst
  | .readnode => .readnode (idxField c)

/-- The command of the first row of `rows` that `c` selects. -/
def decodeWith (rows : List Row) (c : Word) : Except Illegal Instr :=
  match rows with
  | [] => .error (if opcField c ≤ 0xA then .reservedBit else .reservedOpcode)
  | r :: rest => if r.selectedBy c then .ok (assemble r.op c) else decodeWith rest c

/-- `decode` (R75), with the reason where the word is ILLEGAL (R76). -/
def decode (c : Word) : Except Illegal Instr := decodeWith opcodeMap c

/-- The host's reading of a table row: `w`'s low `nbits` bits are the word, and the bits above are 0. A word is
32 bits (R70); the HCC has no byte order (20_memory.md R59), so the word is the number itself. -/
def decodeTableWord (nbits w : Nat) : Option Instr :=
  let v := w % 2 ^ nbits
  if v < 2 ^ 32 then
    match decode (BitVec.ofNat 32 v) with
    | .ok i => some i
    | .error _ => none
  else none

/-! ### The encoder -/

/-- A symbol in `SYM`, bits [15:8] (R71). -/
def placeSym (sym : Symbol) : Word := sym.setWidth 32 <<< 8

/-- A word index in `K`, bits [6:4] (R71). -/
def placeK (k : BitVec 3) : Word := k.setWidth 32 <<< 4

/-- A bit count in `CNT`, bits [20:16], as `n - 1` (R71, R77). -/
def placeCnt (n : Nat) : Word := (BitVec.ofNat 5 (n - 1)).setWidth 32 <<< 16

/-- A node index in `IDX`, bits [24:16] (R71). -/
def placeIdx (idx : NodeIdx) : Word := idx.setWidth 32 <<< 16

/-- The word of a command (R71, R72, R74). -/
def encode : Instr → Word
  | .nop => 0x0
  | .clear => 0x1
  | .pushleaf sym => placeSym sym ||| 0x2
  | .pqpop => 0x3
  | .build => 0x4
  | .gencodes => 0x5
  | .lookup sym k => placeSym sym ||| placeK k ||| 0x6
  | .decode n => placeCnt n ||| 0x7
  | .decend => 0x8
  | .decrst => 0x9
  | .readnode idx => placeIdx idx ||| 0xA

end Sys2Proof
end

