-- ==== Sys2Proof/Config.lean ====
section
/-! DEFINITION. What one configuration fixes (00_scope.md R8, R9), the open parameter `HCC_BASE`, and the
source of the values the spec leaves free. -/

namespace Sys2Proof.Config

/-- `N_SYM` (R8). -/
def numSymbols : Nat := 256

/-- `N_NODE` (R8, R11): entries in the node store. -/
def nodeCapacity : Nat := 511

/-- `PQ_CAP` (R8, R12): most entries the queue holds. -/
def queueCapacity : Nat := 256

/-- `MAX_CODE` (R8, R13): longest code in bits. -/
def maxCode : Nat := 255

/-- `CHUNK_MAX` and `OUT_DEPTH` (R8, R14). -/
def chunkMax : Nat := 32

/-- `WIN_BYTES` (R8): size of the register window in bytes. -/
def windowBytes : Nat := 256

/-- The identification word (R9, 10_state.md R21). -/
def idWord : Word := 0x48434331

/-- `HCC_BASE` (R8, D9): the byte address of the register window. An open parameter: it has no body, so a claim
holds whatever the platform chose. -/
opaque hccBase : Nat

/-- The `n`-th free value (70_reset_and_hazards.md R207): what a read of an unsettled register returns while
`BUSY = 1`. It has no body: nothing constrains it. -/
opaque freeWord : Nat → Word

end Sys2Proof.Config
end

