-- ==== Sys2Proof/Machine/State.lean ====
section
/-! DEFINITION. The state of the HCC (10_state.md), as plain data, and its value after reset. -/

namespace Sys2Proof.Machine

/-- `PHASE` (10_state.md R37). -/
inductive Phase where
  | load | built
  deriving DecidableEq, Repr

/-- The error codes (60_exceptions.md R170). The reserved codes 0xB to 0xF have no constructor: they are never
raised. -/
inductive ErrCode where
  /-- 0x0 `E_NONE`. -/
  | noError
  /-- 0x1 `E_EMPTY_POP`. -/
  | emptyPop
  /-- 0x2 `E_CODE_MISS`. -/
  | codeMiss
  /-- 0x3 `E_MALFORMED`. -/
  | malformed
  /-- 0x4 `E_MIDCODE`. -/
  | midCode
  /-- 0x5 `E_PHASE`. -/
  | badPhase
  /-- 0x6 `E_DUP_SYM`. -/
  | dupSym
  /-- 0x7 `E_BAD_WEIGHT`. -/
  | badWeight
  /-- 0x8 `E_BAD_INDEX`. -/
  | badIndex
  /-- 0x9 `E_ILLEGAL`. -/
  | illegal
  /-- 0xA `E_BUSY`. -/
  | busy
  deriving DecidableEq, Repr

/-- A node-store entry (20_memory.md R51). -/
structure Node where
  leaf  : Bool
  sym   : Symbol
  w     : Weight
  left  : NodeIdx
  right : NodeIdx
  deriving DecidableEq, Repr

/-- A queue entry: a weight and the node index that is its insertion tag (10_state.md R42). -/
structure Entry where
  w : Weight
  i : NodeIdx
  deriving DecidableEq, Repr

/-- A code-table entry (20_memory.md R53). -/
structure CodeEntry where
  len  : BitVec 8
  bits : CodeBits
  deriving DecidableEq, Repr

/-- A code table that holds values: one entry per symbol value (10_state.md R43). -/
abbrev CodeTable := Vector CodeEntry 256

/-- What one step may serve next (00_scope.md R15, 20_memory.md R66). -/
inductive Event where
  /-- The host reads `width` bytes at byte address `addr`. -/
  | read (addr width : Nat)
  /-- The host writes `v` as `width` bytes at byte address `addr`. -/
  | write (addr width : Nat) (v : Word)
  /-- The reset input is asserted (70_reset_and_hazards.md R200). -/
  | reset
  /-- The core is given the turn. -/
  | coreTurn
  deriving DecidableEq, Repr

/-- The HCC. `PQ_SIZE`, `NODE_COUNT`, `OUT_COUNT`, `CT_VALID`, `STATUS`, `OUTBUF` and `irq` are functions of
these fields (Machine/Flags.lean). -/
structure State where
  /-- `DATA` (10_state.md R23). -/
  data : Word
  /-- `ERR_CODE` (R25). -/
  errCode : ErrCode
  /-- `ERR_CMD` (R26). -/
  errCmd : Word
  /-- `ROOT` (R29). -/
  root : NodeIdx
  /-- `PTR` (R30). -/
  ptr : NodeIdx
  /-- `RES0` (R31). -/
  res0 : Word
  /-- `RES1` (R31). -/
  res1 : Word
  /-- `RES2` (R31). -/
  res2 : Word
  /-- `INT_EN` (R33): bit 0 `DONE_IE`, bit 1 `ERR_IE`. -/
  intEn : BitVec 2
  /-- `INT_STAT` (R34): bit 0 `DONE`, bit 1 `ERRP`. -/
  intStat : BitVec 2
  /-- `PHASE` (R37). -/
  phase : Phase
  /-- `TREE_VALID` (R38). -/
  treeValid : Bool
  /-- `SINGLE` (R38). -/
  single : Bool
  /-- `SYMSEEN` (R39). -/
  symSeen : BitVec 256
  /-- `BUSY` (R40). -/
  busy : Bool
  /-- `CMD_L` (R40). -/
  cmdL : Word
  /-- `DATA_L` (R40). -/
  dataL : Word
  /-- `NODE` (R41): exactly the allocated entries, entry `i` at position `i`. -/
  nodes : List Node
  /-- `PQ` (R42): its entries in rising order. -/
  pq : List Entry
  /-- `CT` (R43), or no value. -/
  ct : Option CodeTable
  /-- `OB` (R44): exactly `OB[0 .. OUT_COUNT - 1]`. -/
  ob : List Symbol
  /-- The model's own: the pending host accesses, resets and core turns, oldest first. -/
  inputs : List Event
  /-- The model's own: what the host's last read returned. -/
  reply : Option Word
  /-- The model's own: how many free values have been drawn. -/
  freeCount : Nat
  deriving DecidableEq, Repr

/-- Failures of the model, each in a state the spec's rules make unreachable. -/
inductive Fault where
  /-- PQPOP, BUILD, GENCODES or DECODE reads `NODE[i]` with `i ≥ NODE_COUNT`, which holds no value (20_memory.md
  R51, 93_implementation_defined.md S3). Safe: the model stops. -/
  | nodeUnallocated
  /-- PUSHLEAF or BUILD would allocate a 512th node (00_scope.md R11 says it cannot happen). Safe. -/
  | nodeStoreFull
  /-- LOOKUP reads a code table that holds no value (93_implementation_defined.md S3). Safe. -/
  | codeTableUndefined
  /-- GENCODES would visit more than 511 nodes (40_command_model.md R97 says it cannot happen). Safe. -/
  | traversalBound
  deriving DecidableEq, Repr

/-- Operations that have no step in the model. -/
inductive Refusal where
  /-- exec's arm of an instruction that has no meaning yet; none is left. Safe. -/
  | notModelled (mnemonic : String)
  /-- A host access of a width other than 4 bytes (20_memory.md R58). Safe. -/
  | accessWidth
  /-- A host access at an offset that is no multiple of 4 (R58, R63). Safe. -/
  | accessMisaligned
  /-- A host access outside the register window (R58). Safe. -/
  | accessOutsideWindow
  deriving DecidableEq, Repr

/-- The outcome of a step of this machine. -/
abbrev Outcome := Host.Outcome State Fault Refusal

/-- The HCC right after reset (10_state.md R20, R46; 70_reset_and_hazards.md R201). `cmdL`, `dataL` and the
model's own last three fields are the model's choice (log 2, 4, 5, 7). -/
def State.reset : State where
  data := 0
  errCode := .noError
  errCmd := 0
  root := nil
  ptr := nil
  res0 := 0
  res1 := 0
  res2 := 0
  intEn := 0
  intStat := 0
  phase := .load
  treeValid := false
  single := false
  symSeen := 0
  busy := false
  cmdL := 0
  dataL := 0
  nodes := []
  pq := []
  ct := none
  ob := []
  inputs := []
  reply := none
  freeCount := 0

end Sys2Proof.Machine
end

