-- ==== Sys2Proof/Machine/Operands.lean ====
section
/-! DEFINITION. How operands are formed from `DATA_L` and how results are packed into `RES0` to `RES2`
(30_encoding.md R73, 20_memory.md R60, R61, 10_state.md R31). -/

namespace Sys2Proof.Machine

/-- A leaf weight: `zext_40(DATA_L)` (R73). -/
def leafWeight (d : Word) : Weight := d.setWidth 40

/-- The `n` bits of a DECODE chunk in the order they are consumed: `d[0], d[1], …, d[n - 1]` (20_memory.md R60). -/
def chunkBits (n : Nat) (d : Word) : List Bool := (List.range n).map d.getLsbD

/-- `zext_32` of a node index. -/
def idxWord (i : NodeIdx) : Word := i.setWidth 32

/-- `w[31:0]`. -/
def weightLow (w : Weight) : Word := w.extractLsb' 0 32

/-- `zext_32(w[39:32])`. -/
def weightHigh (w : Weight) : Word := (w.extractLsb' 32 8).setWidth 32

/-- One bit at position `n` of a word. -/
def flagAt (b : Bool) (n : Nat) : Word := (BitVec.ofBool b).setWidth 32 <<< n

/-- `RES2` of PQPOP and READNODE (10_state.md R31): [16] leaf, [15:8] symbol, [7:0] `w[39:32]`. -/
def nodeTagWord (leaf : Bool) (sym : Symbol) (w : Weight) : Word :=
  flagAt leaf 16 ||| (sym.setWidth 32 <<< 8) ||| weightHigh w

/-- `RES0` of READNODE (10_state.md R31): [24:16] right child, [8:0] left child. -/
def childrenWord (n : Node) : Word := (n.right.setWidth 32 <<< 16) ||| n.left.setWidth 32

/-- Word `k` of a code: `bits[32k + 31 : 32k]` (20_memory.md R61). -/
def codeWord (bits : CodeBits) (k : BitVec 3) : Word := bits.extractLsb' (32 * k.toNat) 32

/-- GENCODES's 48-bit total as stored (42_codegen.md R132, R135). -/
def totalBits (t : Nat) : BitVec 48 := BitVec.ofNat 48 t

/-- `T[31:0]`. -/
def totalLow (t : Nat) : Word := (totalBits t).extractLsb' 0 32

/-- `zext_32(T[47:32])`. -/
def totalHigh (t : Nat) : Word := ((totalBits t).extractLsb' 32 16).setWidth 32

end Sys2Proof.Machine
end

