-- ==== Sys2Proof/Machine/Flags.lean ====
section
/-! DEFINITION. The views of the state that the host reads as registers and flags: counts, `STATUS`, the
interrupt level and the pending bits (10_state.md R24 to R35, 60_exceptions.md R179, R180). -/

namespace Sys2Proof.Machine

/-- The 4-bit code of an error (60_exceptions.md R170). -/
def ErrCode.code : ErrCode → BitVec 4
  | .noError => 0x0
  | .emptyPop => 0x1
  | .codeMiss => 0x2
  | .malformed => 0x3
  | .midCode => 0x4
  | .badPhase => 0x5
  | .dupSym => 0x6
  | .badWeight => 0x7
  | .badIndex => 0x8
  | .illegal => 0x9
  | .busy => 0xA

/-- `PQ_SIZE` (10_state.md R27). -/
def State.pqSize (s : State) : BitVec 9 := BitVec.ofNat 9 s.pq.length

/-- `NODE_COUNT` (R28). -/
def State.nodeCount (s : State) : BitVec 9 := BitVec.ofNat 9 s.nodes.length

/-- `OUT_COUNT` (R32). -/
def State.outCount (s : State) : BitVec 6 := BitVec.ofNat 6 s.ob.length

/-- `CT_VALID` (R38, R43): the code table holds values. -/
def State.ctValid (s : State) : Bool := s.ct.isSome

/-- `STATUS.ERR`: an error is recorded, so the HCC is locked (60_exceptions.md R174). -/
def State.locked (s : State) : Bool := s.errCode != .noError

/-- `STATUS.AT_ROOT` (R24). -/
def State.atRoot (s : State) : Bool := s.ptr == s.root

/-- `STATUS.PQ_EMPTY` (R24): the source's `isEmpty()`. -/
def State.pqEmpty (s : State) : Bool := s.pq.isEmpty

/-- The interrupt output, also `STATUS.IRQ` (60_exceptions.md R180). -/
def State.irq (s : State) : Bool :=
  (s.intStat.getLsbD 0 && s.intEn.getLsbD 0) || (s.intStat.getLsbD 1 && s.intEn.getLsbD 1)

/-- `STATUS` (10_state.md R24). -/
def State.statusWord (s : State) : Word :=
  flagAt s.busy 0 ||| flagAt s.locked 1 ||| flagAt (s.phase == .built) 2 ||| flagAt s.treeValid 3 |||
    flagAt s.single 4 ||| flagAt s.ctValid 5 ||| flagAt s.atRoot 6 ||| flagAt s.pqEmpty 7 ||| flagAt s.irq 8

/-- `OUTBUF[k]` (10_state.md R35): `zext_32(OB[k])` below `OUT_COUNT`, 0 from there on. -/
def State.outBuf (s : State) (k : Nat) : Word := ((s.ob[k]?).getD 0).setWidth 32

/-- `INT_STAT[0] <- 1` (40_command_model.md R91). -/
def State.setDone (s : State) : State := { s with intStat := s.intStat ||| 0b01 }

/-- A host write of `v` to `INT_STAT`: every bit written as 1 is cleared (10_state.md R34). -/
def State.ackInterrupts (s : State) (v : Word) : State := { s with intStat := s.intStat &&& ~~~(v.setWidth 2) }

end Sys2Proof.Machine
end

