-- ==== Sys2Proof/Machine/Ops.lean ====
section
/-! DEFINITION. The operations the commands share: recording an error, the legality table and the completion of
a command, the node store, the queue, and the session's reset (40_command_model.md, 41_queue_and_build.md,
60_exceptions.md). -/

namespace Sys2Proof.Machine

/-! ### Errors: the HCC's exceptions -/

/-- `RecordError(e, c)` (60_exceptions.md R172): the first error is kept. -/
def recordError (e : ErrCode) (c : Word) (s : State) : State :=
  if s.errCode = .noError then { s with errCode := e, errCmd := c, intStat := s.intStat ||| 0b10 } else s

/-! ### A command's result and its completion -/

/-- What `Exec_m` gives (40_command_model.md R91): a new state, a fault, or a failure of the model in an
unreachable state. -/
inductive CmdResult where
  | ok (s : State)
  | error (e : ErrCode)
  | broken (f : Fault)
  deriving DecidableEq, Repr

/-- `Legal(m, PHASE, CT_VALID)` (40_command_model.md R92). -/
def legal (op : Op) (phase : Phase) (ctValid : Bool) : Bool :=
  match op, phase, ctValid with
  | .nop, _, _ => true
  | .clear, _, _ => true
  | .pushleaf, .load, _ => true
  | .pushleaf, .built, _ => false
  | .pqpop, .load, _ => true
  | .pqpop, .built, _ => false
  | .build, .load, _ => true
  | .build, .built, _ => false
  | .gencodes, .load, _ => false
  | .gencodes, .built, _ => true
  | .lookup, .load, _ => false
  | .lookup, .built, v => v
  | .decode, .load, _ => false
  | .decode, .built, _ => true
  | .decend, .load, _ => false
  | .decend, .built, _ => true
  | .decrst, .load, _ => false
  | .decrst, .built, _ => true
  | .readnode, _, _ => true

/-- The last part of `Complete()` (40_command_model.md R91): `Ok` sets `DONE`, a fault records the command word
`CMD_L` and changes nothing else. -/
def settle (r : CmdResult) (s : State) : Outcome :=
  match r with
  | .ok s' => .next s'.setDone
  | .error e => .next (recordError e s.cmdL s)
  | .broken f => .fault f

/-- The legality check and then the command's own pseudocode (40_command_model.md R91, R93). -/
def attempt (op : Op) (body : State → CmdResult) (s : State) : Outcome :=
  if legal op s.phase s.ctValid then settle (body s) s else .next (recordError .badPhase s.cmdL s)

/-! ### The node store (20_memory.md R51) -/

/-- `NODE[i]`, if entry `i` is allocated. -/
def nodeAt (nodes : List Node) (i : NodeIdx) : Option Node := nodes[i.toNat]?

/-- The index the next node takes: `NODE_COUNT` (10_state.md R28). -/
def nextIdx (nodes : List Node) : NodeIdx := BitVec.ofNat 9 nodes.length

/-- `NODE[NODE_COUNT] <- n`, `NODE_COUNT <- NODE_COUNT + 1`, unless the store is full. -/
def allocNode (nodes : List Node) (n : Node) : Option (List Node) :=
  if nodes.length < Config.nodeCapacity then some (nodes ++ [n]) else none

/-- A leaf (20_memory.md R51). -/
def leafNode (sym : Symbol) (w : Weight) : Node := ⟨true, sym, w, nil, nil⟩

/-- An internal node (20_memory.md R51). -/
def innerNode (w : Weight) (left right : NodeIdx) : Node := ⟨false, 0, w, left, right⟩

/-! ### The queue (41_queue_and_build.md R110, R111) -/

/-- The queue's order: weight first, insertion tag second (R111). -/
def Entry.lt (a b : Entry) : Bool := a.w < b.w || (a.w == b.w && a.i < b.i)

/-- `PQInsert` (R110), into the rising list of entries. -/
def pqInsert (e : Entry) : List Entry → List Entry
  | [] => [e]
  | x :: xs => if e.lt x then e :: x :: xs else x :: pqInsert e xs

/-- `PQPopMin` (R111): the least entry of a rising list is its first. -/
def pqPopMin : List Entry → Option (Entry × List Entry)
  | [] => none
  | e :: rest => some (e, rest)

/-! ### The symbol set (10_state.md R39) -/

/-- `SYMSEEN[s]`. -/
def seen (set : BitVec 256) (sym : Symbol) : Bool := set.getLsbD sym.toNat

/-- `SYMSEEN[s] <- 1`. -/
def markSeen (set : BitVec 256) (sym : Symbol) : BitVec 256 := set ||| (1#256 <<< sym.toNat)

/-! ### The command latch and the session (10_state.md R40, 40_command_model.md R96) -/

/-- `BUSY <- 0`. -/
def State.setIdle (s : State) : State := { s with busy := false }

/-- `CMD_L <- c ; DATA_L <- DATA ; BUSY <- 1` (40_command_model.md R90). -/
def State.latch (s : State) (c : Word) : State := { s with cmdL := c, dataL := s.data, busy := true }

/-- The pending inputs replaced (the model's own field). -/
def State.setInputs (s : State) (l : List Event) : State := { s with inputs := l }

/-- The session and the error record at their reset values; `DATA`, `INT_EN`, `INT_STAT`, the latch and the
model's own fields kept (40_command_model.md R96). -/
def State.newSession (s : State) : State :=
  { s with
    phase := .load, pq := [], nodes := [], symSeen := 0, root := nil, ptr := nil,
    treeValid := false, single := false, ct := none, ob := [],
    res0 := 0, res1 := 0, res2 := 0, errCode := .noError, errCmd := 0 }

/-- The reset input (70_reset_and_hazards.md R200): every element at its reset value, a command in flight
abandoned, the lock cleared. The model's own fields are not the machine's and stay (log 12). -/
def State.resetMachine (s : State) : State :=
  { State.reset with inputs := s.inputs, reply := s.reply, freeCount := s.freeCount }

end Sys2Proof.Machine
end

