-- ==== Sys2Proof/Machine/CodeGen.lean ====
section
/-! DEFINITION. The code-table generator: GENCODES and LOOKUP (42_codegen.md). -/

namespace Sys2Proof.Machine

/-- The table in which no symbol has a code (R130). -/
def emptyTable : CodeTable := Vector.replicate 256 ⟨0, 0⟩

/-- `CT[s]`. -/
def tableAt (t : CodeTable) (sym : Symbol) : CodeEntry := t[sym.toNat]'sym.isLt

/-- `CT[s] <- e`. -/
def tableSet (t : CodeTable) (sym : Symbol) (e : CodeEntry) : CodeTable := t.set sym.toNat e sym.isLt

/-- What a traversal has gathered (R132): the table, the number `n` of codes, the total `T`. -/
structure Gathered where
  table : CodeTable
  count : Nat
  total : Nat
  deriving DecidableEq, Repr

/-- Nothing gathered. -/
def Gathered.empty : Gathered := ⟨emptyTable, 0, 0⟩

/-- A leaf reached by the path with bits `p` and depth `l` (R132). -/
def Gathered.addLeaf (g : Gathered) (n : Node) (p : CodeBits) (l : Nat) : Gathered :=
  ⟨tableSet g.table n.sym ⟨BitVec.ofNat 8 l, p⟩, g.count + 1, g.total + n.w.toNat * l⟩

/-- One element of the traversal's stack: a node, its path bits and its depth (R132). -/
structure Visit where
  node  : NodeIdx
  path  : CodeBits
  depth : Nat
  deriving DecidableEq, Repr

/-- The path bits of a right child: `p OR (1 << l)` (R132). -/
def rightPath (p : CodeBits) (l : Nat) : CodeBits := p ||| (1#256 <<< l)

/-- GENCODES's traversal (R132) with at most `fuel` visits. The stack's top is the list's head; the right child is
pushed first, so the left subtree is visited first. -/
def traverse (nodes : List Node) : Nat → List Visit → Gathered → Except Fault Gathered
  | _, [], g => .ok g
  | 0, _ :: _, _ => .error .traversalBound
  | fuel + 1, v :: stack, g =>
    match nodeAt nodes v.node with
    | none => .error .nodeUnallocated
    | some n =>
      if n.leaf then traverse nodes fuel stack (g.addLeaf n v.path v.depth)
      else
        traverse nodes fuel
          (⟨n.left, v.path, v.depth + 1⟩ :: ⟨n.right, rightPath v.path v.depth, v.depth + 1⟩ :: stack) g

/-- The codes of the tree (R130, R131, R132): none without a tree, "0" for a single leaf, else every leaf's path. -/
def gatherCodes (s : State) : Except Fault Gathered :=
  if !s.treeValid then .ok Gathered.empty
  else if s.single then
    match nodeAt s.nodes s.root with
    | none => .error .nodeUnallocated
    | some n => .ok (Gathered.empty.addLeaf n 0 1)
  else traverse s.nodes Config.nodeCapacity [⟨s.root, 0, 0⟩] Gathered.empty

/-- What GENCODES writes (R132). -/
def State.withCodes (s : State) (g : Gathered) : State :=
  { s with ct := some g.table, res0 := BitVec.ofNat 32 g.count, res1 := totalLow g.total, res2 := totalHigh g.total }

/-- `Exec_GENCODES` (R132). -/
def gencodesBody (s : State) : CmdResult :=
  match gatherCodes s with
  | .error f => .broken f
  | .ok g => .ok (s.withCodes g)

/-- GENCODES (R132). -/
def execGencodes (s : State) : Outcome := attempt .gencodes gencodesBody s

/-- `Exec_LOOKUP` (R136). -/
def lookupBody (sym : Symbol) (k : BitVec 3) (s : State) : CmdResult :=
  match s.ct with
  | none => .broken .codeTableUndefined
  | some t =>
    let e := tableAt t sym
    if e.len = 0 then .error .codeMiss
    else .ok { s with res0 := e.len.setWidth 32, res1 := codeWord e.bits k }

/-- LOOKUP (R136). -/
def execLookup (sym : Symbol) (k : BitVec 3) (s : State) : Outcome := attempt .lookup (lookupBody sym k) s

end Sys2Proof.Machine
end

