-- ==== Sys2Proof/Machine/Control.lean ====
section
/-! DEFINITION. NOP and CLEAR (40_command_model.md R95, R96). -/

namespace Sys2Proof.Machine

/-- NOP (R95). -/
def execNop (s : State) : Outcome := attempt .nop (fun s => .ok s) s

/-- CLEAR (R96). -/
def execClear (s : State) : Outcome := attempt .clear (fun s => .ok s.newSession) s

end Sys2Proof.Machine
end

