-- ==== Sys2Proof/Machine/Decoder.lean ====
section
/-! DEFINITION. The bit-stream decoder: DECODE, DECEND, DECRST (43_decode.md). -/

namespace Sys2Proof.Machine

/-- Where a walk stands: the node pointer and the symbols emitted so far (R146, R147). -/
structure Walk where
  at_ : NodeIdx
  out : List Symbol
  deriving DecidableEq, Repr

/-- What one bit, or a whole chunk, does to a walk (R147). -/
inductive WalkResult where
  | walked (w : Walk)
  | malformed
  | broken (f : Fault)
  deriving DecidableEq, Repr

/-- One bit outside single mode (R147): left on 0, right on 1; at a leaf, emit and go back to the root. Both guards
of R152 stand. -/
def walkBit (nodes : List Node) (root : NodeIdx) (b : Bool) (w : Walk) : WalkResult :=
  match nodeAt nodes w.at_ with
  | none => .broken .nodeUnallocated
  | some n =>
    if n.leaf then .malformed
    else
      let q := if b then n.right else n.left
      if q = nil then .malformed
      else
        match nodeAt nodes q with
        | none => .broken .nodeUnallocated
        | some m => if m.leaf then .walked ⟨root, w.out ++ [m.sym]⟩ else .walked ⟨q, w.out⟩

/-- The bits of a chunk in order (R147). -/
def walkBits (nodes : List Node) (root : NodeIdx) : List Bool → Walk → WalkResult
  | [], w => .walked w
  | b :: bs, w =>
    match walkBit nodes root b w with
    | .walked w' => walkBits nodes root bs w'
    | .malformed => .malformed
    | .broken f => .broken f

/-- A chunk in single mode: every bit emits the root's symbol, whatever its value (R150). -/
def walkSingle (nodes : List Node) (root : NodeIdx) (n : Nat) (w : Walk) : WalkResult :=
  match nodeAt nodes root with
  | none => .broken .nodeUnallocated
  | some r => .walked ⟨w.at_, w.out ++ List.replicate n r.sym⟩

/-- What DECODE writes when every bit has been consumed (R147, R148). -/
def State.afterWalk (s : State) (w : Walk) : State :=
  { s with ptr := w.at_, ob := w.out, res0 := BitVec.ofNat 32 w.out.length }

/-- `Exec_DECODE` (R147). -/
def decodeBody (n : Nat) (s : State) : CmdResult :=
  if !s.treeValid then .error .malformed
  else
    match (if s.single then walkSingle s.nodes s.root n ⟨s.ptr, []⟩
           else walkBits s.nodes s.root (chunkBits n s.dataL) ⟨s.ptr, []⟩) with
    | .walked w => .ok (s.afterWalk w)
    | .malformed => .error .malformed
    | .broken f => .broken f

/-- DECODE (R147). -/
def execDecode (n : Nat) (s : State) : Outcome := attempt .decode (decodeBody n) s

/-- `Exec_DECEND` (R151). -/
def decendBody (s : State) : CmdResult :=
  if s.treeValid && !s.single && !s.atRoot then .error .midCode else .ok s

/-- DECEND (R151). -/
def execDecend (s : State) : Outcome := attempt .decend decendBody s

/-- `Exec_DECRST` (R153). -/
def decrstBody (s : State) : CmdResult := .ok { s with ptr := s.root, ob := [] }

/-- DECRST (R153). -/
def execDecrst (s : State) : Outcome := attempt .decrst decrstBody s

end Sys2Proof.Machine
end

