-- ==== Sys2Proof/Machine/Inspect.lean ====
section
/-! DEFINITION. Tree inspection: READNODE (44_inspect.md R165). -/

namespace Sys2Proof.Machine

/-- `Exec_READNODE` (R165): the entry is read only if it is allocated. -/
def readnodeBody (idx : NodeIdx) (s : State) : CmdResult :=
  match nodeAt s.nodes idx with
  | none => .error .badIndex
  | some n =>
    .ok { s with res0 := childrenWord n, res1 := weightLow n.w, res2 := nodeTagWord n.leaf n.sym n.w }

/-- READNODE (R165). -/
def execReadnode (idx : NodeIdx) (s : State) : Outcome := attempt .readnode (readnodeBody idx) s

end Sys2Proof.Machine
end

