-- ==== Sys2Proof/Machine/Queue.lean ====
section
/-! DEFINITION. The priority queue and the tree builder: PUSHLEAF, PQPOP, BUILD (41_queue_and_build.md). -/

namespace Sys2Proof.Machine

/-- `Exec_PUSHLEAF` (R112). -/
def pushleafBody (sym : Symbol) (s : State) : CmdResult :=
  let w := leafWeight s.dataL
  if w = 0 then .error .badWeight
  else if seen s.symSeen sym then .error .dupSym
  else
    match allocNode s.nodes (leafNode sym w) with
    | none => .broken .nodeStoreFull
    | some nodes =>
      let i := nextIdx s.nodes
      .ok { s with
        nodes := nodes, symSeen := markSeen s.symSeen sym, pq := pqInsert ⟨w, i⟩ s.pq, res0 := idxWord i }

/-- PUSHLEAF (R112). -/
def execPushleaf (sym : Symbol) (s : State) : Outcome := attempt .pushleaf (pushleafBody sym) s

/-- `Exec_PQPOP` (R114). -/
def pqpopBody (s : State) : CmdResult :=
  match pqPopMin s.pq with
  | none => .error .emptyPop
  | some (e, rest) =>
    match nodeAt s.nodes e.i with
    | none => .broken .nodeUnallocated
    | some n =>
      .ok { s with
        pq := rest, res0 := idxWord e.i, res1 := weightLow e.w, res2 := nodeTagWord n.leaf n.sym e.w }

/-- PQPOP (R114). -/
def execPqpop (s : State) : Outcome := attempt .pqpop pqpopBody s

/-- BUILD's loop (R116, R117): while two entries remain, pop `A` and then `B`, create their parent at the next
index and queue it. Each merge lowers the queue's size by one, so the size bounds the merges. -/
def mergeAll : Nat → List Node → List Entry → Except Fault (List Node × List Entry)
  | 0, nodes, pq => .ok (nodes, pq)
  | fuel + 1, nodes, pq =>
    match pqPopMin pq with
    | none => .ok (nodes, pq)
    | some (a, rest) =>
      match pqPopMin rest with
      | none => .ok (nodes, pq)
      | some (b, rest') =>
        match allocNode nodes (innerNode (a.w + b.w) a.i b.i) with
        | none => .error .nodeStoreFull
        | some nodes' => mergeAll fuel nodes' (pqInsert ⟨a.w + b.w, nextIdx nodes⟩ rest')

/-- What BUILD writes with no tree (R116, R118). -/
def State.builtEmpty (s : State) (nodes : List Node) : State :=
  { s with
    nodes := nodes, pq := [], root := nil, treeValid := false, single := false,
    res0 := idxWord nil, res1 := 0, res2 := 0, ptr := nil, ob := [], phase := .built }

/-- What BUILD writes with the last entry `e`, whose node is `n` (R116, R118). -/
def State.builtTree (s : State) (nodes : List Node) (e : Entry) (n : Node) : State :=
  { s with
    nodes := nodes, pq := [], root := e.i, treeValid := true, single := n.leaf,
    res0 := idxWord e.i, res1 := weightLow e.w, res2 := weightHigh e.w, ptr := e.i, ob := [], phase := .built }

/-- `Exec_BUILD` (R116). -/
def buildBody (s : State) : CmdResult :=
  match mergeAll s.pq.length s.nodes s.pq with
  | .error f => .broken f
  | .ok (nodes, pq) =>
    match pqPopMin pq with
    | none => .ok (s.builtEmpty nodes)
    | some (e, _) =>
      match nodeAt nodes e.i with
      | none => .broken .nodeUnallocated
      | some n => .ok (s.builtTree nodes e n)

/-- BUILD (R116). -/
def execBuild (s : State) : Outcome := attempt .build buildBody s

end Sys2Proof.Machine
end

