-- ==== Sys2Proof/Machine/Dispatch.lean ====
section
/-! DEFINITION. The meaning of every command: `Complete()` (40_command_model.md R91) from the legality check on. -/

namespace Sys2Proof.Machine

def exec (i : Instr) (s : State) : Host.Outcome State Fault Refusal :=
  match i with
  | .nop => Sys2Proof.Machine.execNop s
  | .clear => Sys2Proof.Machine.execClear s
  | .pushleaf sym => Sys2Proof.Machine.execPushleaf sym s
  | .pqpop => Sys2Proof.Machine.execPqpop s
  | .build => Sys2Proof.Machine.execBuild s
  | .gencodes => Sys2Proof.Machine.execGencodes s
  | .lookup sym k => Sys2Proof.Machine.execLookup sym k s
  | .decode n => Sys2Proof.Machine.execDecode n s
  | .decend => Sys2Proof.Machine.execDecend s
  | .decrst => Sys2Proof.Machine.execDecrst s
  | .readnode idx => Sys2Proof.Machine.execReadnode idx s

end Sys2Proof.Machine
end

