-- ==== Sys2Proof/Machine/Complete.lean ====
section
/-! DEFINITION. The core's one step, `Complete()` (40_command_model.md R91). -/

namespace Sys2Proof.Machine

/-- `Complete()` (R91), taken only while `BUSY = 1`: `BUSY <- 0`; a command other than CLEAR is abandoned while an
error is recorded; an illegal word records `E_ILLEGAL`; else the command runs. -/
def complete (s : State) : Outcome :=
  match decode s.cmdL with
  | .error _ =>
    if s.locked then .next s.setIdle else .next (recordError .illegal s.cmdL s.setIdle)
  | .ok i =>
    if i.op != .clear && s.locked then .next s.setIdle else exec i s.setIdle

/-- A turn of the core: it completes the command in flight, and with none it has no step to take (R91), so the
turn passes. -/
def coreStep (s : State) : Outcome := if s.busy then complete s else .next s

end Sys2Proof.Machine
end

