-- ==== Sys2Proof/Machine/HostPort.lean ====
section
/-! DEFINITION. The host's register port: the register map, reads, writes and `Offer` (10_state.md R20 to R36,
20_memory.md R55 to R58, 40_command_model.md R90, 70_reset_and_hazards.md R207). -/

namespace Sys2Proof.Machine

/-- The registers of the window (10_state.md R20). -/
inductive Reg where
  | id | cmd | data | status | errCode | errCmd | pqSize | nodeCount | root | ptr
  | res0 | res1 | res2 | outCount | intEn | intStat
  /-- `OUTBUF[k]`. -/
  | outBuf (k : Nat)
  /-- Offsets 0x40 to 0x7C (R36). -/
  | reserved
  deriving DecidableEq, Repr

/-- The register at an aligned offset of the window (R20). -/
def regAt (off : Nat) : Reg :=
  if 0x80 ≤ off then .outBuf ((off - 0x80) / 4)
  else
    match off with
    | 0x00 => .id
    | 0x04 => .cmd
    | 0x08 => .data
    | 0x0C => .status
    | 0x10 => .errCode
    | 0x14 => .errCmd
    | 0x18 => .pqSize
    | 0x1C => .nodeCount
    | 0x20 => .root
    | 0x24 => .ptr
    | 0x28 => .res0
    | 0x2C => .res1
    | 0x30 => .res2
    | 0x34 => .outCount
    | 0x38 => .intEn
    | 0x3C => .intStat
    | _ => .reserved

/-- The value of a register in a state (R21 to R36); exact while `BUSY = 0`. -/
def State.regValue (s : State) : Reg → Word
  | .id => Config.idWord
  | .cmd => 0
  | .data => s.data
  | .status => s.statusWord
  | .errCode => s.errCode.code.setWidth 32
  | .errCmd => s.errCmd
  | .pqSize => s.pqSize.setWidth 32
  | .nodeCount => s.nodeCount.setWidth 32
  | .root => idxWord s.root
  | .ptr => idxWord s.ptr
  | .res0 => s.res0
  | .res1 => s.res1
  | .res2 => s.res2
  | .outCount => s.outCount.setWidth 32
  | .intEn => s.intEn.setWidth 32
  | .intStat => s.intStat.setWidth 32
  | .outBuf k => s.outBuf k
  | .reserved => 0

/-- The bits of a register that read an unspecified value while `BUSY = 1` (70_reset_and_hazards.md R207,
93_implementation_defined.md S1). -/
def Reg.unsettled : Reg → Word
  | .id => 0
  | .cmd => 0
  | .data => 0
  | .status => 0x000000FC
  | .errCode => 0
  | .errCmd => 0
  | .pqSize => 0x000001FF
  | .nodeCount => 0x000001FF
  | .root => 0x000001FF
  | .ptr => 0x000001FF
  | .res0 => 0xFFFFFFFF
  | .res1 => 0xFFFFFFFF
  | .res2 => 0xFFFFFFFF
  | .outCount => 0x0000003F
  | .intEn => 0
  | .intStat => 0
  | .outBuf _ => 0x000000FF
  | .reserved => 0

/-- Whether a read of `r` now draws a free value (R207). -/
def State.drawsFree (s : State) (r : Reg) : Bool := s.busy && r.unsettled != 0

/-- What a host read of `r` returns (20_memory.md R56): the register's value, its unsettled bits free while
`BUSY = 1`. -/
def State.readValue (s : State) (r : Reg) : Word :=
  if s.drawsFree r then
    (s.regValue r &&& ~~~r.unsettled) ||| (Config.freeWord s.freeCount &&& r.unsettled)
  else s.regValue r

/-- A host read (R56): the reply, and no other change but that a drawn free value is used up. -/
def State.hostRead (s : State) (r : Reg) : State :=
  { s with
    reply := some (s.readValue r), freeCount := if s.drawsFree r then s.freeCount + 1 else s.freeCount }

/-- `Offer(c)` (40_command_model.md R90): `E_BUSY` while a command is in flight, discarded while locked unless it
is CLEAR's word, else issued. The word is not decoded here. -/
def offer (c : Word) (s : State) : State :=
  if s.busy then recordError .busy c s
  else if s.locked && c != 0x00000001 then s
  else s.latch c

/-- A host write of `v` to `r` (20_memory.md R57). -/
def State.hostWrite (s : State) (r : Reg) (v : Word) : State :=
  match r with
  | .cmd => offer v s
  | .data => { s with data := v }
  | .intEn => { s with intEn := v.setWidth 2 }
  | .intStat => s.ackInterrupts v
  | .id => s
  | .status => s
  | .errCode => s
  | .errCmd => s
  | .pqSize => s
  | .nodeCount => s
  | .root => s
  | .ptr => s
  | .res0 => s
  | .res1 => s
  | .res2 => s
  | .outCount => s
  | .outBuf _ => s
  | .reserved => s

/-- The offset of a byte address in the window at `HCC_BASE`, if it lies in it (R50). -/
def windowOffset (addr : Nat) : Option Nat :=
  if Config.hccBase ≤ addr && addr < Config.hccBase + Config.windowBytes then some (addr - Config.hccBase) else none

/-- The register a host access reaches, or why it has no meaning (R55, R58, R63). -/
def accessTarget (addr width : Nat) : Except Refusal Reg :=
  if width != 4 then .error .accessWidth
  else
    match windowOffset addr with
    | none => .error .accessOutsideWindow
    | some off => if off % 4 = 0 then .ok (regAt off) else .error .accessMisaligned

/-- `MemRead(addr, width)` (R56, R58). -/
def memRead (addr width : Nat) (s : State) : Outcome :=
  match accessTarget addr width with
  | .error r => .refused r
  | .ok reg => .next (s.hostRead reg)

/-- `MemWrite(addr, width, v)` (R57, R58). -/
def memWrite (addr width : Nat) (v : Word) (s : State) : Outcome :=
  match accessTarget addr width with
  | .error r => .refused r
  | .ok reg => .next (s.hostWrite reg v)

end Sys2Proof.Machine
end

