-- ==== Sys2Proof/Machine/Step.lean ====
section
/-! DEFINITION. One step of the HCC: a host access, a reset, or a turn of the core (20_memory.md R66). -/

namespace Sys2Proof.Machine

/-- One step. The oldest pending input is served and removed; with none pending the core takes its turn (weak
fairness, 40_command_model.md R97), and an idle HCC waits (60_exceptions.md R187). -/
def step (s : State) : Host.Outcome State Fault Refusal :=
  match s.inputs with
  | [] => coreStep s
  | .coreTurn :: rest => coreStep (s.setInputs rest)
  | .read addr width :: rest => memRead addr width (s.setInputs rest)
  | .write addr width v :: rest => memWrite addr width v (s.setInputs rest)
  | .reset :: rest => .next (s.setInputs rest).resetMachine

/-- `s` with the command word `w` issued (40_command_model.md R90) and the core next to move, so that the next
step completes exactly that command. -/
def State.withFetchWord (s : State) (nbits w : Nat) : State :=
  (s.setInputs (.coreTurn :: s.inputs)).latch (BitVec.ofNat 32 (w % 2 ^ nbits))

end Sys2Proof.Machine
end

