-- ==== Sys2Proof/Machine/HostProgram.lean ====
section
/-! DEFINITION. Host programs: the host steps `wr` and `rd` and the pseudo-instructions, as the pending inputs
they expand to (30_encoding.md R78, R79). -/

namespace Sys2Proof.Machine

/-- The offset of a register in the window (10_state.md R20). -/
def Reg.offset : Reg → Nat
  | .id => 0x00
  | .cmd => 0x04
  | .data => 0x08
  | .status => 0x0C
  | .errCode => 0x10
  | .errCmd => 0x14
  | .pqSize => 0x18
  | .nodeCount => 0x1C
  | .root => 0x20
  | .ptr => 0x24
  | .res0 => 0x28
  | .res1 => 0x2C
  | .res2 => 0x30
  | .outCount => 0x34
  | .intEn => 0x38
  | .intStat => 0x3C
  | .outBuf k => 0x80 + 4 * k
  | .reserved => 0x40

/-- `rd REG` (R78). -/
def rd (r : Reg) : Event := .read (Config.hccBase + r.offset) 4

/-- `wr REG, v` (R78). -/
def wr (r : Reg) (v : Word) : Event := .write (Config.hccBase + r.offset) 4 v

/-- A command line means `wr CMD, encode(…)` (R78). -/
def issue (i : Instr) : Event := wr .cmd (encode i)

/-- One line of a host program (R77, R78, R79). -/
inductive Line where
  | write (r : Reg) (v : Word)
  | read (r : Reg)
  | command (i : Instr)
  | wait
  | leaf (sym : Symbol) (w : Word)
  | dec (n : Nat) (v : Word)
  | doCommand (i : Instr)
  /-- `do` of a bare command word, which need not be a command's (log 13). -/
  | doWord (c : Word)
  | code (sym : Symbol)
  | check
  deriving DecidableEq, Repr

/-- `wait` (R79): `STATUS` is read until `BUSY` reads 0. `polls` of the reads come before the core's turn and see
`BUSY = 1`; the last comes after it. -/
def expandWait (polls : Nat) : List Event := List.replicate polls (rd .status) ++ [.coreTurn, rd .status]

/-- A command word written to `CMD`, then `wait`. -/
def expandWord (polls : Nat) (c : Word) : List Event := wr .cmd c :: expandWait polls

/-- `do X` (R79). -/
def expandDo (polls : Nat) (i : Instr) : List Event := expandWord polls (encode i)

/-- The word indices `code` looks up where `RES0` reads `len` (R79): 0, and every `k ≥ 1` with `32·k < len`.
DESIGN CHOICE (log 16): the loop ends at `k = 7`, the last index that `K` encodes. A code has at most 255 bits and
asks for no more; R79 does not say what the loop does on a larger `RES0`, left by an earlier command when the LOOKUP
faults or is discarded. -/
def codeIndices (len : Nat) : List (BitVec 3) :=
  0 :: ((List.range 8).filter fun k => decide (1 ≤ k) && decide (32 * k < len)).map (BitVec.ofNat 3)

/-- The steps a line expands to (R79). `polls k` is how many polls of its `k`-th `wait` see `BUSY = 1`; `len` is
the `RES0` that `code` finds after its first LOOKUP. -/
def Line.expand (polls : Nat → Nat) (len : Nat) : Line → List Event
  | .write r v => [wr r v]
  | .read r => [rd r]
  | .command i => [issue i]
  | .wait => expandWait (polls 0)
  | .leaf sym w => wr .data w :: expandDo (polls 0) (.pushleaf sym)
  | .dec n v => wr .data v :: expandDo (polls 0) (.decode n)
  | .doCommand i => expandDo (polls 0) i
  | .doWord c => expandWord (polls 0) c
  | .code sym => (codeIndices len).flatMap fun k => expandDo (polls k.toNat) (.lookup sym k)
  | .check => [rd .status]

/-- What `check` requires of the `STATUS` it reads (R79): bit 1 (`ERR`) is 0. -/
def checkPasses (status : Word) : Bool := !status.getLsbD 1

end Sys2Proof.Machine
end

