-- ==== Sys2Proof/Machine/Assembler.lean ====
section
/-! DEFINITION. The assembler's text syntax (30_encoding.md R77 to R79): one line of characters to one line of a
host program, rejecting by name. -/

namespace Sys2Proof.Machine

/-- Why a line is rejected. -/
inductive AsmError where
  /-- A quote does not enclose exactly one character. -/
  | badQuote
  /-- The first word is no mnemonic, pseudo-instruction, `wr` or `rd`. -/
  | unknownMnemonic
  /-- An operand is missing, extra, out of its range or not separated by a comma. -/
  | badOperand
  deriving DecidableEq, Repr

/-- A token of a line. -/
inductive Token where
  | word (cs : List Char)
  | quoted (c : Char)
  | comma
  deriving DecidableEq, Repr

/-- Where the tokeniser stands: in plain text with a word begun (last character first), after an opening quote, or
after the quoted character. -/
inductive LexState where
  | plain (acc : List Char)
  | afterQuote
  | afterChar (c : Char)
  deriving DecidableEq, Repr

/-- The word begun, if any. -/
def flush (acc : List Char) : List Token := if acc.isEmpty then [] else [.word acc.reverse]

/-- The tokens of a line; `;` starts a comment (R77). -/
def tokens : List Char → LexState → Except AsmError (List Token)
  | [], .plain acc => .ok (flush acc)
  | [], .afterQuote => .error .badQuote
  | [], .afterChar _ => .error .badQuote
  | c :: cs, .plain acc =>
    if c = ';' then .ok (flush acc)
    else if c = ',' then (tokens cs (.plain [])).map fun ts => flush acc ++ .comma :: ts
    else if c = '\'' then (tokens cs .afterQuote).map fun ts => flush acc ++ ts
    else if c = ' ' || c = '\t' then (tokens cs (.plain [])).map fun ts => flush acc ++ ts
    else tokens cs (.plain (c :: acc))
  | c :: cs, .afterQuote => tokens cs (.afterChar c)
  | c :: cs, .afterChar d =>
    if c = '\'' then (tokens cs (.plain [])).map fun ts => .quoted d :: ts else .error .badQuote

/-- The value of a digit. -/
def digitValue (c : Char) : Option Nat :=
  let n := c.toNat
  if 48 ≤ n && n ≤ 57 then some (n - 48)
  else if 65 ≤ n && n ≤ 70 then some (n - 55)
  else if 97 ≤ n && n ≤ 102 then some (n - 87)
  else none

/-- Digits in a base, most significant first. -/
def digits (base : Nat) : List Char → Nat → Option Nat
  | [], v => some v
  | c :: cs, v =>
    match digitValue c with
    | none => none
    | some d => if d < base then digits base cs (v * base + d) else none

/-- A number: decimal, `0x` hexadecimal or `0b` binary (00_scope.md R16). -/
def number : List Char → Option Nat
  | [] => none
  | '0' :: 'x' :: c :: cs => digits 16 (c :: cs) 0
  | '0' :: 'b' :: c :: cs => digits 2 (c :: cs) 0
  | c :: cs => digits 10 (c :: cs) 0

/-- The value of an operand below `bound`; a character literal stands for its 8-bit code (R77). -/
def operandBelow (bound : Nat) : Token → Option Nat
  | .word cs =>
    match number cs with
    | none => none
    | some v => if v < bound then some v else none
  | .quoted c => if c.toNat < 256 && c.toNat < bound then some c.toNat else none
  | .comma => none

/-- A symbol operand: 0 to 255 or a character literal (R77). -/
def symOperand (t : Token) : Option Symbol := (operandBelow 256 t).map (BitVec.ofNat 8)

/-- A number operand below `bound`; no character literal. -/
def numOperand (bound : Nat) : Token → Option Nat
  | .word cs => operandBelow bound (.word cs)
  | .quoted _ => none
  | .comma => none

/-- A bit count, 1 to 32 (R77). -/
def countOperand (t : Token) : Option Nat :=
  match numOperand 33 t with
  | none => none
  | some n => if 1 ≤ n then some n else none

/-- A 32-bit value. -/
def wordOperand (t : Token) : Option Word := (numOperand (2 ^ 32) t).map (BitVec.ofNat 32)

/-- One letter in lower case. -/
def lowerChar (c : Char) : Char := if 65 ≤ c.toNat && c.toNat ≤ 90 then Char.ofNat (c.toNat + 32) else c

/-- Whether a word spells `name` in upper or in lower case (R77); `name` is in lower case. -/
def spells (cs name : List Char) : Bool :=
  cs == name || (cs.map lowerChar == name && cs.all fun c => 65 ≤ c.toNat && c.toNat ≤ 90)

/-- A command from its mnemonic and its operands; `none` if the mnemonic is no command's (R77). -/
def commandOf (m : List Char) (args : List Token) : Option (Option Instr) :=
  if spells m ['n', 'o', 'p'] then some (if args = [] then some .nop else none)
  else if spells m ['c', 'l', 'e', 'a', 'r'] then some (if args = [] then some .clear else none)
  else if spells m ['p', 'u', 's', 'h', 'l', 'e', 'a', 'f'] then
    some (match args with | [t] => (symOperand t).map Instr.pushleaf | _ => none)
  else if spells m ['p', 'q', 'p', 'o', 'p'] then some (if args = [] then some .pqpop else none)
  else if spells m ['b', 'u', 'i', 'l', 'd'] then some (if args = [] then some .build else none)
  else if spells m ['g', 'e', 'n', 'c', 'o', 'd', 'e', 's'] then some (if args = [] then some .gencodes else none)
  else if spells m ['l', 'o', 'o', 'k', 'u', 'p'] then
    some (match args with
      | [t, .comma, u] =>
        match symOperand t, numOperand 8 u with
        | some sym, some k => some (.lookup sym (BitVec.ofNat 3 k))
        | _, _ => none
      | _ => none)
  else if spells m ['d', 'e', 'c', 'o', 'd', 'e'] then
    some (match args with | [t] => (countOperand t).map Instr.decode | _ => none)
  else if spells m ['d', 'e', 'c', 'e', 'n', 'd'] then some (if args = [] then some .decend else none)
  else if spells m ['d', 'e', 'c', 'r', 's', 't'] then some (if args = [] then some .decrst else none)
  else if spells m ['r', 'e', 'a', 'd', 'n', 'o', 'd', 'e'] then
    some (match args with | [t] => (numOperand 512 t).map (fun n => Instr.readnode (BitVec.ofNat 9 n)) | _ => none)
  else none

/-- The registers' names (10_state.md R20) but `OUTBUF[k]`. -/
def registerNames : List (List Char × Reg) :=
  [ (['I', 'D'], .id), (['C', 'M', 'D'], .cmd), (['D', 'A', 'T', 'A'], .data),
    (['S', 'T', 'A', 'T', 'U', 'S'], .status), (['E', 'R', 'R', '_', 'C', 'O', 'D', 'E'], .errCode),
    (['E', 'R', 'R', '_', 'C', 'M', 'D'], .errCmd), (['P', 'Q', '_', 'S', 'I', 'Z', 'E'], .pqSize),
    (['N', 'O', 'D', 'E', '_', 'C', 'O', 'U', 'N', 'T'], .nodeCount), (['R', 'O', 'O', 'T'], .root),
    (['P', 'T', 'R'], .ptr), (['R', 'E', 'S', '0'], .res0), (['R', 'E', 'S', '1'], .res1),
    (['R', 'E', 'S', '2'], .res2), (['O', 'U', 'T', '_', 'C', 'O', 'U', 'N', 'T'], .outCount),
    (['I', 'N', 'T', '_', 'E', 'N'], .intEn), (['I', 'N', 'T', '_', 'S', 'T', 'A', 'T'], .intStat) ]

/-- `OUTBUF[k]`, k = 0 to 31. -/
def outBufName (cs : List Char) : Option Reg :=
  match cs with
  | 'O' :: 'U' :: 'T' :: 'B' :: 'U' :: 'F' :: '[' :: rest =>
    match rest.reverse with
    | ']' :: ds =>
      match number ds.reverse with
      | some k => if k < 32 then some (.outBuf k) else none
      | none => none
    | _ => none
  | _ => none

/-- A register by its name. -/
def registerOf (t : Token) : Option Reg :=
  match t with
  | .word cs =>
    match registerNames.find? (fun p => p.1 == cs) with
    | some p => some p.2
    | none => outBufName cs
  | .quoted _ => none
  | .comma => none

/-- The operand of `do`: a command line, or a bare command word. DESIGN CHOICE (log 13): R79 says "for any command
`X`" and does not say that `X` may be a word; 95_test_vectors.md 2.8 writes `do 0x0000000B` for "write the word,
wait", so a number is read as the word to write, legal or not. -/
def doOperand (args : List Token) : Option Line :=
  match args with
  | .word m :: args' =>
    match commandOf m args' with
    | some (some i) => some (.doCommand i)
    | some none => none
    | none => if args' = [] then (wordOperand (.word m)).map Line.doWord else none
  | _ => none

/-- The line a first word and its operands spell, for the words that are no command's (R78, R79). -/
def otherLine (m : List Char) (args : List Token) : Option (Option Line) :=
  if spells m ['w', 'r'] then
    some (match args with
      | [t, .comma, u] =>
        match registerOf t, wordOperand u with
        | some r, some v => some (.write r v)
        | _, _ => none
      | _ => none)
  else if spells m ['r', 'd'] then
    some (match args with | [t] => (registerOf t).map Line.read | _ => none)
  else if spells m ['w', 'a', 'i', 't'] then some (if args = [] then some .wait else none)
  else if spells m ['l', 'e', 'a', 'f'] then
    some (match args with
      | [t, .comma, u] =>
        match symOperand t, wordOperand u with
        | some sym, some w => some (.leaf sym w)
        | _, _ => none
      | _ => none)
  else if spells m ['d', 'e', 'c'] then
    some (match args with
      | [t, .comma, u] =>
        match countOperand t, wordOperand u with
        | some n, some v => some (.dec n v)
        | _, _ => none
      | _ => none)
  else if spells m ['d', 'o'] then some (doOperand args)
  else if spells m ['c', 'o', 'd', 'e'] then
    some (match args with | [t] => (symOperand t).map Line.code | _ => none)
  else if spells m ['c', 'h', 'e', 'c', 'k'] then some (if args = [] then some .check else none)
  else none

/-- One line of text (R77 to R79): nothing for a blank or comment line. -/
def assembleLine (text : List Char) : Except AsmError (Option Line) :=
  match tokens text (.plain []) with
  | .error e => .error e
  | .ok [] => .ok none
  | .ok (.word m :: args) =>
    match commandOf m args with
    | some (some i) => .ok (some (.command i))
    | some none => .error .badOperand
    | none =>
      match otherLine m args with
      | some (some l) => .ok (some l)
      | some none => .error .badOperand
      | none => .error .unknownMnemonic
  | .ok (.quoted _ :: _) => .error .unknownMnemonic
  | .ok (.comma :: _) => .error .unknownMnemonic

end Sys2Proof.Machine
end

