-- ==== Sys2Proof/Safety.lean ====
section
/-! DEFINITION. The terms claims are stated in: the tree's paths and codes (42_codegen.md R130), tree building over
a set of entries (41_queue_and_build.md R117), the completion of a command (40_command_model.md R91), decoding a
stream (43_decode.md R154), and the invariant (10_state.md R45). -/

namespace Sys2Proof.Machine

/-! ### Trees, paths and codes -/

/-- `path(x) = p` in the tree below `root` (R130): 0 for a step left, 1 for a step right. -/
inductive NodePath (nodes : List Node) (root : NodeIdx) : List Bool → NodeIdx → Prop
  | root : NodePath nodes root [] root
  | left {p : List Bool} {x : NodeIdx} {n : Node} :
      NodePath nodes root p x → nodeAt nodes x = some n → n.leaf = false → NodePath nodes root (p ++ [false]) n.left
  | right {p : List Bool} {x : NodeIdx} {n : Node} :
      NodePath nodes root p x → nodeAt nodes x = some n → n.leaf = false → NodePath nodes root (p ++ [true]) n.right

/-- The code of `sym` is `p` (R130): `p` leads from the root to a leaf of `sym`. -/
def HasCode (nodes : List Node) (root : NodeIdx) (sym : Symbol) (p : List Bool) : Prop :=
  ∃ y n, NodePath nodes root p y ∧ nodeAt nodes y = some n ∧ n.leaf = true ∧ n.sym = sym

/-- The code a table entry holds, first bit first (20_memory.md R53). -/
def CodeEntry.code (e : CodeEntry) : List Bool := (List.range e.len.toNat).map e.bits.getLsbD

/-- An entry holds exactly the bits `p` (20_memory.md R53): its length is `p`'s and every further bit is 0. -/
def CodeEntry.spells (e : CodeEntry) (p : List Bool) : Prop :=
  e.len.toNat = p.length ∧ ∀ j, e.bits.getLsbD j = (p[j]?).getD false

/-- `c` is a child of the node `p`. -/
def IsChild (nodes : List Node) (c p : NodeIdx) : Prop :=
  ∃ n, nodeAt nodes p = some n ∧ n.leaf = false ∧ (n.left = c ∨ n.right = c)

/-- Merging a set of entries to one (R111, R117): the least entry `a` and then the least of the rest `b` become the
children of the next node, until one entry is left. -/
inductive Merges : List Node → Finset Entry → List Node → Entry → Prop
  | one (nodes : List Node) (e : Entry) : Merges nodes {e} nodes e
  | merge {nodes nodes' : List Node} {q : Finset Entry} {a b e : Entry} :
      a ∈ q → (∀ x ∈ q, x ≠ a → a.lt x = true) →
      b ∈ q.erase a → (∀ x ∈ q.erase a, x ≠ b → b.lt x = true) →
      Merges (nodes ++ [innerNode (a.w + b.w) a.i b.i])
        (insert ⟨a.w + b.w, nextIdx nodes⟩ ((q.erase a).erase b)) nodes' e →
      Merges nodes q nodes' e

/-- The total `Σ w · len` of a table over the leaves of a node store (42_codegen.md R135). -/
def weightedLength (nodes : List Node) (len : Symbol → Nat) : Nat :=
  ((nodes.filter fun n => n.leaf).map fun n => n.w.toNat * len n.sym).sum

/-! ### Completion -/

/-- At this step the core completes the command `i` and does not abandon it (40_command_model.md R91): it is the
core's turn, `i` is in flight, and nothing is recorded or `i` is CLEAR. -/
def Completes (s : State) (i : Instr) : Prop :=
  (s.inputs = [] ∨ ∃ rest, s.inputs = .coreTurn :: rest) ∧ s.busy = true ∧ decode s.cmdL = .ok i ∧
    (s.errCode = .noError ∨ i = .clear)

/-! ### Streams -/

/-- DECODE of the chunks of a stream in order, each a bit count and its `DATA_L`, with the symbols read after each
(43_decode.md R154); nothing if one faults. -/
def decodeStream : List (Nat × Word) → State → Option (List Symbol × State)
  | [], s => some ([], s)
  | (n, d) :: rest, s =>
    match exec (.decode n) { s with dataL := d } with
    | .next t => if t.locked then none else (decodeStream rest t).map fun r => (t.ob ++ r.1, r.2)
    | .fault _ => none
    | .refused _ => none

/-! ### The invariant -/

/-- R45.1 for the node at index `i`; weights are compared as numbers, so a sum does not wrap. -/
def NodeOk (nodes : List Node) (i : NodeIdx) (n : Node) : Prop :=
  (n.leaf = true → n.left = nil ∧ n.right = nil ∧ 1 ≤ n.w.toNat) ∧
  (n.leaf = false → n.left < i ∧ n.right < i ∧ n.left ≠ n.right ∧ n.sym = 0 ∧
    ∃ l r, nodeAt nodes n.left = some l ∧ nodeAt nodes n.right = some r ∧ n.w.toNat = l.w.toNat + r.w.toNat)

/-- R45.1 to R45.6, whatever `BUSY` and `ERR_CODE` are. -/
structure R45 (s : State) : Prop where
  /-- R45.1. -/
  nodesOk : ∀ i n, nodeAt s.nodes i = some n → NodeOk s.nodes i n
  /-- R45.2: at most one parent. -/
  oneParent : ∀ c p p', IsChild s.nodes c p → IsChild s.nodes c p' → p = p'
  /-- R45.2: no queued index is a child. -/
  queuedNoChild : ∀ e ∈ s.pq, ∀ p, ¬ IsChild s.nodes e.i p
  /-- R45.3. -/
  loadEntries : s.phase = .load →
    ∀ e ∈ s.pq, ∃ n, nodeAt s.nodes e.i = some n ∧ n.leaf = true ∧ e.w = n.w
  /-- R45.3: no internal nodes in phase `LOAD`. -/
  loadLeaves : s.phase = .load → ∀ n ∈ s.nodes, n.leaf = true
  /-- R45.4. -/
  builtQueue : s.phase = .built → s.pq = []
  /-- R45.4. -/
  builtTree : s.phase = .built → (s.treeValid = true ↔ s.root ≠ nil)
  /-- R45.4. -/
  builtSingle : s.phase = .built →
    (s.single = true ↔ s.root ≠ nil ∧ ∃ n, nodeAt s.nodes s.root = some n ∧ n.leaf = true)
  /-- R45.5: outside single mode the walker is at the root or at an internal node below it. -/
  walkerInside : s.phase = .built → s.treeValid = true → s.single = false →
    ∃ p n, NodePath s.nodes s.root p s.ptr ∧ nodeAt s.nodes s.ptr = some n ∧ n.leaf = false
  /-- R45.5. -/
  walkerSingle : s.phase = .built → s.single = true → s.ptr = s.root
  /-- R45.5. -/
  walkerNoTree : s.phase = .built → s.treeValid = false → s.ptr = nil
  /-- R45.6. -/
  symbolsDistinct : ∀ i j n m, nodeAt s.nodes i = some n → nodeAt s.nodes j = some m →
    n.leaf = true → m.leaf = true → n.sym = m.sym → i = j

/-- The invariant: R45, and what else the rules say of every reachable state. -/
structure Invariant (s : State) : Prop extends R45 s where
  /-- The queue's canonical form: strictly rising (41_queue_and_build.md R111, log 9). -/
  queueRising : s.pq.Pairwise fun a b => a.lt b = true
  /-- The node store's capacity (00_scope.md R11). -/
  nodesFit : s.nodes.length ≤ Config.nodeCapacity
  /-- At most 255 internal nodes (R11). -/
  innerFit : (s.nodes.filter fun n => !n.leaf).length ≤ 255
  /-- A leaf's weight is a 32-bit number (R8). -/
  leafWeights : ∀ n ∈ s.nodes, n.leaf = true → n.w.toNat < 2 ^ 32
  /-- `SYMSEEN` is the set of the leaves' symbols (10_state.md R39). -/
  seenLeaves : ∀ sym, seen s.symSeen sym = true ↔ ∃ n ∈ s.nodes, n.leaf = true ∧ n.sym = sym
  /-- In phase `LOAD` there is no tree, no table and no output (R29, R30, R32, R38). -/
  loadEmpty : s.phase = .load →
    s.root = nil ∧ s.ptr = nil ∧ s.treeValid = false ∧ s.single = false ∧ s.ct = none ∧ s.ob = []
  /-- The root is a node, and no node's child (41_queue_and_build.md R121). -/
  rootNode : s.treeValid = true → ∃ n, nodeAt s.nodes s.root = some n
  /-- R121: single root. -/
  rootNoChild : s.treeValid = true → ∀ p, ¬ IsChild s.nodes s.root p
  /-- The table is the tree's (42_codegen.md R139). -/
  tableOfTree : ∀ t, s.ct = some t → ∃ g, gatherCodes s = .ok g ∧ g.table = t
  /-- The output buffer never overflows (00_scope.md R14). -/
  outputFits : s.ob.length ≤ 32
  /-- `ERR_CMD` is written only with an error (10_state.md R26). -/
  errorRecord : s.errCode = .noError → s.errCmd = 0

end Sys2Proof.Machine
end

