-- ==== Sys2Proof/Certificates/Slice0/Obligations.lean ====
section
/-! DEFINITION. The statements about the HCC model. Every R<n> is a rule of spec/. Host accesses, resets and core
turns stand in `inputs`, the model's schedule (log 2), and a statement holds for every list of them. No statement
rests on the value of a model's own field (`reply`, `freeCount`) or of a Config constant without a body. -/

open Sys2Proof Sys2Proof.Machine

/-! ## Encoding -/

/-- 30_encoding.md R80: every source line of its table is read as its command, whose word is the table's and decodes
back to it; and its three illegal words. -/
def Obligations.SpecWordsDecode : Prop :=
  (∀ p ∈ ([ ("nop", .nop, 0x00000000), ("clear", .clear, 0x00000001), ("pushleaf 'a'", .pushleaf 0x61, 0x00006102),
      ("pushleaf 0xFF", .pushleaf 0xFF, 0x0000FF02), ("pqpop", .pqpop, 0x00000003), ("build", .build, 0x00000004),
      ("gencodes", .gencodes, 0x00000005), ("lookup 'a', 0", .lookup 0x61 0, 0x00006106),
      ("lookup 0x00, 7", .lookup 0x00 7, 0x00000076), ("decode 1", .decode 1, 0x00000007),
      ("decode 19", .decode 19, 0x00120007), ("decode 32", .decode 32, 0x001F0007), ("decend", .decend, 0x00000008),
      ("decrst", .decrst, 0x00000009), ("readnode 6", .readnode 6, 0x0006000A),
      ("readnode 510", .readnode 510, 0x01FE000A) ] : List (String × Instr × Word)),
    assembleLine p.1.toList = .ok (some (.command p.2.1)) ∧ encode p.2.1 = p.2.2 ∧ decode p.2.2 = .ok p.2.1) ∧
  decode 0x0000000B = .error .reservedOpcode ∧ decode 0x80000000 = .error .reservedBit ∧
  decode 0x00006186 = .error .reservedBit

/-- 30_encoding.md R71 to R74: no operand bit of any well-formed command is lost between its word and the decoder. -/
def Obligations.DecodeOfEncode : Prop :=
  ∀ i : Instr, i.wellFormed = true → decode (encode i) = .ok i

/-- 30_encoding.md R71 to R74: each word has one meaning, and only well-formed commands have words. -/
def Obligations.EncodeOfDecode : Prop :=
  ∀ (c : Word) (i : Instr), decode c = .ok i → i.wellFormed = true ∧ encode i = c

/-- 30_encoding.md R74: a word selects a row exactly when `(c AND mask) = match`; it then decodes to that row's
command, so no word selects two rows; a word that selects none is no command. The operands are those R73 forms from
the word: the symbol c[15:8], the word index c[6:4], the bit count c[20:16] + 1, the node index c[24:16]. -/
def Obligations.DecodeFollowsOpcodeMap : Prop :=
  ∀ (c : Word) (rows : List (Instr × Word × Word)),
    rows = [ (.nop, 0x00000000, 0xFFFFFFFF), (.clear, 0x00000001, 0xFFFFFFFF),
      (.pushleaf (c.extractLsb' 8 8), 0x00000002, 0xFFFF00FF), (.pqpop, 0x00000003, 0xFFFFFFFF),
      (.build, 0x00000004, 0xFFFFFFFF), (.gencodes, 0x00000005, 0xFFFFFFFF),
      (.lookup (c.extractLsb' 8 8) (c.extractLsb' 4 3), 0x00000006, 0xFFFF008F),
      (.decode ((c.extractLsb' 16 5).toNat + 1), 0x00000007, 0xFFE0FFFF), (.decend, 0x00000008, 0xFFFFFFFF),
      (.decrst, 0x00000009, 0xFFFFFFFF), (.readnode (c.extractLsb' 16 9), 0x0000000A, 0xFE00FFFF) ] →
    (∀ r ∈ rows, c &&& r.2.2 = r.2.1 ↔ decode c = .ok r.1) ∧
    ((∀ r ∈ rows, c &&& r.2.2 ≠ r.2.1) ↔ ∃ w, decode c = .error w)

/-- 30_encoding.md R76: the illegal words are those with opcode 0xB to 0xF and those of a legal opcode with a
nonzero reserved bit; an illegal word in flight records `E_ILLEGAL` at completion and changes nothing else. -/
def Obligations.IllegalWordsFault : Prop :=
  (∀ c : Word, decode c = .error .reservedOpcode ↔ 0xB ≤ (c.extractLsb' 0 4).toNat) ∧
  (∀ c : Word, decode c = .error .reservedBit ↔
    ((c.extractLsb' 0 4).toNat ∈ [0x0, 0x1, 0x3, 0x4, 0x5, 0x8, 0x9] ∧ c &&& 0xFFFFFFF0 ≠ 0) ∨
    ((c.extractLsb' 0 4).toNat = 0x2 ∧ c &&& 0xFFFF00F0 ≠ 0) ∨
    ((c.extractLsb' 0 4).toNat = 0x6 ∧ c &&& 0xFFFF0080 ≠ 0) ∨
    ((c.extractLsb' 0 4).toNat = 0x7 ∧ c &&& 0xFFE0FFF0 ≠ 0) ∨
    ((c.extractLsb' 0 4).toNat = 0xA ∧ c &&& 0xFE00FFF0 ≠ 0)) ∧
  (∀ (s : State) (w : Illegal) (rest : List Event), s.inputs = [] ∧ rest = [] ∨ s.inputs = .coreTurn :: rest →
    s.busy = true → s.errCode = .noError → decode s.cmdL = .error w →
    step s = .next { s with
      inputs := rest, busy := false, errCode := .illegal, errCmd := s.cmdL, intStat := s.intStat ||| 0b10 })

/-- 30_encoding.md R77, R79: lines of the assembler's text and what they mean; a bit count of 0 or 33, a symbol of
256 and a word index of 8 are rejected. That `do` takes a bare word is the model's choice (log 13). -/
def Obligations.AssemblerReadsSpecLines : Prop :=
  assembleLine "nop".toList = .ok (some (.command .nop)) ∧
  assembleLine "PQPOP ; comment".toList = .ok (some (.command .pqpop)) ∧
  assembleLine "pushleaf 'a'".toList = .ok (some (.command (.pushleaf 0x61))) ∧
  assembleLine "pushleaf 0xFF".toList = .ok (some (.command (.pushleaf 0xFF))) ∧
  assembleLine "lookup 'a', 0".toList = .ok (some (.command (.lookup 0x61 0))) ∧
  assembleLine "decode 19".toList = .ok (some (.command (.decode 19))) ∧
  assembleLine "readnode 510".toList = .ok (some (.command (.readnode 510))) ∧
  assembleLine "leaf 'b', 3".toList = .ok (some (.leaf 0x62 3)) ∧
  assembleLine "do build".toList = .ok (some (.doCommand .build)) ∧
  assembleLine "do 0x0000000B".toList = .ok (some (.doWord 0x0000000B)) ∧
  assembleLine "wr DATA, 0x3FD50".toList = .ok (some (.write .data 0x3FD50)) ∧
  assembleLine "decode 0".toList = .error .badOperand ∧
  assembleLine "decode 33".toList = .error .badOperand ∧
  assembleLine "pushleaf 256".toList = .error .badOperand ∧
  assembleLine "lookup 'a', 8".toList = .error .badOperand ∧
  assembleLine "; only a comment".toList = .ok none

/-! ## Issue and completion -/

/-- 40_command_model.md R91: at a turn of the core (nothing pending, or a core turn next) with a command in flight
that is not abandoned, the step is that command's meaning after `BUSY <- 0`. -/
def Obligations.StepRunsDecodedCommand : Prop :=
  ∀ (s : State) (i : Instr) (rest : List Event), s.inputs = [] ∧ rest = [] ∨ s.inputs = .coreTurn :: rest →
    s.busy = true → decode s.cmdL = .ok i → s.errCode = .noError ∨ i = .clear →
    step s = exec i { s with inputs := rest, busy := false }

/-- 40_command_model.md R90, `Offer(c)`: `E_BUSY` while a command is in flight, which goes on; discarded while
locked unless it is CLEAR's word; else issued, whatever the word. -/
def Obligations.OfferRecordsDiscardsOrIssues : Prop :=
  ∀ (s : State) (c : Word) (rest : List Event), s.inputs = .write (Config.hccBase + 0x04) 4 c :: rest →
    (s.busy = true → s.errCode = .noError → step s = .next { s with
      inputs := rest, errCode := .busy, errCmd := c, intStat := s.intStat ||| 0b10 }) ∧
    (s.busy = true → s.errCode ≠ .noError → step s = .next { s with inputs := rest }) ∧
    (s.busy = false → s.errCode ≠ .noError → c ≠ 0x00000001 → step s = .next { s with inputs := rest }) ∧
    (s.busy = false → s.errCode = .noError ∨ c = 0x00000001 → step s = .next { s with
      inputs := rest, cmdL := c, dataL := s.data, busy := true })

/-- 40_command_model.md R90, R91, 10_state.md R40: a well-formed command written to `CMD` while the HCC is idle and
unlocked runs at the core's next turn, on the `DATA` of its issue. -/
def Obligations.IssuedCommandRunsNext : Prop :=
  ∀ (s : State) (i : Instr) (rest : List Event), i.wellFormed = true →
    s.inputs = .write (Config.hccBase + 0x04) 4 (encode i) :: .coreTurn :: rest →
    s.busy = false → s.errCode = .noError →
    ∃ u, step s = .next u ∧ u.busy = true ∧
      step u = exec i { s with inputs := rest, cmdL := encode i, dataL := s.data }

/-- 40_command_model.md R92: the legality table. Where its cell says no, a command records `E_PHASE` and changes
nothing else; where it says yes, it never does. -/
def Obligations.LegalityTable : Prop :=
  ∀ (i : Instr) (s : State), s.errCode = .noError →
    (((i.op ∈ [.pushleaf, .pqpop, .build] ∧ s.phase = .built) ∨
      (i.op ∈ [.gencodes, .lookup, .decode, .decend, .decrst] ∧ s.phase = .load) ∨
      (i.op = .lookup ∧ s.ctValid = false)) →
        exec i s = .next { s with errCode := .badPhase, errCmd := s.cmdL, intStat := s.intStat ||| 0b10 }) ∧
    ((i.op ∈ [.nop, .clear, .readnode] ∨ (i.op ∈ [.pushleaf, .pqpop, .build] ∧ s.phase = .load) ∨
      (i.op ∈ [.gencodes, .decode, .decend, .decrst] ∧ s.phase = .built) ∨
      (i.op = .lookup ∧ s.phase = .built ∧ s.ctValid = true)) →
        ∀ t, exec i s = .next t → t.errCode ≠ .badPhase)

/-- 40_command_model.md R94, 60_exceptions.md R173: a command that faults changes `BUSY` and the error record and
nothing else, whichever of the eleven it is, illegal words included. -/
def Obligations.FaultsArePrecise : Prop :=
  ∀ (s t : State) (rest : List Event), s.inputs = [] ∧ rest = [] ∨ s.inputs = .coreTurn :: rest →
    s.busy = true → s.errCode = .noError → step s = .next t → t.errCode ≠ .noError →
    t = { s with
      inputs := rest, busy := false, errCode := t.errCode, errCmd := s.cmdL, intStat := s.intStat ||| 0b10 }

/-- 60_exceptions.md R179: a command that completes without fault sets `DONE` and no other pending bit; one that
faults sets `ERRP` and not `DONE`. -/
def Obligations.CompletionSetsDoneOrErrp : Prop :=
  ∀ (i : Instr) (s t : State), s.errCode = .noError → exec i s = .next t →
    (t.errCode = .noError ∧ t.intStat = s.intStat ||| 0b01) ∨
    (t.errCode ≠ .noError ∧ t.intStat = s.intStat ||| 0b10)

/-- 60_exceptions.md R172: an error is recorded only while none is; raised at completion it comes with `BUSY <- 0`
and without `DONE`; an `E_BUSY` leaves `BUSY` and the command in flight as they are. -/
def Obligations.FirstErrorIsKept : Prop :=
  (∀ (e : ErrCode) (c : Word) (s : State),
    (s.errCode = .noError → recordError e c s =
      { s with errCode := e, errCmd := c, intStat := s.intStat ||| 0b10 }) ∧
    (s.errCode ≠ .noError → recordError e c s = s)) ∧
  (∀ (s t : State) (rest : List Event), s.inputs = [] ∨ s.inputs = .coreTurn :: rest →
    s.busy = true → s.errCode = .noError → step s = .next t → t.errCode ≠ .noError →
    t.busy = false ∧ t.intStat.getLsbD 0 = s.intStat.getLsbD 0 ∧ t.intStat.getLsbD 1 = true) ∧
  (∀ (s t : State) (c : Word) (rest : List Event), s.inputs = .write (Config.hccBase + 0x04) 4 c :: rest →
    s.busy = true → step s = .next t →
    t.busy = true ∧ t.cmdL = s.cmdL ∧ t.dataL = s.dataL ∧
    (s.errCode = .noError → t.errCode = .busy ∧ t.errCmd = c) ∧ (s.errCode ≠ .noError → t.errCode = s.errCode))

/-- 60_exceptions.md R174, 40_command_model.md R91: while an error is recorded, a step that is not a reset and does
not complete a CLEAR keeps the error record, the session and the results; a command in flight that is not CLEAR is
abandoned without `DONE`. -/
def Obligations.LockKeepsSession : Prop :=
  (∀ s t : State, s.errCode ≠ .noError → (∀ rest, s.inputs ≠ .reset :: rest) →
    ¬ Completes s .clear → step s = .next t →
    t.errCode = s.errCode ∧ t.errCmd = s.errCmd ∧ t.phase = s.phase ∧ t.nodes = s.nodes ∧ t.pq = s.pq ∧
    t.symSeen = s.symSeen ∧ t.root = s.root ∧ t.ptr = s.ptr ∧ t.treeValid = s.treeValid ∧ t.single = s.single ∧
    t.ct = s.ct ∧ t.ob = s.ob ∧ t.res0 = s.res0 ∧ t.res1 = s.res1 ∧ t.res2 = s.res2) ∧
  (∀ (s : State) (rest : List Event), s.inputs = [] ∧ rest = [] ∨ s.inputs = .coreTurn :: rest →
    s.errCode ≠ .noError → s.busy = true → s.cmdL ≠ 0x00000001 →
    step s = .next { s with inputs := rest, busy := false })

/-- 10_state.md R40, 93_implementation_defined.md S3: the latch is never read while `BUSY = 0`. Two states that
differ only in the latch take the same step; a step that issues a command overwrites the latch in both. -/
def Obligations.LatchUnreadWhileIdle : Prop :=
  ∀ (s : State) (c d : Word), s.busy = false → (∀ rest, s.inputs ≠ .reset :: rest) →
    step { s with cmdL := c, dataL := d } =
      match step s with
      | .next t => .next (if t.busy then t else { t with cmdL := c, dataL := d })
      | .fault f => .fault f
      | .refused r => .refused r

/-! ## The host's register port -/

/-- 10_state.md R21 to R36, 20_memory.md R56: what every register of the map reads as while `BUSY = 0`, and that the
read changes nothing else. `STATUS` is stated bit by bit in StatusBits. -/
def Obligations.RegisterMapReads : Prop :=
  ∀ (s : State) (off : Nat) (v : Word) (rest : List Event), s.busy = false →
    s.inputs = .read (Config.hccBase + off) 4 :: rest →
    ((off, v) ∈ [ (0x00, 0x48434331), (0x04, 0), (0x08, s.data), (0x0C, s.statusWord),
      (0x10, s.errCode.code.setWidth 32), (0x14, s.errCmd), (0x18, (BitVec.ofNat 9 s.pq.length).setWidth 32),
      (0x1C, (BitVec.ofNat 9 s.nodes.length).setWidth 32), (0x20, s.root.setWidth 32), (0x24, s.ptr.setWidth 32),
      (0x28, s.res0), (0x2C, s.res1), (0x30, s.res2), (0x34, (BitVec.ofNat 6 s.ob.length).setWidth 32),
      (0x38, s.intEn.setWidth 32), (0x3C, s.intStat.setWidth 32) ] ∨
     (0x40 ≤ off ∧ off ≤ 0x7C ∧ off % 4 = 0 ∧ v = 0) ∨
     (∃ k, k < 32 ∧ off = 0x80 + 4 * k ∧ (∀ sym, s.ob[k]? = some sym → v = sym.setWidth 32) ∧
       (s.ob.length ≤ k → v = 0))) →
    step s = .next { s with inputs := rest, reply := some v }

/-- 10_state.md R24: every bit of `STATUS`, and its value at reset. -/
def Obligations.StatusBits : Prop :=
  (∀ s : State,
    s.statusWord.getLsbD 0 = s.busy ∧
    (s.statusWord.getLsbD 1 = true ↔ s.errCode ≠ .noError) ∧
    (s.statusWord.getLsbD 2 = true ↔ s.phase = .built) ∧
    s.statusWord.getLsbD 3 = s.treeValid ∧
    s.statusWord.getLsbD 4 = s.single ∧
    (s.statusWord.getLsbD 5 = true ↔ ∃ t, s.ct = some t) ∧
    (s.statusWord.getLsbD 6 = true ↔ s.ptr = s.root) ∧
    (s.statusWord.getLsbD 7 = true ↔ s.pq = []) ∧
    s.statusWord.getLsbD 8 =
      ((s.intStat.getLsbD 0 && s.intEn.getLsbD 0) || (s.intStat.getLsbD 1 && s.intEn.getLsbD 1)) ∧
    ∀ j, 9 ≤ j → s.statusWord.getLsbD j = false) ∧
  State.reset.statusWord = 0x000000C0

/-- 20_memory.md R56, R65: a read changes only what the host holds (its reply; the free values it used up), and
reading the same register again while `BUSY = 0` returns the same value. -/
def Obligations.ReadsHaveNoSideEffect : Prop :=
  ∀ (s t : State) (addr width : Nat) (rest : List Event), s.inputs = .read addr width :: rest → step s = .next t →
    t = { s with inputs := rest, reply := t.reply, freeCount := t.freeCount } ∧
    (s.busy = false → ∀ rest', rest = .read addr width :: rest' → step t = .next { t with inputs := rest' })

/-- 20_memory.md R57: what a host write does at every aligned offset of the window. -/
def Obligations.WriteTable : Prop :=
  ∀ (s : State) (off : Nat) (v : Word) (rest : List Event), off < 0x100 → off % 4 = 0 →
    s.inputs = .write (Config.hccBase + off) 4 v :: rest →
    (off = 0x04 → step s = .next (offer v { s with inputs := rest })) ∧
    (off = 0x08 → step s = .next { s with inputs := rest, data := v }) ∧
    (off = 0x38 → step s = .next { s with inputs := rest, intEn := v.extractLsb' 0 2 }) ∧
    (off = 0x3C → step s = .next { s with inputs := rest, intStat := s.intStat &&& ~~~(v.extractLsb' 0 2) }) ∧
    (off ≠ 0x04 → off ≠ 0x08 → off ≠ 0x38 → off ≠ 0x3C → step s = .next { s with inputs := rest })

/-- 20_memory.md R58: an access of another width, outside the window or misaligned is refused. Which name it is
refused by, and that the width comes before the window and the window before the alignment, is the model's (log 17). -/
def Obligations.OtherAccessesAreRefused : Prop :=
  ∀ (s : State) (addr width : Nat) (rest : List Event),
    (s.inputs = .read addr width :: rest ∨ ∃ v, s.inputs = .write addr width v :: rest) →
    (width ≠ 4 → step s = .refused .accessWidth) ∧
    (width = 4 → addr < Config.hccBase ∨ Config.hccBase + 0x100 ≤ addr → step s = .refused .accessOutsideWindow) ∧
    (width = 4 → Config.hccBase ≤ addr → addr < Config.hccBase + 0x100 → (addr - Config.hccBase) % 4 ≠ 0 →
      step s = .refused .accessMisaligned)

/-- 70_reset_and_hazards.md R207: while `BUSY = 1`, `ID`, `CMD`, `DATA`, `ERR_CODE`, `ERR_CMD`, `INT_EN`,
`INT_STAT`, the reserved offsets and `STATUS` bits 0, 1 and 8 read exactly; each other register reads some value of
its width, drawn for this read. -/
def Obligations.ReadsWhileBusy : Prop :=
  ∀ (s : State) (off : Nat) (rest : List Event), s.busy = true →
    s.inputs = .read (Config.hccBase + off) 4 :: rest →
    (∀ v : Word, ((off, v) ∈ [ (0x00, 0x48434331), (0x04, 0), (0x08, s.data),
        (0x10, s.errCode.code.setWidth 32), (0x14, s.errCmd), (0x38, s.intEn.setWidth 32),
        (0x3C, s.intStat.setWidth 32) ] ∨ (0x40 ≤ off ∧ off ≤ 0x7C ∧ off % 4 = 0 ∧ v = 0)) →
      step s = .next { s with inputs := rest, reply := some v }) ∧
    (off = 0x0C → ∃ v : Word, step s = .next { s with
        inputs := rest, reply := some v, freeCount := s.freeCount + 1 } ∧
      v.getLsbD 0 = true ∧ (v.getLsbD 1 = true ↔ s.errCode ≠ .noError) ∧ v.getLsbD 8 = s.irq ∧ v.toNat < 2 ^ 9) ∧
    (∀ bits : Nat, (off, bits) ∈ [ (0x18, 9), (0x1C, 9), (0x20, 9), (0x24, 9), (0x28, 32), (0x2C, 32), (0x30, 32),
        (0x34, 6) ] ∨ (0x80 ≤ off ∧ off < 0x100 ∧ off % 4 = 0 ∧ bits = 8) →
      ∃ v : Word, v.toNat < 2 ^ bits ∧ step s = .next { s with
        inputs := rest, reply := some v, freeCount := s.freeCount + 1 })

/-- 10_state.md R34, 60_exceptions.md R180: a pending bit is cleared only by the host's write of 1 to it in
`INT_STAT`, or by reset; an enable changes only by the host's write to `INT_EN`, or by reset. So `irq` falls only
then. -/
def Obligations.PendingClearedOnlyByHost : Prop :=
  ∀ s t : State, step s = .next t →
    (∀ b, b < 2 → s.intStat.getLsbD b = true → t.intStat.getLsbD b = false →
      (∃ v rest, s.inputs = .write (Config.hccBase + 0x3C) 4 v :: rest ∧ v.getLsbD b = true) ∨
      ∃ rest, s.inputs = .reset :: rest) ∧
    (t.intEn ≠ s.intEn →
      (∃ v rest, s.inputs = .write (Config.hccBase + 0x38) 4 v :: rest) ∨ ∃ rest, s.inputs = .reset :: rest) ∧
    (s.irq = true → t.irq = false →
      (∃ v rest, s.inputs = .write (Config.hccBase + 0x3C) 4 v :: rest ∨
        s.inputs = .write (Config.hccBase + 0x38) 4 v :: rest) ∨ ∃ rest, s.inputs = .reset :: rest)

/-- 10_state.md R23: `DATA` changes only by the host's write to it, or by reset; no command writes it, and a write
while `BUSY = 1` does not reach the command in flight. -/
def Obligations.DataWrittenOnlyByHost : Prop :=
  ∀ s t : State, step s = .next t →
    (t.data ≠ s.data → (∃ v rest, s.inputs = .write (Config.hccBase + 0x08) 4 v :: rest ∧ t.data = v) ∨
      (∃ rest, s.inputs = .reset :: rest ∧ t.data = 0)) ∧
    (∀ v rest, s.inputs = .write (Config.hccBase + 0x08) 4 v :: rest →
      t.data = v ∧ t.busy = s.busy ∧ t.cmdL = s.cmdL ∧ t.dataL = s.dataL)

/-! ## Reset and sessions -/

/-- 70_reset_and_hazards.md R201: both columns of the table, after the reset input and after CLEAR. -/
def Obligations.ResetAndClearValues : Prop :=
  (∀ (s : State) (rest : List Event), s.inputs = .reset :: rest →
    ∃ t, step s = .next t ∧ t.inputs = rest ∧ t.data = 0 ∧ t.statusWord = 0x000000C0 ∧ t.errCode = .noError ∧
      t.errCmd = 0 ∧ t.pq = [] ∧ t.nodes = [] ∧ t.root = 0x1FF ∧ t.ptr = 0x1FF ∧ t.res0 = 0 ∧ t.res1 = 0 ∧
      t.res2 = 0 ∧ t.ob = [] ∧ t.intEn = 0b00 ∧ t.intStat = 0b00 ∧ (∀ k, t.outBuf k = 0) ∧ t.phase = .load ∧
      t.treeValid = false ∧ t.single = false ∧ t.ctValid = false ∧ t.symSeen = 0 ∧ t.busy = false ∧ t.ct = none) ∧
  (∀ s : State,
    exec .clear s = .next { s with
      errCode := .noError, errCmd := 0, pq := [], nodes := [], root := 0x1FF, ptr := 0x1FF, res0 := 0, res1 := 0,
      res2 := 0, ob := [], intStat := s.intStat ||| 0b01, phase := .load, treeValid := false, single := false,
      ct := none, symSeen := 0 } ∧
    ∀ t, exec .clear s = .next t → s.busy = false →
      t.statusWord = 0x000000C0 ||| (BitVec.ofBool t.irq).setWidth 32 <<< 8)

/-- 10_state.md R37: nothing moves the phase from `BUILT` to `LOAD` but the completion of CLEAR and reset, and
nothing moves it to `BUILT` but the completion of BUILD. -/
def Obligations.PhaseChangesOnlyByBuildClearReset : Prop :=
  ∀ s t : State, step s = .next t →
    (s.phase = .built → t.phase = .load →
      Completes s .clear ∨ ∃ rest, s.inputs = .reset :: rest) ∧
    (s.phase = .load → t.phase = .built → Completes s .build)

/-- 20_memory.md R51: within a session a node-store entry is never rewritten. A step that is no reset and completes
no CLEAR leaves every allocated entry, and new entries take the next indices; only the completion
of a PUSHLEAF or a BUILD adds any. -/
def Obligations.NodesAreNeverRewritten : Prop :=
  ∀ s t : State, step s = .next t → (∀ rest, s.inputs ≠ .reset :: rest) →
    ¬ Completes s .clear →
    (∃ more, t.nodes = s.nodes ++ more) ∧
    (t.nodes ≠ s.nodes → Completes s .build ∨ ∃ sym, Completes s (.pushleaf sym))

/-! ## The commands: results, frames and completion -/

/-- 40_command_model.md R95: NOP completes in every state and changes nothing but `DONE`. -/
def Obligations.NopOnlySetsDone : Prop :=
  ∀ s : State, exec .nop s = .next { s with intStat := s.intStat ||| 0b01 }

/-- 41_queue_and_build.md R112: in phase `LOAD`, with a nonzero weight and a new symbol, PUSHLEAF appends the leaf
at the next index, adds it to the queue's set of entries, marks the symbol and returns the index; nothing else
changes. -/
def Obligations.PushleafAddsLeaf : Prop :=
  ∀ (sym : Symbol) (s : State), s.phase = .load → s.dataL ≠ 0 → s.symSeen.getLsbD sym.toNat = false →
    s.nodes.length < 511 →
    ∃ (pq : List Entry) (seenNow : BitVec 256), exec (.pushleaf sym) s = .next { s with
        nodes := s.nodes ++ [⟨true, sym, s.dataL.setWidth 40, 0x1FF, 0x1FF⟩],
        pq := pq, symSeen := seenNow, res0 := BitVec.ofNat 32 s.nodes.length,
        intStat := s.intStat ||| 0b01 } ∧
      pq.Perm (⟨s.dataL.setWidth 40, BitVec.ofNat 9 s.nodes.length⟩ :: s.pq) ∧
      ∀ k, k < 256 → seenNow.getLsbD k = (s.symSeen.getLsbD k || decide (k = sym.toNat))

/-- 41_queue_and_build.md R112: the weight is checked first, then the symbol; a fault changes only the error
record. -/
def Obligations.PushleafChecksWeightThenSymbol : Prop :=
  ∀ (sym : Symbol) (s : State), s.phase = .load → s.errCode = .noError →
    (s.dataL = 0 → exec (.pushleaf sym) s = .next { s with
      errCode := .badWeight, errCmd := s.cmdL, intStat := s.intStat ||| 0b10 }) ∧
    (s.dataL ≠ 0 → s.symSeen.getLsbD sym.toNat = true → exec (.pushleaf sym) s = .next { s with
      errCode := .dupSym, errCmd := s.cmdL, intStat := s.intStat ||| 0b10 })

/-- 41_queue_and_build.md R111, R114: PQPOP removes the entry least by weight and then by tag, and returns its
index, its weight and its node's leaf bit and symbol; nothing else changes. -/
def Obligations.PqpopReturnsLeast : Prop :=
  ∀ s : State, Invariant s → s.phase = .load → s.pq ≠ [] →
    ∃ (e : Entry) (n : Node) (rest : List Entry) (r0 r1 r2 : Word),
      e ∈ s.pq ∧ (∀ x ∈ s.pq, x ≠ e → e.w.toNat < x.w.toNat ∨ (e.w = x.w ∧ e.i.toNat < x.i.toNat)) ∧
      nodeAt s.nodes e.i = some n ∧ s.pq.Perm (e :: rest) ∧
      exec .pqpop s = .next { s with
        pq := rest, res0 := r0, res1 := r1, res2 := r2, intStat := s.intStat ||| 0b01 } ∧
      r0.toNat = e.i.toNat ∧ r1.toNat = e.w.toNat % 2 ^ 32 ∧
      r2.toNat = n.leaf.toNat * 2 ^ 16 + n.sym.toNat * 2 ^ 8 + e.w.toNat / 2 ^ 32

/-- 41_queue_and_build.md R114: PQPOP on an empty queue records `E_EMPTY_POP` and changes nothing else. -/
def Obligations.PqpopOnEmptyQueueFaults : Prop :=
  ∀ s : State, s.phase = .load → s.errCode = .noError → s.pq = [] →
    exec .pqpop s = .next { s with errCode := .emptyPop, errCmd := s.cmdL, intStat := s.intStat ||| 0b10 }

/-- 41_queue_and_build.md R111, R116 to R118: BUILD on a non-empty queue completes; its node store and root are
those of merging the SET of entries, least two first, to one; it empties the queue, resets the walker to the root
and returns the root and its weight; nothing else changes. -/
def Obligations.BuildMergesTheLeastTwo : Prop :=
  ∀ s : State, Invariant s → s.phase = .load → s.pq ≠ [] →
    ∃ (nodes : List Node) (e : Entry) (n : Node) (r0 r1 r2 : Word),
      Merges s.nodes s.pq.toFinset nodes e ∧ nodeAt nodes e.i = some n ∧
      nodes.length + 1 = s.nodes.length + s.pq.length ∧
      exec .build s = .next { s with
        nodes := nodes, pq := [], root := e.i, ptr := e.i, treeValid := true, single := n.leaf, ob := [],
        phase := .built, res0 := r0, res1 := r1, res2 := r2, intStat := s.intStat ||| 0b01 } ∧
      r0.toNat = e.i.toNat ∧ r1.toNat = e.w.toNat % 2 ^ 32 ∧ r2.toNat = e.w.toNat / 2 ^ 32

/-- 60_exceptions.md R171: empty input is not an error. BUILD with an empty queue completes with the no-tree
sentinel, GENCODES then completes with an empty table, and DECEND completes. -/
def Obligations.EmptyInputIsNoError : Prop :=
  ∀ s : State, s.phase = .load → s.pq = [] →
    ∃ t u, exec .build s = .next t ∧
      t = { s with
        root := 0x1FF, ptr := 0x1FF, treeValid := false, single := false, ob := [], phase := .built,
        res0 := 0x1FF, res1 := 0, res2 := 0, intStat := s.intStat ||| 0b01 } ∧
      exec .gencodes t = .next u ∧ u.errCode = s.errCode ∧ u.res0 = 0 ∧ u.res1 = 0 ∧ u.res2 = 0 ∧
      (∃ tab, u.ct = some tab ∧ ∀ sym, tableAt tab sym = ⟨0, 0⟩) ∧
      exec .decend t = .next { t with intStat := t.intStat ||| 0b01 }

/-- 42_codegen.md R130: with a tree of more than one leaf, GENCODES completes and gives each symbol of a leaf below
the root exactly its path, of length 1 to 255, and every other symbol no code; it changes nothing else but the
result registers. -/
def Obligations.GencodesGivesPaths : Prop :=
  ∀ s : State, Invariant s → s.phase = .built → s.treeValid = true → s.single = false →
    ∃ (tab : CodeTable) (r0 r1 r2 : Word),
      exec .gencodes s = .next { s with
        ct := some tab, res0 := r0, res1 := r1, res2 := r2, intStat := s.intStat ||| 0b01 } ∧
      ∀ sym, (∀ p, HasCode s.nodes s.root sym p →
          (tableAt tab sym).spells p ∧ 1 ≤ p.length ∧ p.length ≤ 255) ∧
        ((∀ p, ¬ HasCode s.nodes s.root sym p) → tableAt tab sym = ⟨0, 0⟩)

/-- 42_codegen.md R131: in single mode GENCODES completes and gives the root's symbol the code "0" and no other
symbol a code; with no tree no symbol has a code. -/
def Obligations.GencodesSpecialCases : Prop :=
  ∀ s : State, Invariant s → s.phase = .built →
    (s.single = true → ∃ (n : Node) (tab : CodeTable) (r1 r2 : Word), nodeAt s.nodes s.root = some n ∧
      exec .gencodes s = .next { s with
        ct := some tab, res0 := 1, res1 := r1, res2 := r2, intStat := s.intStat ||| 0b01 } ∧
      r1.toNat + 2 ^ 32 * r2.toNat = n.w.toNat ∧
      (tableAt tab n.sym).code = [false] ∧ (tableAt tab n.sym).bits = 0 ∧
      ∀ sym, sym ≠ n.sym → tableAt tab sym = ⟨0, 0⟩) ∧
    (s.treeValid = false → ∃ tab : CodeTable,
      exec .gencodes s = .next { s with
        ct := some tab, res0 := 0, res1 := 0, res2 := 0, intStat := s.intStat ||| 0b01 } ∧
      ∀ sym, tableAt tab sym = ⟨0, 0⟩)

/-- 42_codegen.md R132, R135: whatever the tree, GENCODES completes; `RES0` is the number of symbols with a code,
and `RES2`, `RES1` hold `T = Σ w · len` over the leaves, which is below 2^48. -/
def Obligations.GencodesTotals : Prop :=
  ∀ s : State, Invariant s → s.phase = .built →
    ∃ (t : State) (tab : CodeTable), exec .gencodes s = .next t ∧ t.ct = some tab ∧
      t.res0.toNat =
        ((List.range 256).filter fun k => (tableAt tab (BitVec.ofNat 8 k)).len != 0).length ∧
      t.res1.toNat + 2 ^ 32 * t.res2.toNat =
        weightedLength s.nodes (fun sym => (tableAt tab sym).len.toNat) ∧
      weightedLength s.nodes (fun sym => (tableAt tab sym).len.toNat) < 2 ^ 48

/-- 42_codegen.md R139: once the table is generated, GENCODES again writes the same table, and its results are a
function of the session's tree alone. -/
def Obligations.GencodesIsRepeatable : Prop :=
  ∀ s t u : State, Invariant s → s.phase = .built → exec .gencodes s = .next t → exec .gencodes t = .next u →
    u.ct = t.ct ∧ u.res0 = t.res0 ∧ u.res1 = t.res1 ∧ u.res2 = t.res2 ∧
    (∀ tab, s.ct = some tab → t.ct = some tab)

/-- 42_codegen.md R134: no code in a generated table is a prefix of another symbol's. -/
def Obligations.CodesArePrefixFree : Prop :=
  ∀ (s : State) (tab : CodeTable), Invariant s → s.ct = some tab → ∀ a b : Symbol, a ≠ b →
    (tableAt tab a).len ≠ 0 → (tableAt tab b).len ≠ 0 →
    ¬ List.IsPrefix (tableAt tab a).code (tableAt tab b).code

/-- 42_codegen.md R136, 20_memory.md R61: LOOKUP of a symbol with a code returns its length and the 32 code bits of
word `k`, bit `j` being code bit `32k + j`; nothing else changes. -/
def Obligations.LookupReturnsCodeWord : Prop :=
  ∀ (sym : Symbol) (k : BitVec 3) (s : State) (tab : CodeTable), s.phase = .built → s.ct = some tab →
    (tableAt tab sym).len ≠ 0 →
    ∃ r1 : Word, exec (.lookup sym k) s = .next { s with
        res0 := (tableAt tab sym).len.setWidth 32, res1 := r1, intStat := s.intStat ||| 0b01 } ∧
      ∀ j, j < 32 → r1.getLsbD j = (tableAt tab sym).bits.getLsbD (32 * k.toNat + j)

/-- 42_codegen.md R137: LOOKUP of a symbol with no leaf in the tree records `E_CODE_MISS` and changes nothing
else. -/
def Obligations.LookupOfMissingCodeFaults : Prop :=
  ∀ (sym : Symbol) (k : BitVec 3) (s : State), Invariant s → s.phase = .built → s.errCode = .noError →
    s.ctValid = true → (s.treeValid = true → ∀ p, ¬ HasCode s.nodes s.root sym p) →
    exec (.lookup sym k) s = .next { s with
      errCode := .codeMiss, errCmd := s.cmdL, intStat := s.intStat ||| 0b10 }

/-- 43_decode.md R147, R152: in a tree of more than one leaf, DECODE of any chunk completes: the pending path and
then the chunk's bits are the codes of the symbols output, in order, and then the path to where the walker stops, an
internal node or the root; at most one symbol a bit; nothing else changes. -/
def Obligations.DecodeConsumesCodes : Prop :=
  ∀ (n : Nat) (s : State) (p : List Bool), Invariant s → s.phase = .built → s.treeValid = true → s.single = false →
    NodePath s.nodes s.root p s.ptr →
    ∃ (y : NodeIdx) (m : Node) (syms : List Symbol) (codes : List (List Bool)) (q : List Bool),
      exec (.decode n) s = .next { s with
        ptr := y, ob := syms, res0 := BitVec.ofNat 32 syms.length, intStat := s.intStat ||| 0b01 } ∧
      List.Forall₂ (HasCode s.nodes s.root) syms codes ∧
      p ++ (List.range n).map (fun j => s.dataL.getLsbD j) = codes.flatten ++ q ∧
      NodePath s.nodes s.root q y ∧ nodeAt s.nodes y = some m ∧ m.leaf = false ∧ syms.length ≤ n

/-- 43_decode.md R150: in single mode every bit, whatever its value, emits the root's symbol, and the walker stays
at the root. -/
def Obligations.DecodeInSingleMode : Prop :=
  ∀ (n : Nat) (s : State), Invariant s → s.phase = .built → s.single = true →
    ∃ r, nodeAt s.nodes s.root = some r ∧ s.ptr = s.root ∧ exec (.decode n) s = .next { s with
      ob := List.replicate n r.sym, res0 := BitVec.ofNat 32 n, intStat := s.intStat ||| 0b01 }

/-- 43_decode.md R149: with no tree DECODE of any chunk records `E_MALFORMED`, and DECEND completes. -/
def Obligations.DecodeWithNoTreeFaults : Prop :=
  ∀ (n : Nat) (s : State), s.phase = .built → s.treeValid = false → s.errCode = .noError →
    exec (.decode n) s = .next { s with
      errCode := .malformed, errCmd := s.cmdL, intStat := s.intStat ||| 0b10 } ∧
    exec .decend s = .next { s with intStat := s.intStat ||| 0b01 }

/-- 43_decode.md R151: DECEND records `E_MIDCODE` exactly when a tree of more than one leaf has its walker off the
root; else it completes and changes nothing. -/
def Obligations.DecendChecksCodeBoundary : Prop :=
  ∀ s : State, s.phase = .built →
    (s.treeValid = true → s.single = false → s.ptr ≠ s.root → s.errCode = .noError →
      exec .decend s = .next { s with
        errCode := .midCode, errCmd := s.cmdL, intStat := s.intStat ||| 0b10 }) ∧
    (s.treeValid = false ∨ s.single = true ∨ s.ptr = s.root →
      exec .decend s = .next { s with intStat := s.intStat ||| 0b01 })

/-- 43_decode.md R153: DECRST completes in phase `BUILT`, puts the walker at the root, empties the output buffer, so
every `OUTBUF[k]` reads 0, and changes nothing else. -/
def Obligations.DecrstRestartsStream : Prop :=
  ∀ s : State, s.phase = .built →
    exec .decrst s = .next { s with ptr := s.root, ob := [], intStat := s.intStat ||| 0b01 } ∧
    ∀ t, exec .decrst s = .next t → t.statusWord.getLsbD 6 = true ∧ ∀ k, t.outBuf k = 0

/-- 44_inspect.md R165: READNODE of an allocated entry returns its children, weight, leaf bit and symbol in any
phase, and changes nothing else. -/
def Obligations.ReadnodeReturnsEntry : Prop :=
  ∀ (idx : NodeIdx) (s : State) (n : Node), s.nodes[idx.toNat]? = some n →
    ∃ r0 r1 r2 : Word, exec (.readnode idx) s = .next { s with
        res0 := r0, res1 := r1, res2 := r2, intStat := s.intStat ||| 0b01 } ∧
      r0.toNat = n.right.toNat * 2 ^ 16 + n.left.toNat ∧ r1.toNat = n.w.toNat % 2 ^ 32 ∧
      r2.toNat = n.leaf.toNat * 2 ^ 16 + n.sym.toNat * 2 ^ 8 + n.w.toNat / 2 ^ 32

/-- 44_inspect.md R165: READNODE of an index that is not below `NODE_COUNT`, NIL always among them, records
`E_BAD_INDEX` and changes nothing else. -/
def Obligations.ReadnodeBadIndexFaults : Prop :=
  ∀ (idx : NodeIdx) (s : State), s.errCode = .noError →
    s.nodes.length ≤ idx.toNat ∨ (idx = 0x1FF ∧ Invariant s) →
    exec (.readnode idx) s = .next { s with
      errCode := .badIndex, errCmd := s.cmdL, intStat := s.intStat ||| 0b10 }

/-! ## Whole-machine claims -/

/-- 10_state.md R45 and the rules named in `Invariant`: the reset state satisfies the invariant. -/
def Obligations.ResetSatisfiesInvariant : Prop := Invariant State.reset

/-- 10_state.md R45: every step that answers a next state keeps the invariant, whatever the host does. -/
def Obligations.StepKeepsInvariant : Prop :=
  ∀ s t : State, Invariant s → step s = .next t → Invariant t

/-- 20_memory.md R51, 00_scope.md R11, 40_command_model.md R97: from a state of the invariant no step fails. It
answers a next state, or refuses a host access, and only one that R58 gives no meaning. -/
def Obligations.InvariantStatesNeverFail : Prop :=
  ∀ s : State, Invariant s →
    (∃ t, step s = .next t) ∨
    (∃ r addr width rest, step s = .refused r ∧
      (s.inputs = .read addr width :: rest ∨ ∃ v, s.inputs = .write addr width v :: rest) ∧
      (width ≠ 4 ∨ addr < Config.hccBase ∨ Config.hccBase + 0x100 ≤ addr ∨ (addr - Config.hccBase) % 4 ≠ 0))

/-- 60_exceptions.md R170, R175: the numeric error codes; and each error a command raises has the cause the table
gives. `E_CODE_MISS` comes only for a symbol whose entry in the table has `len = 0`, so for one with no leaf below the
root; `E_PHASE` only in a cell of 40_command_model.md R92 that says no; `E_MALFORMED` only with no tree; no command
raises `E_ILLEGAL` or `E_BUSY`. -/
def Obligations.ErrorsHaveTheirCauses : Prop :=
  (∀ e v, (e, v) ∈ [ (ErrCode.noError, (0x0 : BitVec 4)), (.emptyPop, 0x1), (.codeMiss, 0x2), (.malformed, 0x3),
      (.midCode, 0x4), (.badPhase, 0x5), (.dupSym, 0x6), (.badWeight, 0x7), (.badIndex, 0x8), (.illegal, 0x9),
      (.busy, 0xA) ] ↔ e.code = v) ∧
  ∀ (i : Instr) (s t : State), Invariant s → s.errCode = .noError → exec i s = .next t →
    (t.errCode = .emptyPop → i = .pqpop ∧ s.pq = []) ∧
    (t.errCode = .codeMiss → ∃ sym k tab, i = .lookup sym k ∧ s.ct = some tab ∧ (tableAt tab sym).len = 0 ∧
      (s.treeValid = true → ∀ p, ¬ HasCode s.nodes s.root sym p)) ∧
    (t.errCode = .malformed → (∃ n, i = .decode n) ∧ s.treeValid = false) ∧
    (t.errCode = .midCode → i = .decend ∧ s.ptr ≠ s.root) ∧
    (t.errCode = .badPhase → (i.op ∈ [.pushleaf, .pqpop, .build] ∧ s.phase = .built) ∨
      (i.op ∈ [.gencodes, .lookup, .decode, .decend, .decrst] ∧ s.phase = .load) ∨
      (i.op = .lookup ∧ s.ctValid = false)) ∧
    (t.errCode = .dupSym → ∃ sym, i = .pushleaf sym ∧ ∃ n ∈ s.nodes, n.leaf = true ∧ n.sym = sym) ∧
    (t.errCode = .badWeight → (∃ sym, i = .pushleaf sym) ∧ s.dataL = 0) ∧
    (t.errCode = .badIndex → ∃ idx, i = .readnode idx ∧ s.nodes.length ≤ idx.toNat) ∧
    t.errCode ≠ .illegal ∧ t.errCode ≠ .busy

/-- 00_scope.md R10 to R12: at most 256 leaves, 511 nodes and 256 queue entries, and no weight above
256 · (2^32 - 1), so no 40-bit sum wraps. -/
def Obligations.StoresNeverOverflow : Prop :=
  ∀ s : State, Invariant s →
    (s.nodes.filter fun n => n.leaf).length ≤ 256 ∧ s.nodes.length ≤ 511 ∧ s.pq.length ≤ 256 ∧
    ∀ n ∈ s.nodes, n.w.toNat ≤ 256 * (2 ^ 32 - 1)

/-- 43_decode.md R155: for any sequence of symbols that all have codes in the generated table, decoding the
concatenation of their codes from the root, however it is cut into chunks of 1 to 32 bits, returns the sequence, and
DECEND then completes. -/
def Obligations.StreamRoundTrip : Prop :=
  ∀ (s : State) (tab : CodeTable) (syms : List Symbol) (chunks : List (Nat × Word)), Invariant s →
    s.errCode = .noError → s.ct = some tab → s.ptr = s.root → (∀ sym ∈ syms, (tableAt tab sym).len ≠ 0) →
    (∀ c ∈ chunks, 1 ≤ c.1 ∧ c.1 ≤ 32) →
    chunks.flatMap (fun c => (List.range c.1).map fun j => c.2.getLsbD j) =
      syms.flatMap (fun sym => (tableAt tab sym).code) →
    ∃ t, decodeStream chunks s = some (syms, t) ∧ exec .decend t = .next { t with intStat := t.intStat ||| 0b01 }

/-- 30_encoding.md R79, 40_command_model.md R97: `wait` ends. However many polls see `BUSY = 1` before the core's
turn, after it the HCC is idle and the last poll has read `BUSY = 0`. -/
def Obligations.WaitEndsIdle : Prop :=
  ∀ (s : State) (polls : Nat) (rest : List Event), Invariant s → s.inputs = expandWait polls ++ rest →
    ∃ t v, Sys2Proof.core.run (polls + 2) s = .next t ∧ t.inputs = rest ∧ t.busy = false ∧
      t.reply = some v ∧ v.getLsbD 0 = false

/-- 41_queue_and_build.md R120, 42_codegen.md R135: optimality. The table GENCODES makes of the tree BUILD makes has
a total `Σ w · len` no greater than that of any prefix-free assignment of non-empty bit sequences to the queued
leaves' symbols. -/
def Obligations.BuiltCodeIsOptimal : Prop :=
  ∀ (s t u : State) (tab : CodeTable) (code : Symbol → List Bool), Invariant s → s.phase = .load →
    exec .build s = .next t → exec .gencodes t = .next u → u.ct = some tab →
    (∀ a, code a ≠ []) →
    (∀ e ∈ s.pq, ∀ e' ∈ s.pq, ∀ n m, nodeAt s.nodes e.i = some n → nodeAt s.nodes e'.i = some m →
      n.sym ≠ m.sym → ¬ List.IsPrefix (code n.sym) (code m.sym)) →
    weightedLength u.nodes (fun sym => (tableAt tab sym).len.toNat) ≤
      (s.pq.map fun e => e.w.toNat * (((nodeAt s.nodes e.i).map fun n => (code n.sym).length).getD 0)).sum
end

