-- ==== Sys2Proof/Laws/State.lean ====
section
/-! SUPPORT. One lemma per field for each update of the state that the step makes, so that no proof unfolds a record
update; and the fields RecordError keeps. -/

namespace Sys2Proof.Machine

@[simp] theorem State.setDone_data (s : State) : s.setDone.data = s.data := rfl
@[simp] theorem State.setDone_errCode (s : State) : s.setDone.errCode = s.errCode := rfl
@[simp] theorem State.setDone_errCmd (s : State) : s.setDone.errCmd = s.errCmd := rfl
@[simp] theorem State.setDone_root (s : State) : s.setDone.root = s.root := rfl
@[simp] theorem State.setDone_ptr (s : State) : s.setDone.ptr = s.ptr := rfl
@[simp] theorem State.setDone_res0 (s : State) : s.setDone.res0 = s.res0 := rfl
@[simp] theorem State.setDone_res1 (s : State) : s.setDone.res1 = s.res1 := rfl
@[simp] theorem State.setDone_res2 (s : State) : s.setDone.res2 = s.res2 := rfl
@[simp] theorem State.setDone_intEn (s : State) : s.setDone.intEn = s.intEn := rfl
@[simp] theorem State.setDone_intStat (s : State) : s.setDone.intStat = s.intStat ||| 0b01 := rfl
@[simp] theorem State.setDone_phase (s : State) : s.setDone.phase = s.phase := rfl
@[simp] theorem State.setDone_treeValid (s : State) : s.setDone.treeValid = s.treeValid := rfl
@[simp] theorem State.setDone_single (s : State) : s.setDone.single = s.single := rfl
@[simp] theorem State.setDone_symSeen (s : State) : s.setDone.symSeen = s.symSeen := rfl
@[simp] theorem State.setDone_busy (s : State) : s.setDone.busy = s.busy := rfl
@[simp] theorem State.setDone_cmdL (s : State) : s.setDone.cmdL = s.cmdL := rfl
@[simp] theorem State.setDone_dataL (s : State) : s.setDone.dataL = s.dataL := rfl
@[simp] theorem State.setDone_nodes (s : State) : s.setDone.nodes = s.nodes := rfl
@[simp] theorem State.setDone_pq (s : State) : s.setDone.pq = s.pq := rfl
@[simp] theorem State.setDone_ct (s : State) : s.setDone.ct = s.ct := rfl
@[simp] theorem State.setDone_ob (s : State) : s.setDone.ob = s.ob := rfl
@[simp] theorem State.setDone_inputs (s : State) : s.setDone.inputs = s.inputs := rfl
@[simp] theorem State.setDone_reply (s : State) : s.setDone.reply = s.reply := rfl
@[simp] theorem State.setDone_freeCount (s : State) : s.setDone.freeCount = s.freeCount := rfl

@[simp] theorem State.setIdle_data (s : State) : s.setIdle.data = s.data := rfl
@[simp] theorem State.setIdle_errCode (s : State) : s.setIdle.errCode = s.errCode := rfl
@[simp] theorem State.setIdle_errCmd (s : State) : s.setIdle.errCmd = s.errCmd := rfl
@[simp] theorem State.setIdle_root (s : State) : s.setIdle.root = s.root := rfl
@[simp] theorem State.setIdle_ptr (s : State) : s.setIdle.ptr = s.ptr := rfl
@[simp] theorem State.setIdle_res0 (s : State) : s.setIdle.res0 = s.res0 := rfl
@[simp] theorem State.setIdle_res1 (s : State) : s.setIdle.res1 = s.res1 := rfl
@[simp] theorem State.setIdle_res2 (s : State) : s.setIdle.res2 = s.res2 := rfl
@[simp] theorem State.setIdle_intEn (s : State) : s.setIdle.intEn = s.intEn := rfl
@[simp] theorem State.setIdle_intStat (s : State) : s.setIdle.intStat = s.intStat := rfl
@[simp] theorem State.setIdle_phase (s : State) : s.setIdle.phase = s.phase := rfl
@[simp] theorem State.setIdle_treeValid (s : State) : s.setIdle.treeValid = s.treeValid := rfl
@[simp] theorem State.setIdle_single (s : State) : s.setIdle.single = s.single := rfl
@[simp] theorem State.setIdle_symSeen (s : State) : s.setIdle.symSeen = s.symSeen := rfl
@[simp] theorem State.setIdle_busy (s : State) : s.setIdle.busy = false := rfl
@[simp] theorem State.setIdle_cmdL (s : State) : s.setIdle.cmdL = s.cmdL := rfl
@[simp] theorem State.setIdle_dataL (s : State) : s.setIdle.dataL = s.dataL := rfl
@[simp] theorem State.setIdle_nodes (s : State) : s.setIdle.nodes = s.nodes := rfl
@[simp] theorem State.setIdle_pq (s : State) : s.setIdle.pq = s.pq := rfl
@[simp] theorem State.setIdle_ct (s : State) : s.setIdle.ct = s.ct := rfl
@[simp] theorem State.setIdle_ob (s : State) : s.setIdle.ob = s.ob := rfl
@[simp] theorem State.setIdle_inputs (s : State) : s.setIdle.inputs = s.inputs := rfl
@[simp] theorem State.setIdle_reply (s : State) : s.setIdle.reply = s.reply := rfl
@[simp] theorem State.setIdle_freeCount (s : State) : s.setIdle.freeCount = s.freeCount := rfl

@[simp] theorem State.latch_data (s : State) (c : Word) : (s.latch c).data = s.data := rfl
@[simp] theorem State.latch_errCode (s : State) (c : Word) : (s.latch c).errCode = s.errCode := rfl
@[simp] theorem State.latch_errCmd (s : State) (c : Word) : (s.latch c).errCmd = s.errCmd := rfl
@[simp] theorem State.latch_root (s : State) (c : Word) : (s.latch c).root = s.root := rfl
@[simp] theorem State.latch_ptr (s : State) (c : Word) : (s.latch c).ptr = s.ptr := rfl
@[simp] theorem State.latch_res0 (s : State) (c : Word) : (s.latch c).res0 = s.res0 := rfl
@[simp] theorem State.latch_res1 (s : State) (c : Word) : (s.latch c).res1 = s.res1 := rfl
@[simp] theorem State.latch_res2 (s : State) (c : Word) : (s.latch c).res2 = s.res2 := rfl
@[simp] theorem State.latch_intEn (s : State) (c : Word) : (s.latch c).intEn = s.intEn := rfl
@[simp] theorem State.latch_intStat (s : State) (c : Word) : (s.latch c).intStat = s.intStat := rfl
@[simp] theorem State.latch_phase (s : State) (c : Word) : (s.latch c).phase = s.phase := rfl
@[simp] theorem State.latch_treeValid (s : State) (c : Word) : (s.latch c).treeValid = s.treeValid := rfl
@[simp] theorem State.latch_single (s : State) (c : Word) : (s.latch c).single = s.single := rfl
@[simp] theorem State.latch_symSeen (s : State) (c : Word) : (s.latch c).symSeen = s.symSeen := rfl
@[simp] theorem State.latch_busy (s : State) (c : Word) : (s.latch c).busy = true := rfl
@[simp] theorem State.latch_cmdL (s : State) (c : Word) : (s.latch c).cmdL = c := rfl
@[simp] theorem State.latch_dataL (s : State) (c : Word) : (s.latch c).dataL = s.data := rfl
@[simp] theorem State.latch_nodes (s : State) (c : Word) : (s.latch c).nodes = s.nodes := rfl
@[simp] theorem State.latch_pq (s : State) (c : Word) : (s.latch c).pq = s.pq := rfl
@[simp] theorem State.latch_ct (s : State) (c : Word) : (s.latch c).ct = s.ct := rfl
@[simp] theorem State.latch_ob (s : State) (c : Word) : (s.latch c).ob = s.ob := rfl
@[simp] theorem State.latch_inputs (s : State) (c : Word) : (s.latch c).inputs = s.inputs := rfl
@[simp] theorem State.latch_reply (s : State) (c : Word) : (s.latch c).reply = s.reply := rfl
@[simp] theorem State.latch_freeCount (s : State) (c : Word) : (s.latch c).freeCount = s.freeCount := rfl

@[simp] theorem State.setInputs_data (s : State) (l : List Event) : (s.setInputs l).data = s.data := rfl
@[simp] theorem State.setInputs_errCode (s : State) (l : List Event) : (s.setInputs l).errCode = s.errCode := rfl
@[simp] theorem State.setInputs_errCmd (s : State) (l : List Event) : (s.setInputs l).errCmd = s.errCmd := rfl
@[simp] theorem State.setInputs_root (s : State) (l : List Event) : (s.setInputs l).root = s.root := rfl
@[simp] theorem State.setInputs_ptr (s : State) (l : List Event) : (s.setInputs l).ptr = s.ptr := rfl
@[simp] theorem State.setInputs_res0 (s : State) (l : List Event) : (s.setInputs l).res0 = s.res0 := rfl
@[simp] theorem State.setInputs_res1 (s : State) (l : List Event) : (s.setInputs l).res1 = s.res1 := rfl
@[simp] theorem State.setInputs_res2 (s : State) (l : List Event) : (s.setInputs l).res2 = s.res2 := rfl
@[simp] theorem State.setInputs_intEn (s : State) (l : List Event) : (s.setInputs l).intEn = s.intEn := rfl
@[simp] theorem State.setInputs_intStat (s : State) (l : List Event) : (s.setInputs l).intStat = s.intStat := rfl
@[simp] theorem State.setInputs_phase (s : State) (l : List Event) : (s.setInputs l).phase = s.phase := rfl
@[simp] theorem State.setInputs_treeValid (s : State) (l : List Event) : (s.setInputs l).treeValid = s.treeValid := rfl
@[simp] theorem State.setInputs_single (s : State) (l : List Event) : (s.setInputs l).single = s.single := rfl
@[simp] theorem State.setInputs_symSeen (s : State) (l : List Event) : (s.setInputs l).symSeen = s.symSeen := rfl
@[simp] theorem State.setInputs_busy (s : State) (l : List Event) : (s.setInputs l).busy = s.busy := rfl
@[simp] theorem State.setInputs_cmdL (s : State) (l : List Event) : (s.setInputs l).cmdL = s.cmdL := rfl
@[simp] theorem State.setInputs_dataL (s : State) (l : List Event) : (s.setInputs l).dataL = s.dataL := rfl
@[simp] theorem State.setInputs_nodes (s : State) (l : List Event) : (s.setInputs l).nodes = s.nodes := rfl
@[simp] theorem State.setInputs_pq (s : State) (l : List Event) : (s.setInputs l).pq = s.pq := rfl
@[simp] theorem State.setInputs_ct (s : State) (l : List Event) : (s.setInputs l).ct = s.ct := rfl
@[simp] theorem State.setInputs_ob (s : State) (l : List Event) : (s.setInputs l).ob = s.ob := rfl
@[simp] theorem State.setInputs_inputs (s : State) (l : List Event) : (s.setInputs l).inputs = l := rfl
@[simp] theorem State.setInputs_reply (s : State) (l : List Event) : (s.setInputs l).reply = s.reply := rfl
@[simp] theorem State.setInputs_freeCount (s : State) (l : List Event) : (s.setInputs l).freeCount = s.freeCount := rfl

@[simp] theorem State.setDone_ctValid (s : State) : s.setDone.ctValid = s.ctValid := rfl
@[simp] theorem State.setIdle_ctValid (s : State) : s.setIdle.ctValid = s.ctValid := rfl
@[simp] theorem State.latch_ctValid (s : State) (c : Word) : (s.latch c).ctValid = s.ctValid := rfl
@[simp] theorem State.setInputs_ctValid (s : State) (l : List Event) : (s.setInputs l).ctValid = s.ctValid := rfl
@[simp] theorem State.setDone_locked (s : State) : s.setDone.locked = s.locked := rfl
@[simp] theorem State.setIdle_locked (s : State) : s.setIdle.locked = s.locked := rfl
@[simp] theorem State.latch_locked (s : State) (c : Word) : (s.latch c).locked = s.locked := rfl
@[simp] theorem State.setInputs_locked (s : State) (l : List Event) : (s.setInputs l).locked = s.locked := rfl
@[simp] theorem State.setDone_pqSize (s : State) : s.setDone.pqSize = s.pqSize := rfl
@[simp] theorem State.setIdle_pqSize (s : State) : s.setIdle.pqSize = s.pqSize := rfl
@[simp] theorem State.latch_pqSize (s : State) (c : Word) : (s.latch c).pqSize = s.pqSize := rfl
@[simp] theorem State.setInputs_pqSize (s : State) (l : List Event) : (s.setInputs l).pqSize = s.pqSize := rfl
@[simp] theorem State.setDone_nodeCount (s : State) : s.setDone.nodeCount = s.nodeCount := rfl
@[simp] theorem State.setIdle_nodeCount (s : State) : s.setIdle.nodeCount = s.nodeCount := rfl
@[simp] theorem State.latch_nodeCount (s : State) (c : Word) : (s.latch c).nodeCount = s.nodeCount := rfl
@[simp] theorem State.setInputs_nodeCount (s : State) (l : List Event) : (s.setInputs l).nodeCount = s.nodeCount := rfl
@[simp] theorem State.setDone_outCount (s : State) : s.setDone.outCount = s.outCount := rfl
@[simp] theorem State.setIdle_outCount (s : State) : s.setIdle.outCount = s.outCount := rfl
@[simp] theorem State.latch_outCount (s : State) (c : Word) : (s.latch c).outCount = s.outCount := rfl
@[simp] theorem State.setInputs_outCount (s : State) (l : List Event) : (s.setInputs l).outCount = s.outCount := rfl
@[simp] theorem State.setDone_atRoot (s : State) : s.setDone.atRoot = s.atRoot := rfl
@[simp] theorem State.setIdle_atRoot (s : State) : s.setIdle.atRoot = s.atRoot := rfl
@[simp] theorem State.latch_atRoot (s : State) (c : Word) : (s.latch c).atRoot = s.atRoot := rfl
@[simp] theorem State.setInputs_atRoot (s : State) (l : List Event) : (s.setInputs l).atRoot = s.atRoot := rfl
@[simp] theorem State.setDone_pqEmpty (s : State) : s.setDone.pqEmpty = s.pqEmpty := rfl
@[simp] theorem State.setIdle_pqEmpty (s : State) : s.setIdle.pqEmpty = s.pqEmpty := rfl
@[simp] theorem State.latch_pqEmpty (s : State) (c : Word) : (s.latch c).pqEmpty = s.pqEmpty := rfl
@[simp] theorem State.setInputs_pqEmpty (s : State) (l : List Event) : (s.setInputs l).pqEmpty = s.pqEmpty := rfl

@[simp] theorem recordError_data (e : ErrCode) (c : Word) (s : State) : (recordError e c s).data = s.data := by
  unfold recordError; split <;> rfl
@[simp] theorem recordError_root (e : ErrCode) (c : Word) (s : State) : (recordError e c s).root = s.root := by
  unfold recordError; split <;> rfl
@[simp] theorem recordError_ptr (e : ErrCode) (c : Word) (s : State) : (recordError e c s).ptr = s.ptr := by
  unfold recordError; split <;> rfl
@[simp] theorem recordError_res0 (e : ErrCode) (c : Word) (s : State) : (recordError e c s).res0 = s.res0 := by
  unfold recordError; split <;> rfl
@[simp] theorem recordError_res1 (e : ErrCode) (c : Word) (s : State) : (recordError e c s).res1 = s.res1 := by
  unfold recordError; split <;> rfl
@[simp] theorem recordError_res2 (e : ErrCode) (c : Word) (s : State) : (recordError e c s).res2 = s.res2 := by
  unfold recordError; split <;> rfl
@[simp] theorem recordError_intEn (e : ErrCode) (c : Word) (s : State) : (recordError e c s).intEn = s.intEn := by
  unfold recordError; split <;> rfl
@[simp] theorem recordError_phase (e : ErrCode) (c : Word) (s : State) : (recordError e c s).phase = s.phase := by
  unfold recordError; split <;> rfl
@[simp] theorem recordError_treeValid (e : ErrCode) (c : Word) (s : State) : (recordError e c s).treeValid = s.treeValid := by
  unfold recordError; split <;> rfl
@[simp] theorem recordError_single (e : ErrCode) (c : Word) (s : State) : (recordError e c s).single = s.single := by
  unfold recordError; split <;> rfl
@[simp] theorem recordError_symSeen (e : ErrCode) (c : Word) (s : State) : (recordError e c s).symSeen = s.symSeen := by
  unfold recordError; split <;> rfl
@[simp] theorem recordError_busy (e : ErrCode) (c : Word) (s : State) : (recordError e c s).busy = s.busy := by
  unfold recordError; split <;> rfl
@[simp] theorem recordError_cmdL (e : ErrCode) (c : Word) (s : State) : (recordError e c s).cmdL = s.cmdL := by
  unfold recordError; split <;> rfl
@[simp] theorem recordError_dataL (e : ErrCode) (c : Word) (s : State) : (recordError e c s).dataL = s.dataL := by
  unfold recordError; split <;> rfl
@[simp] theorem recordError_nodes (e : ErrCode) (c : Word) (s : State) : (recordError e c s).nodes = s.nodes := by
  unfold recordError; split <;> rfl
@[simp] theorem recordError_pq (e : ErrCode) (c : Word) (s : State) : (recordError e c s).pq = s.pq := by
  unfold recordError; split <;> rfl
@[simp] theorem recordError_ct (e : ErrCode) (c : Word) (s : State) : (recordError e c s).ct = s.ct := by
  unfold recordError; split <;> rfl
@[simp] theorem recordError_ob (e : ErrCode) (c : Word) (s : State) : (recordError e c s).ob = s.ob := by
  unfold recordError; split <;> rfl
@[simp] theorem recordError_inputs (e : ErrCode) (c : Word) (s : State) : (recordError e c s).inputs = s.inputs := by
  unfold recordError; split <;> rfl
@[simp] theorem recordError_reply (e : ErrCode) (c : Word) (s : State) : (recordError e c s).reply = s.reply := by
  unfold recordError; split <;> rfl
@[simp] theorem recordError_freeCount (e : ErrCode) (c : Word) (s : State) : (recordError e c s).freeCount = s.freeCount := by
  unfold recordError; split <;> rfl

theorem recordError_first (e : ErrCode) (c : Word) (s : State) (h : s.errCode = .noError) :
    recordError e c s = { s with errCode := e, errCmd := c, intStat := s.intStat ||| 0b10 } := if_pos h

theorem recordError_later (e : ErrCode) (c : Word) (s : State) (h : s.errCode ≠ .noError) :
    recordError e c s = s := if_neg h

theorem State.locked_iff (s : State) : s.locked = true ↔ s.errCode ≠ .noError := by
  simp [State.locked]

theorem State.locked_eq_false_iff (s : State) : s.locked = false ↔ s.errCode = .noError := by
  simp [State.locked]

end Sys2Proof.Machine
end

