-- ==== Sys2Proof/Laws/Ops.lean ====
section
/-! SUPPORT. What the shared operations can do, once: the completion of a command, the node store, the queue, the
symbol set. -/

namespace Sys2Proof.Machine

/-! ### Completion -/

theorem attempt_legal {op : Op} {body : State → CmdResult} {s : State} (h : legal op s.phase s.ctValid = true) :
    attempt op body s = settle (body s) s := if_pos h

theorem attempt_not_legal {op : Op} {body : State → CmdResult} {s : State}
    (h : legal op s.phase s.ctValid = false) :
    attempt op body s = .next (recordError .badPhase s.cmdL s) := by simp [attempt, h]

/-- Everything a command can do when it answers a next state: complete, fault on its phase, or fault on its own
check. -/
theorem attempt_next {op : Op} {body : State → CmdResult} {s t : State} (h : attempt op body s = .next t) :
    (∃ s', legal op s.phase s.ctValid = true ∧ body s = .ok s' ∧ t = s'.setDone) ∨
    (legal op s.phase s.ctValid = false ∧ t = recordError .badPhase s.cmdL s) ∨
    (∃ e, legal op s.phase s.ctValid = true ∧ body s = .error e ∧ t = recordError e s.cmdL s) := by
  cases hl : legal op s.phase s.ctValid
  · rw [attempt_not_legal hl] at h
    cases h
    exact .inr (.inl ⟨rfl, rfl⟩)
  · rw [attempt_legal hl] at h
    cases hb : body s with
    | ok s' =>
      rw [hb] at h
      cases h
      exact .inl ⟨s', rfl, rfl, rfl⟩
    | error e =>
      rw [hb] at h
      cases h
      exact .inr (.inr ⟨e, rfl, rfl, rfl⟩)
    | broken f =>
      rw [hb] at h
      cases h

/-- The pseudocode `Exec_m` of a command, as a function of the state. -/
def bodyOf : Instr → State → CmdResult
  | .nop => fun s => .ok s
  | .clear => fun s => .ok s.newSession
  | .pushleaf sym => pushleafBody sym
  | .pqpop => pqpopBody
  | .build => buildBody
  | .gencodes => gencodesBody
  | .lookup sym k => lookupBody sym k
  | .decode n => decodeBody n
  | .decend => decendBody
  | .decrst => decrstBody
  | .readnode idx => readnodeBody idx

/-- Every command is the legality check and then its pseudocode. -/
theorem exec_eq_attempt (i : Instr) (s : State) : exec i s = attempt i.op (bodyOf i) s := by
  cases i <;> rfl

/-! ### The node store -/

theorem nodeAt_lt {nodes : List Node} {i : NodeIdx} {n : Node} (h : nodeAt nodes i = some n) :
    i.toNat < nodes.length := (List.getElem?_eq_some_iff.mp h).1

theorem nodeAt_mem {nodes : List Node} {i : NodeIdx} {n : Node} (h : nodeAt nodes i = some n) : n ∈ nodes :=
  List.mem_of_getElem? h

theorem exists_nodeAt {nodes : List Node} {i : NodeIdx} (h : i.toNat < nodes.length) :
    ∃ n, nodeAt nodes i = some n := ⟨_, List.getElem?_eq_getElem h⟩

/-- An allocated entry is never rewritten: growing the store keeps it. -/
theorem nodeAt_append {nodes more : List Node} {i : NodeIdx} {n : Node} (h : nodeAt nodes i = some n) :
    nodeAt (nodes ++ more) i = some n := by
  rw [nodeAt, List.getElem?_append_left (nodeAt_lt h)]
  exact h

theorem nextIdx_toNat {nodes : List Node} (h : nodes.length < 512) : (nextIdx nodes).toNat = nodes.length := by
  simp only [nextIdx, BitVec.toNat_ofNat]
  omega

theorem nodeAt_append_one {nodes : List Node} {n m : Node} {i : NodeIdx} (hl : nodes.length < 512) :
    nodeAt (nodes ++ [n]) i = some m ↔ nodeAt nodes i = some m ∨ (i = nextIdx nodes ∧ m = n) := by
  constructor
  · intro h
    have hi := nodeAt_lt h
    simp only [List.length_append, List.length_singleton] at hi
    by_cases hlt : i.toNat < nodes.length
    · left
      rwa [nodeAt, List.getElem?_append_left hlt] at h
    · right
      have he : i.toNat = nodes.length := by omega
      have hi' : i = nextIdx nodes := BitVec.eq_of_toNat_eq (by rw [he, nextIdx_toNat hl])
      rw [nodeAt, he, List.getElem?_append_right (Nat.le_refl _)] at h
      simp only [Nat.sub_self, List.getElem?_cons_zero, Option.some.injEq] at h
      exact ⟨hi', h.symm⟩
  · rintro (h | ⟨rfl, rfl⟩)
    · exact nodeAt_append h
    · rw [nodeAt, nextIdx_toNat hl, List.getElem?_append_right (Nat.le_refl _)]
      simp

theorem nodeAt_nextIdx {nodes : List Node} (hl : nodes.length < 512) : nodeAt nodes (nextIdx nodes) = none := by
  rw [nodeAt, nextIdx_toNat hl]
  simp

theorem allocNode_eq_some {nodes nodes' : List Node} {n : Node} (h : allocNode nodes n = some nodes') :
    nodes.length < Config.nodeCapacity ∧ nodes' = nodes ++ [n] := by
  unfold allocNode at h
  split at h
  · exact ⟨‹_›, (Option.some.inj h).symm⟩
  · cases h

theorem allocNode_of_lt {nodes : List Node} {n : Node} (h : nodes.length < Config.nodeCapacity) :
    allocNode nodes n = some (nodes ++ [n]) := if_pos h

/-! ### The queue -/

theorem Entry.lt_iff {a b : Entry} : a.lt b = true ↔ a.w < b.w ∨ (a.w = b.w ∧ a.i < b.i) := by
  simp [Entry.lt]

theorem Entry.lt_trans {a b c : Entry} (hab : a.lt b = true) (hbc : b.lt c = true) : a.lt c = true := by
  rw [Entry.lt_iff] at *
  rcases hab with h | ⟨h, h'⟩ <;> rcases hbc with k | ⟨k, k'⟩
  · exact .inl (BitVec.lt_trans h k)
  · exact .inl (k ▸ h)
  · exact .inl (h ▸ k)
  · exact .inr ⟨h.trans k, BitVec.lt_trans h' k'⟩

theorem Entry.lt_irrefl (a : Entry) : a.lt a = false := by
  simp [Entry.lt]

/-- Entries with different tags compare (R111). -/
theorem Entry.lt_or_gt {a b : Entry} (h : a.i ≠ b.i) : a.lt b = true ∨ b.lt a = true := by
  simp only [Entry.lt_iff, BitVec.lt_def]
  have : a.i.toNat ≠ b.i.toNat := fun e => h (BitVec.eq_of_toNat_eq e)
  by_cases hw : a.w = b.w
  · have hw' := congrArg BitVec.toNat hw
    simp only [hw, true_and]
    omega
  · have : a.w.toNat ≠ b.w.toNat := fun e => hw (BitVec.eq_of_toNat_eq e)
    omega

theorem pqInsert_perm (e : Entry) (pq : List Entry) : (pqInsert e pq).Perm (e :: pq) := by
  induction pq with
  | nil => exact .refl _
  | cons x xs ih =>
    unfold pqInsert
    split
    · exact .refl _
    · exact (ih.cons x).trans (.swap e x xs)

theorem pqInsert_length (e : Entry) (pq : List Entry) : (pqInsert e pq).length = pq.length + 1 :=
  (pqInsert_perm e pq).length_eq

theorem mem_pqInsert {e x : Entry} {pq : List Entry} : x ∈ pqInsert e pq ↔ x = e ∨ x ∈ pq := by
  rw [(pqInsert_perm e pq).mem_iff, List.mem_cons]

/-- Inserting an entry with a tag of its own keeps the queue strictly rising. -/
theorem pqInsert_rising {e : Entry} {pq : List Entry} (hp : pq.Pairwise fun a b => a.lt b = true)
    (hi : ∀ x ∈ pq, x.i ≠ e.i) : (pqInsert e pq).Pairwise fun a b => a.lt b = true := by
  induction pq with
  | nil => simp [pqInsert]
  | cons x xs ih =>
    rw [List.pairwise_cons] at hp
    unfold pqInsert
    split
    · rename_i hlt
      refine List.pairwise_cons.mpr ⟨fun y hy => ?_, List.pairwise_cons.mpr hp⟩
      rcases List.mem_cons.mp hy with rfl | hy
      · exact hlt
      · exact Entry.lt_trans hlt (hp.1 y hy)
    · rename_i hlt
      refine List.pairwise_cons.mpr
        ⟨fun y hy => ?_, ih hp.2 fun y hy => hi y (List.mem_cons_of_mem _ hy)⟩
      rcases mem_pqInsert.mp hy with rfl | hy
      · exact (Entry.lt_or_gt (hi x List.mem_cons_self)).resolve_right hlt
      · exact hp.1 y hy

/-- In a strictly rising queue the first entry is least (R111). -/
theorem pqPopMin_least {e : Entry} {pq rest : List Entry} (hp : pq.Pairwise fun a b => a.lt b = true)
    (h : pqPopMin pq = some (e, rest)) : pq = e :: rest ∧ ∀ x ∈ pq, x ≠ e → e.lt x = true := by
  cases pq with
  | nil => cases h
  | cons x xs =>
    cases h
    refine ⟨rfl, fun y hy hne => ?_⟩
    rcases List.mem_cons.mp hy with rfl | hy
    · exact absurd rfl hne
    · exact (List.pairwise_cons.mp hp).1 y hy

/-! ### The symbol set -/

theorem seen_markSeen (set : BitVec 256) (a b : Symbol) :
    seen (markSeen set a) b = (seen set b || decide (a = b)) := by
  have ha := a.isLt
  have hb := b.isLt
  simp only [seen, markSeen, BitVec.getLsbD_or, BitVec.getLsbD_shiftLeft, BitVec.getLsbD_one]
  congr 1
  by_cases h : a = b
  · subst h
    simp [ha]
  · have : a.toNat ≠ b.toNat := fun e => h (BitVec.eq_of_toNat_eq e)
    simp only [h, decide_false]
    by_cases hlt : b.toNat < a.toNat <;> simp [hlt] <;> omega

theorem seen_zero (b : Symbol) : seen 0#256 b = false := by simp [seen]

end Sys2Proof.Machine
end

