-- ==== Sys2Proof/Laws/Tree.lean ====
section
/-! SUPPORT. The tree below a node of the node store: following a path, the tree as an inductive value, its indices
(each visited once) and the bounds on its size and depth (10_state.md R45, 00_scope.md R11, R13). -/

namespace Sys2Proof.Machine

/-! ### Following a path -/

/-- The child of the internal node `x` on the side `b`. -/
def child (nodes : List Node) (x : NodeIdx) (b : Bool) : Option NodeIdx :=
  match nodeAt nodes x with
  | none => none
  | some n => if n.leaf then none else some (if b then n.right else n.left)

/-- Where the path `p` leads from `x`. -/
def follow (nodes : List Node) (x : NodeIdx) : List Bool → Option NodeIdx
  | [] => some x
  | b :: p => (child nodes x b).bind fun y => follow nodes y p

theorem child_eq_some {nodes : List Node} {x y : NodeIdx} {b : Bool} :
    child nodes x b = some y ↔
      ∃ n, nodeAt nodes x = some n ∧ n.leaf = false ∧ y = if b then n.right else n.left := by
  unfold child
  cases h : nodeAt nodes x with
  | none => simp
  | some n =>
    cases hl : n.leaf
    · simp [hl, @eq_comm _ y]
    · simp [hl]

theorem isChild_iff {nodes : List Node} {c p : NodeIdx} : IsChild nodes c p ↔ ∃ b, child nodes p b = some c := by
  simp only [IsChild, child_eq_some]
  constructor
  · rintro ⟨n, hn, hl, h | h⟩
    · exact ⟨false, n, hn, hl, by simp [h]⟩
    · exact ⟨true, n, hn, hl, by simp [h]⟩
  · rintro ⟨b, n, hn, hl, h⟩
    exact ⟨n, hn, hl, by cases b <;> simp_all⟩

theorem follow_append (nodes : List Node) (x : NodeIdx) (p q : List Bool) :
    follow nodes x (p ++ q) = (follow nodes x p).bind fun y => follow nodes y q := by
  induction p generalizing x with
  | nil => rfl
  | cons b p ih =>
    simp only [List.cons_append, follow]
    cases child nodes x b with
    | none => rfl
    | some y => exact ih y

theorem follow_snoc {nodes : List Node} {x y : NodeIdx} {p : List Bool} {b : Bool} :
    follow nodes x (p ++ [b]) = some y ↔ ∃ z, follow nodes x p = some z ∧ child nodes z b = some y := by
  rw [follow_append]
  cases follow nodes x p with
  | none => simp
  | some z => cases h : child nodes z b <;> simp [follow, h]

/-- A path in the sense of R130 is what `follow` computes. -/
theorem path_iff_follow {nodes : List Node} {root x : NodeIdx} {p : List Bool} :
    NodePath nodes root p x ↔ follow nodes root p = some x := by
  constructor
  · intro h
    induction h with
    | root => rfl
    | left _ hn hl ih => exact follow_snoc.mpr ⟨_, ih, child_eq_some.mpr ⟨_, hn, hl, rfl⟩⟩
    | right _ hn hl ih => exact follow_snoc.mpr ⟨_, ih, child_eq_some.mpr ⟨_, hn, hl, rfl⟩⟩
  · induction p using List.reverseRecOn generalizing x with
    | nil =>
      intro h
      cases h
      exact .root
    | append_singleton p b ih =>
      intro h
      obtain ⟨z, hz, hc⟩ := follow_snoc.mp h
      obtain ⟨n, hn, hl, rfl⟩ := child_eq_some.mp hc
      cases b
      · exact .left (ih hz) hn hl
      · exact .right (ih hz) hn hl

theorem NodePath.unique {nodes : List Node} {root x y : NodeIdx} {p : List Bool} (hx : NodePath nodes root p x)
    (hy : NodePath nodes root p y) : x = y := by
  rw [path_iff_follow] at hx hy
  exact Option.some.inj (hx.symm.trans hy)

/-- A path that goes on past `p` passes an internal node there. -/
theorem NodePath.inner_of_longer {nodes : List Node} {root x y : NodeIdx} {p q : List Bool} (hx : NodePath nodes root p x)
    (hy : NodePath nodes root (p ++ q) y) (hq : q ≠ []) : ∃ n, nodeAt nodes x = some n ∧ n.leaf = false := by
  rw [path_iff_follow] at hx hy
  rw [follow_append, hx] at hy
  cases q with
  | nil => exact absurd rfl hq
  | cons b q =>
    simp only [Option.bind_some, follow] at hy
    cases hc : child nodes x b with
    | none => simp [hc] at hy
    | some z =>
      obtain ⟨n, hn, hl, _⟩ := child_eq_some.mp hc
      exact ⟨n, hn, hl⟩

/-! ### Well-formed stores: children lie below their parents and have one parent (R45.1, R45.2) -/

/-- R45.1 for every entry. -/
def NodesOk (nodes : List Node) : Prop := ∀ i n, nodeAt nodes i = some n → NodeOk nodes i n

/-- R45.2: at most one parent. -/
def OneParent (nodes : List Node) : Prop := ∀ c p p', IsChild nodes c p → IsChild nodes c p' → p = p'

theorem child_lt {nodes : List Node} (h : NodesOk nodes) {x y : NodeIdx} {b : Bool}
    (hc : child nodes x b = some y) : y.toNat < x.toNat := by
  obtain ⟨n, hn, hl, rfl⟩ := child_eq_some.mp hc
  obtain ⟨h1, h2, -⟩ := (h x n hn).2 hl
  cases b
  · simpa using BitVec.lt_def.mp h1
  · simpa using BitVec.lt_def.mp h2

theorem child_allocated {nodes : List Node} (h : NodesOk nodes) {x y : NodeIdx} {b : Bool}
    (hc : child nodes x b = some y) : ∃ m, nodeAt nodes y = some m := by
  obtain ⟨n, hn, hl, rfl⟩ := child_eq_some.mp hc
  obtain ⟨-, -, -, -, l, r, hL, hR, -⟩ := (h x n hn).2 hl
  cases b
  · exact ⟨l, hL⟩
  · exact ⟨r, hR⟩

theorem follow_le {nodes : List Node} (h : NodesOk nodes) {x y : NodeIdx} {p : List Bool}
    (hf : follow nodes x p = some y) : y.toNat ≤ x.toNat := by
  induction p generalizing x with
  | nil =>
    cases hf
    exact Nat.le_refl _
  | cons b p ih =>
    simp only [follow] at hf
    cases hc : child nodes x b with
    | none => simp [hc] at hf
    | some z =>
      rw [hc] at hf
      exact Nat.le_trans (ih hf) (Nat.le_of_lt (child_lt h hc))

/-- Nothing lies below both of two different children of one node. -/
theorem siblings_disjoint {nodes : List Node} (h : NodesOk nodes) (h1 : OneParent nodes) {i c c' y : NodeIdx}
    {p q : List Bool} (hc : IsChild nodes c i) (hc' : IsChild nodes c' i) (hne : c ≠ c')
    (hp : follow nodes c p = some y) (hq : follow nodes c' q = some y) : False := by
  have hlt : ∀ {d : NodeIdx}, IsChild nodes d i → d.toNat < i.toNat := fun hd => by
    obtain ⟨b, hb⟩ := isChild_iff.mp hd
    exact child_lt h hb
  induction p using List.reverseRecOn generalizing q y with
  | nil =>
    cases hp
    rcases List.eq_nil_or_concat q with rfl | ⟨q', b, rfl⟩
    · cases hq
      exact hne rfl
    · rw [List.concat_eq_append] at hq
      obtain ⟨z, hz, hzb⟩ := follow_snoc.mp hq
      have := h1 c z i (isChild_iff.mpr ⟨b, hzb⟩) hc
      subst this
      have := follow_le h hz
      have := hlt hc'
      omega
  | append_singleton p b ih =>
    obtain ⟨z, hz, hzb⟩ := follow_snoc.mp hp
    rcases List.eq_nil_or_concat q with rfl | ⟨q', b', rfl⟩
    · cases hq
      have := h1 c' z i (isChild_iff.mpr ⟨b, hzb⟩) hc'
      subst this
      have := follow_le h hz
      have := hlt hc
      omega
    · rw [List.concat_eq_append] at hq
      obtain ⟨z', hz', hzb'⟩ := follow_snoc.mp hq
      have := h1 y z z' (isChild_iff.mpr ⟨b, hzb⟩) (isChild_iff.mpr ⟨b', hzb'⟩)
      subst this
      exact ih hz hz'

/-! ### The tree as a value -/

/-- A binary tree of node indices, with the entry at each leaf. -/
inductive NodeTree where
  | leaf (i : NodeIdx) (n : Node)
  | fork (i : NodeIdx) (l r : NodeTree)

/-- `t` is the tree below index `i`. -/
inductive Below (nodes : List Node) : NodeIdx → NodeTree → Prop
  | leaf {i : NodeIdx} {n : Node} : nodeAt nodes i = some n → n.leaf = true → Below nodes i (.leaf i n)
  | fork {i : NodeIdx} {n : Node} {l r : NodeTree} : nodeAt nodes i = some n → n.leaf = false →
      Below nodes n.left l → Below nodes n.right r → Below nodes i (.fork i l r)

/-- Every index of the tree, in pre-order. -/
def NodeTree.indices : NodeTree → List NodeIdx
  | .leaf i _ => [i]
  | .fork i l r => i :: (l.indices ++ r.indices)

/-- The indices of its internal nodes. -/
def NodeTree.forks : NodeTree → List NodeIdx
  | .leaf _ _ => []
  | .fork i l r => i :: (l.forks ++ r.forks)

/-- Its leaves with their paths, left to right. -/
def NodeTree.leaves : NodeTree → List (List Bool × NodeIdx × Node)
  | .leaf i n => [([], i, n)]
  | .fork _ l r =>
    l.leaves.map (fun e => (false :: e.1, e.2)) ++ r.leaves.map (fun e => (true :: e.1, e.2))

/-- The tree below an allocated index of a well-formed store. -/
theorem exists_below {nodes : List Node} (h : NodesOk nodes) :
    ∀ (k : Nat) (i : NodeIdx) (n : Node), i.toNat < k → nodeAt nodes i = some n → ∃ t, Below nodes i t := by
  intro k
  induction k with
  | zero => intro i n hi; omega
  | succ k ih =>
    intro i n hi hn
    cases hl : n.leaf with
    | true => exact ⟨_, .leaf hn hl⟩
    | false =>
      obtain ⟨h1, h2, -, -, l, r, hL, hR, -⟩ := (h i n hn).2 hl
      obtain ⟨tl, htl⟩ := ih n.left l (by have := BitVec.lt_def.mp h1; omega) hL
      obtain ⟨tr, htr⟩ := ih n.right r (by have := BitVec.lt_def.mp h2; omega) hR
      exact ⟨_, .fork hn hl htl htr⟩

theorem mem_indices {nodes : List Node} {i : NodeIdx} {t : NodeTree} (ht : Below nodes i t) (y : NodeIdx) :
    y ∈ t.indices ↔ ∃ p, follow nodes i p = some y := by
  induction ht with
  | @leaf i n hn hl =>
    simp only [NodeTree.indices, List.mem_singleton]
    constructor
    · rintro rfl
      exact ⟨[], rfl⟩
    · rintro ⟨p, hp⟩
      cases p with
      | nil =>
        cases hp
        rfl
      | cons b p => simp [follow, child, hn, hl] at hp
  | @fork i n l r hn hl _ _ ihl ihr =>
    simp only [NodeTree.indices, List.mem_cons, List.mem_append, ihl, ihr]
    constructor
    · rintro (rfl | ⟨p, hp⟩ | ⟨p, hp⟩)
      · exact ⟨[], rfl⟩
      · exact ⟨false :: p, by simp [follow, child, hn, hl, hp]⟩
      · exact ⟨true :: p, by simp [follow, child, hn, hl, hp]⟩
    · rintro ⟨p, hp⟩
      rcases p with _ | ⟨b, p⟩
      · cases hp
        exact .inl rfl
      · simp only [follow, child, hn, hl] at hp
        cases b
        · exact .inr (.inl ⟨p, by simpa using hp⟩)
        · exact .inr (.inr ⟨p, by simpa using hp⟩)

theorem mem_leaves {nodes : List Node} {i : NodeIdx} {t : NodeTree} (ht : Below nodes i t) (p : List Bool) (y : NodeIdx)
    (m : Node) :
    (p, y, m) ∈ t.leaves ↔ follow nodes i p = some y ∧ nodeAt nodes y = some m ∧ m.leaf = true := by
  induction ht generalizing p with
  | @leaf i n hn hl =>
    simp only [NodeTree.leaves, List.mem_singleton, Prod.mk.injEq]
    constructor
    · rintro ⟨rfl, rfl, rfl⟩
      exact ⟨rfl, hn, hl⟩
    · rintro ⟨hp, hm, _⟩
      cases p with
      | nil =>
        cases hp
        exact ⟨rfl, rfl, Option.some.inj (hm.symm.trans hn)⟩
      | cons b p => simp [follow, child, hn, hl] at hp
  | @fork i n l r hn hl _ _ ihl ihr =>
    simp only [NodeTree.leaves, List.mem_append, List.mem_map, Prod.exists, Prod.mk.injEq]
    constructor
    · rintro (⟨q, z, k, hk, rfl, rfl, rfl⟩ | ⟨q, z, k, hk, rfl, rfl, rfl⟩)
      · obtain ⟨h1, h2⟩ := (ihl q).mp hk
        exact ⟨by simp [follow, child, hn, hl, h1], h2⟩
      · obtain ⟨h1, h2⟩ := (ihr q).mp hk
        exact ⟨by simp [follow, child, hn, hl, h1], h2⟩
    · rintro ⟨hp, hm, hml⟩
      rcases p with _ | ⟨b, p⟩
      · cases hp
        rw [hn] at hm
        cases hm
        rw [hl] at hml
        cases hml
      · simp only [follow, child, hn, hl] at hp
        cases b
        · exact .inl ⟨p, y, m, (ihl p).mpr ⟨by simpa using hp, hm, hml⟩, rfl, rfl, rfl⟩
        · exact .inr ⟨p, y, m, (ihr p).mpr ⟨by simpa using hp, hm, hml⟩, rfl, rfl, rfl⟩

/-- Every node of the tree is met once. -/
theorem indices_nodup {nodes : List Node} (h : NodesOk nodes) (h1 : OneParent nodes) {i : NodeIdx} {t : NodeTree}
    (ht : Below nodes i t) : t.indices.Nodup := by
  induction ht with
  | leaf => exact List.nodup_singleton _
  | @fork i n l r hn hl hbl hbr ihl ihr =>
    have hcl : IsChild nodes n.left i := ⟨n, hn, hl, .inl rfl⟩
    have hcr : IsChild nodes n.right i := ⟨n, hn, hl, .inr rfl⟩
    obtain ⟨hlt, hrt, hne, -⟩ := (h i n hn).2 hl
    refine List.nodup_cons.mpr ⟨?_, List.nodup_append.mpr ⟨ihl, ihr, ?_⟩⟩
    · rw [List.mem_append, mem_indices hbl, mem_indices hbr]
      have := BitVec.lt_def.mp hlt
      have := BitVec.lt_def.mp hrt
      rintro (⟨p, hp⟩ | ⟨p, hp⟩)
      · have := follow_le h hp
        omega
      · have := follow_le h hp
        omega
    · rintro a ha b hb rfl
      obtain ⟨p, hp⟩ := (mem_indices hbl a).mp ha
      obtain ⟨q, hq⟩ := (mem_indices hbr a).mp hb
      exact siblings_disjoint h h1 hcl hcr hne hp hq

theorem forks_sublist (t : NodeTree) : t.forks.Sublist t.indices := by
  induction t with
  | leaf => exact List.nil_sublist _
  | fork i l r ihl ihr => exact (ihl.append ihr).cons_cons i

theorem leaves_sublist (t : NodeTree) : (t.leaves.map fun e => e.2.1).Sublist t.indices := by
  induction t with
  | leaf => exact .refl _
  | fork i l r ihl ihr =>
    simp only [NodeTree.leaves, List.map_append, List.map_map]
    exact (ihl.append ihr).cons i

theorem forks_inner {nodes : List Node} {i : NodeIdx} {t : NodeTree} (ht : Below nodes i t) :
    ∀ y ∈ t.forks, ∃ n, nodeAt nodes y = some n ∧ n.leaf = false := by
  induction ht with
  | leaf => simp [NodeTree.forks]
  | @fork i n l r hn hl _ _ ihl ihr =>
    simp only [NodeTree.forks, List.mem_cons, List.mem_append]
    rintro y (rfl | hy | hy)
    · exact ⟨n, hn, hl⟩
    · exact ihl y hy
    · exact ihr y hy

theorem leaves_length (t : NodeTree) : t.leaves.length = t.forks.length + 1 := by
  induction t with
  | leaf => rfl
  | fork i l r ihl ihr =>
    simp only [NodeTree.leaves, NodeTree.forks, List.length_append, List.length_map, List.length_cons]
    omega

/-- A path is no longer than the tree has internal nodes (00_scope.md R13). -/
theorem follow_length_le {nodes : List Node} {i y : NodeIdx} {t : NodeTree} {p : List Bool} (ht : Below nodes i t)
    (hp : follow nodes i p = some y) : p.length ≤ t.forks.length := by
  induction ht generalizing p with
  | @leaf i n hn hl =>
    cases p with
    | nil => exact Nat.zero_le _
    | cons b p => simp [follow, child, hn, hl] at hp
  | @fork i n l r hn hl _ _ ihl ihr =>
    simp only [NodeTree.forks, List.length_cons, List.length_append]
    rcases p with _ | ⟨b, p⟩
    · exact Nat.zero_le _
    · simp only [follow, child, hn, hl] at hp
      cases b
      · have := ihl (p := p) (by simpa using hp)
        simp only [List.length_cons]
        omega
      · have := ihr (p := p) (by simpa using hp)
        simp only [List.length_cons]
        omega

/-! ### Counting -/

/-- The entries satisfying `P`, counted by index. -/
theorem filter_length_eq (nodes : List Node) (P : Node → Bool) :
    (nodes.filter P).length = ((List.range nodes.length).filter fun i => (nodes[i]?).any P).length := by
  have hmap : nodes = (List.range nodes.length).map fun i => (nodes[i]?).getD ⟨false, 0, 0, 0, 0⟩ := by
    refine List.ext_getElem (by simp) fun i hi _ => ?_
    simp [List.getElem?_eq_getElem hi]
  conv_lhs => rw [hmap]
  rw [List.filter_map, List.length_map]
  congr 1
  apply List.filter_congr
  intro i hi
  have hi := List.mem_range.mp hi
  simp [List.getElem?_eq_getElem hi]

/-- Distinct indices of entries satisfying `P` are no more than those entries. -/
theorem nodup_indices_le {nodes : List Node} {P : Node → Bool} {l : List NodeIdx} (hl : l.Nodup)
    (h : ∀ i ∈ l, ∃ n, nodeAt nodes i = some n ∧ P n = true) : l.length ≤ (nodes.filter P).length := by
  rw [filter_length_eq, ← List.length_map (f := BitVec.toNat) (as := l)]
  refine (List.subperm_of_subset (hl.map fun a b e => BitVec.eq_of_toNat_eq e) ?_).length_le
  intro k hk
  obtain ⟨i, hi, rfl⟩ := List.mem_map.mp hk
  obtain ⟨n, hn, hP⟩ := h i hi
  refine List.mem_filter.mpr ⟨List.mem_range.mpr (nodeAt_lt hn), ?_⟩
  rw [nodeAt] at hn
  simp [hn, hP]

theorem nodup_indices_le_length {nodes : List Node} {l : List NodeIdx} (hl : l.Nodup)
    (h : ∀ i ∈ l, ∃ n, nodeAt nodes i = some n) : l.length ≤ nodes.length := by
  have := nodup_indices_le (P := fun _ => true) hl fun i hi => by
    obtain ⟨n, hn⟩ := h i hi
    exact ⟨n, hn, rfl⟩
  rwa [List.filter_true] at this

/-- Leaves of distinct symbols: at most 256 (00_scope.md R10). -/
theorem leaves_le_256 {nodes : List Node}
    (hd : ∀ i j n m, nodeAt nodes i = some n → nodeAt nodes j = some m →
      n.leaf = true → m.leaf = true → n.sym = m.sym → i = j)
    (hfit : nodes.length ≤ 511) : (nodes.filter fun n => n.leaf).length ≤ 256 := by
  have hnd : ((nodes.filter fun n => n.leaf).map fun n => n.sym.toNat).Nodup := by
    rw [List.Nodup, List.pairwise_map, List.pairwise_filter, List.pairwise_iff_getElem]
    intro i j hi hj hij hn hm he
    have e1 : (BitVec.ofNat 9 i).toNat = i := by simp only [BitVec.toNat_ofNat]; omega
    have e2 : (BitVec.ofNat 9 j).toNat = j := by simp only [BitVec.toNat_ofNat]; omega
    have := hd (BitVec.ofNat 9 i) (BitVec.ofNat 9 j) nodes[i] nodes[j]
      (by rw [nodeAt, e1]; exact List.getElem?_eq_getElem hi)
      (by rw [nodeAt, e2]; exact List.getElem?_eq_getElem hj) hn hm (BitVec.eq_of_toNat_eq he)
    have := congrArg BitVec.toNat this
    omega
  have := (List.subperm_of_subset (l₂ := List.range 256) hnd (by
    intro k hk
    obtain ⟨n, -, rfl⟩ := List.mem_map.mp hk
    exact List.mem_range.mpr n.sym.isLt)).length_le
  simpa using this

/-- A node's weight is the sum of the weights of the leaves below it (10_state.md R45.1). -/
theorem weight_below {nodes : List Node} (hok : NodesOk nodes) {i : NodeIdx} {t : NodeTree} (hb : Below nodes i t)
    {n : Node} (hn : nodeAt nodes i = some n) : n.w.toNat = (t.leaves.map fun e => e.2.2.w.toNat).sum := by
  induction hb generalizing n with
  | @leaf i m hm hl =>
    rw [hm] at hn
    cases hn
    simp [NodeTree.leaves]
  | @fork i m l r hm hl hbl hbr ihl ihr =>
    rw [hm] at hn
    cases hn
    obtain ⟨-, -, -, -, ln, rn, hL, hR, hw⟩ := (hok i m hm).2 hl
    rw [hw, ihl hL, ihr hR]
    simp [NodeTree.leaves, List.map_map, Function.comp_def]

end Sys2Proof.Machine
end

