-- ==== Sys2Proof/Laws/Build.lean ====
section
/-! SUPPORT. What BUILD's merge loop keeps and reaches (41_queue_and_build.md R116 to R118, R121). -/

namespace Sys2Proof.Machine

/-- What holds of the node store and the queue before, between and after BUILD's merges. -/
structure Forest (nodes : List Node) (pq : List Entry) : Prop where
  ok : NodesOk nodes
  one : OneParent nodes
  noChild : ∀ e ∈ pq, ∀ p, ¬ IsChild nodes e.i p
  entry : ∀ e ∈ pq, ∃ n, nodeAt nodes e.i = some n ∧ e.w = n.w
  rising : pq.Pairwise fun a b => a.lt b = true
  weight : (pq.map fun e => e.w.toNat).sum < 2 ^ 40
  room : nodes.length + pq.length ≤ 512
  inner : (nodes.filter fun n => !n.leaf).length + pq.length ≤ 256
  distinct : ∀ i j n m, nodeAt nodes i = some n → nodeAt nodes j = some m →
    n.leaf = true → m.leaf = true → n.sym = m.sym → i = j

/-- Entries of the queue with the same tag are the same entry (R110). -/
theorem Forest.tag_inj {nodes : List Node} {pq : List Entry} (h : Forest nodes pq) {a b : Entry} (ha : a ∈ pq)
    (hb : b ∈ pq) (hi : a.i = b.i) : a = b := by
  obtain ⟨n, hn, hw⟩ := h.entry a ha
  obtain ⟨m, hm, hw'⟩ := h.entry b hb
  rw [hi, hm] at hn
  cases hn
  cases a
  cases b
  simp_all

theorem rising_nodup {pq : List Entry} (h : pq.Pairwise fun a b => a.lt b = true) : pq.Nodup :=
  h.imp fun {a b} hab he => by
    subst he
    rw [Entry.lt_irrefl] at hab
    cases hab

theorem isChild_append_inner {nodes : List Node} {w : Weight} {l r c p : NodeIdx} (hlen : nodes.length < 512) :
    IsChild (nodes ++ [innerNode w l r]) c p ↔ IsChild nodes c p ∨ (p = nextIdx nodes ∧ (l = c ∨ r = c)) := by
  simp only [IsChild, nodeAt_append_one hlen]
  constructor
  · rintro ⟨n, hn | ⟨rfl, rfl⟩, hl, hc⟩
    · exact .inl ⟨n, hn, hl, hc⟩
    · exact .inr ⟨rfl, hc⟩
  · rintro (⟨n, hn, hl, hc⟩ | ⟨rfl, hc⟩)
    · exact ⟨n, .inl hn, hl, hc⟩
    · exact ⟨_, .inr ⟨rfl, rfl⟩, rfl, hc⟩

theorem nodeOk_append {nodes more : List Node} {i : NodeIdx} {n : Node} (h : NodeOk nodes i n) :
    NodeOk (nodes ++ more) i n := by
  refine ⟨h.1, fun hl => ?_⟩
  obtain ⟨h1, h2, h3, h4, l, r, hL, hR, hw⟩ := h.2 hl
  exact ⟨h1, h2, h3, h4, l, r, nodeAt_append hL, nodeAt_append hR, hw⟩

/-- Growing the store by one internal node adds no leaf. -/
theorem leaves_append_inner (nodes : List Node) (w : Weight) (l r : NodeIdx) :
    ((nodes ++ [innerNode w l r]).filter fun n => n.leaf) = nodes.filter fun n => n.leaf := by
  simp [List.filter_append, innerNode]

/-- One merge keeps the forest (R117). -/
theorem Forest.merge {nodes : List Node} {a b : Entry} {rest : List Entry} (h : Forest nodes (a :: b :: rest)) :
    Forest (nodes ++ [innerNode (a.w + b.w) a.i b.i]) (pqInsert ⟨a.w + b.w, nextIdx nodes⟩ rest) := by
  have hroom := h.room
  simp only [List.length_cons] at hroom
  have hlen : nodes.length < 512 := by omega
  have hnew := nextIdx_toNat hlen
  have ha : a ∈ a :: b :: rest := by simp
  have hb : b ∈ a :: b :: rest := by simp
  have hr : ∀ {x}, x ∈ rest → x ∈ a :: b :: rest := fun hx => by simp [hx]
  have hlt : ∀ {x}, x ∈ a :: b :: rest → x.i.toNat < nodes.length := fun hx => by
    obtain ⟨n, hn, -⟩ := h.entry _ hx
    exact nodeAt_lt hn
  have hrise := List.pairwise_cons.mp h.rising
  have hrise' := List.pairwise_cons.mp hrise.2
  have hab : a.i ≠ b.i := fun he => by
    have := h.tag_inj ha hb he
    have hl := hrise.1 b (by simp)
    rw [this, Entry.lt_irrefl] at hl
    cases hl
  have hnotin : ∀ x ∈ rest, x.i ≠ a.i ∧ x.i ≠ b.i := by
    refine fun x hx => ⟨fun he => ?_, fun he => ?_⟩
    · have hl := hrise.1 x (by simp [hx])
      rw [h.tag_inj (hr hx) ha he, Entry.lt_irrefl] at hl
      cases hl
    · have hl := hrise'.1 x hx
      rw [h.tag_inj (hr hx) hb he, Entry.lt_irrefl] at hl
      cases hl
  have hsum := h.weight
  simp only [List.map_cons, List.sum_cons] at hsum
  have hw : (a.w + b.w).toNat = a.w.toNat + b.w.toNat := by
    rw [BitVec.toNat_add, Nat.mod_eq_of_lt (by omega)]
  obtain ⟨na, hna, hwa⟩ := h.entry a ha
  obtain ⟨nb, hnb, hwb⟩ := h.entry b hb
  refine ⟨?_, ?_, ?_, ?_, ?_, ?_, ?_, ?_, ?_⟩
  · intro i n hn
    rcases (nodeAt_append_one hlen).mp hn with hn | ⟨rfl, rfl⟩
    · exact nodeOk_append (h.ok i n hn)
    · refine ⟨(fun hl => by cases hl), fun _ => ⟨?_, ?_, hab, rfl, na, nb, nodeAt_append hna, nodeAt_append hnb, ?_⟩⟩
      · exact BitVec.lt_def.mpr (by rw [hnew]; exact hlt ha)
      · exact BitVec.lt_def.mpr (by rw [hnew]; exact hlt hb)
      · rw [← hwa, ← hwb]
        exact hw
  · intro c p p' hp hp'
    rw [isChild_append_inner hlen] at hp hp'
    rcases hp with hp | ⟨rfl, hp⟩ <;> rcases hp' with hp' | ⟨rfl, hp'⟩
    · exact h.one c p p' hp hp'
    · rcases hp' with rfl | rfl
      · exact absurd hp (h.noChild a ha p)
      · exact absurd hp (h.noChild b hb p)
    · rcases hp with rfl | rfl
      · exact absurd hp' (h.noChild a ha p')
      · exact absurd hp' (h.noChild b hb p')
    · rfl
  · intro e he p hp
    rw [isChild_append_inner hlen] at hp
    rcases mem_pqInsert.mp he with rfl | he
    · rcases hp with hp | ⟨rfl, hp⟩
      · obtain ⟨c, hc⟩ := isChild_iff.mp hp
        obtain ⟨m, hm⟩ := child_allocated h.ok hc
        rw [nodeAt_nextIdx hlen] at hm
        cases hm
      · rcases hp with hp | hp
        · have := hlt ha
          rw [hp, hnew] at this
          omega
        · have := hlt hb
          rw [hp, hnew] at this
          omega
    · rcases hp with hp | ⟨rfl, hp | hp⟩
      · exact h.noChild e (hr he) p hp
      · exact (hnotin e he).1 hp.symm
      · exact (hnotin e he).2 hp.symm
  · intro e he
    rcases mem_pqInsert.mp he with rfl | he
    · exact ⟨_, (nodeAt_append_one hlen).mpr (.inr ⟨rfl, rfl⟩), rfl⟩
    · obtain ⟨n, hn, hw⟩ := h.entry e (hr he)
      exact ⟨n, nodeAt_append hn, hw⟩
  · refine pqInsert_rising hrise'.2 fun x hx he => ?_
    have := hlt (hr hx)
    rw [he, hnew] at this
    omega
  · rw [((pqInsert_perm _ rest).map _).sum_eq, List.map_cons, List.sum_cons, hw]
    omega
  · rw [List.length_append, List.length_singleton, pqInsert_length]
    omega
  · have := h.inner
    simp only [List.length_cons] at this
    rw [List.filter_append, List.length_append, pqInsert_length]
    simp only [innerNode, List.filter_cons, Bool.not_false, if_true, List.filter_nil, List.length_singleton]
    omega
  · intro i j n m hn hm hnl hml hs
    rcases (nodeAt_append_one hlen).mp hn with hn | ⟨rfl, rfl⟩
    · rcases (nodeAt_append_one hlen).mp hm with hm | ⟨rfl, rfl⟩
      · exact h.distinct i j n m hn hm hnl hml hs
      · cases hml
    · cases hnl

/-- One merge of the rising list is one merge of its set of entries (R111, R117). -/
theorem Forest.merges_step {nodes nodes' : List Node} {a b e : Entry} {rest : List Entry}
    (h : Forest nodes (a :: b :: rest))
    (hm : Merges (nodes ++ [innerNode (a.w + b.w) a.i b.i])
      (pqInsert ⟨a.w + b.w, nextIdx nodes⟩ rest).toFinset nodes' e) :
    Merges nodes (a :: b :: rest).toFinset nodes' e := by
  have hnd := rising_nodup h.rising
  rw [List.nodup_cons, List.nodup_cons] at hnd
  have hrise := List.pairwise_cons.mp h.rising
  have hrise' := List.pairwise_cons.mp hrise.2
  have e1 : ((a :: b :: rest).toFinset.erase a) = (b :: rest).toFinset := by
    rw [List.toFinset_cons, Finset.erase_insert (by simpa using hnd.1)]
  have e2 : ((b :: rest).toFinset.erase b) = rest.toFinset := by
    rw [List.toFinset_cons, Finset.erase_insert (by simpa using hnd.2.1)]
  have e3 : (pqInsert ⟨a.w + b.w, nextIdx nodes⟩ rest).toFinset =
      insert ⟨a.w + b.w, nextIdx nodes⟩ rest.toFinset := by
    rw [List.toFinset_eq_of_perm _ _ (pqInsert_perm _ rest), List.toFinset_cons]
  refine .merge (a := a) (b := b) (by simp) ?_ (by rw [e1]; simp) ?_ ?_
  · intro x hx hne
    rw [List.mem_toFinset] at hx
    exact hrise.1 x ((List.mem_cons.mp hx).resolve_left hne)
  · intro x hx hne
    rw [e1, List.mem_toFinset] at hx
    exact hrise'.1 x ((List.mem_cons.mp hx).resolve_left hne)
  · rw [e1, e2, ← e3]
    exact hm

/-- What the merge loop reaches from a forest: it never fails; nothing is queued if nothing was, else one entry,
to which the set of entries merges. -/
theorem Forest.mergeAll {nodes : List Node} {pq : List Entry} (h : Forest nodes pq) {fuel : Nat}
    (hf : pq.length ≤ fuel) :
    ∃ nodes' pq', Machine.mergeAll fuel nodes pq = .ok (nodes', pq') ∧ Forest nodes' pq' ∧
      nodes.IsPrefix nodes' ∧ nodes'.length + pq'.length = nodes.length + pq.length ∧
      (nodes'.filter fun n => n.leaf) = (nodes.filter fun n => n.leaf) ∧
      ((pq = [] ∧ nodes' = nodes ∧ pq' = []) ∨
        ∃ e, pq' = [e] ∧ Merges nodes pq.toFinset nodes' e) := by
  induction fuel generalizing nodes pq with
  | zero =>
    have : pq = [] := List.length_eq_zero_iff.mp (by omega)
    subst this
    exact ⟨nodes, [], rfl, h, List.prefix_refl _, rfl, rfl, .inl ⟨rfl, rfl, rfl⟩⟩
  | succ fuel ih =>
    match pq, h, hf with
    | [], h, _ => exact ⟨nodes, [], rfl, h, List.prefix_refl _, rfl, rfl, .inl ⟨rfl, rfl, rfl⟩⟩
    | [e], h, _ =>
      exact ⟨nodes, [e], rfl, h, List.prefix_refl _, rfl, rfl, .inr ⟨e, rfl, by simpa using Merges.one nodes e⟩⟩
    | a :: b :: rest, h, hf =>
      have hroom := h.room
      simp only [List.length_cons] at hroom hf
      have hcap : nodes.length < Config.nodeCapacity := by simp only [Config.nodeCapacity]; omega
      obtain ⟨nodes', pq', heq, hF, hpre, hlen, hleaf, hend⟩ :=
        ih h.merge (by rw [pqInsert_length]; omega)
      refine ⟨nodes', pq', ?_, hF, (List.prefix_append _ _).trans hpre, ?_, ?_, .inr ?_⟩
      · rw [Machine.mergeAll]
        simp only [pqPopMin, allocNode_of_lt hcap]
        exact heq
      · rw [hlen, List.length_append, pqInsert_length]
        simp only [List.length_cons, List.length_nil]
        omega
      · rw [hleaf, leaves_append_inner]
      · rcases hend with ⟨hnil, -, -⟩ | ⟨e, he, hm⟩
        · have := congrArg List.length hnil
          rw [pqInsert_length] at this
          simp at this
        · exact ⟨e, he, h.merges_step hm⟩

/-- In phase `LOAD` the state is a forest (R45.3, R12). -/
theorem Invariant.forest {s : State} (h : Invariant s) (hp : s.phase = .load) : Forest s.nodes s.pq := by
  have hall : (s.nodes.filter fun n => n.leaf) = s.nodes :=
    List.filter_eq_self.mpr fun n hn => h.loadLeaves hp n hn
  have hn256 : s.nodes.length ≤ 256 := by
    have := leaves_le_256 h.symbolsDistinct h.nodesFit
    rwa [hall] at this
  have hentry : ∀ e ∈ s.pq, ∃ n, nodeAt s.nodes e.i = some n ∧ e.w = n.w := fun e he => by
    obtain ⟨n, hn, -, hw⟩ := h.loadEntries hp e he
    exact ⟨n, hn, hw⟩
  have hnd : (s.pq.map fun e => e.i).Nodup := by
    rw [List.Nodup, List.pairwise_map]
    refine h.queueRising.imp_of_mem fun {a b} ha hb hab he => ?_
    obtain ⟨n, hn, hw⟩ := hentry a ha
    obtain ⟨m, hm, hw'⟩ := hentry b hb
    rw [he, hm] at hn
    cases hn
    have : a = b := by
      cases a
      cases b
      simp_all
    rw [this, Entry.lt_irrefl] at hab
    cases hab
  have hpq : s.pq.length ≤ s.nodes.length := by
    have := nodup_indices_le_length hnd fun i hi => by
      obtain ⟨e, he, rfl⟩ := List.mem_map.mp hi
      obtain ⟨n, hn, -⟩ := hentry e he
      exact ⟨n, hn⟩
    simpa using this
  have hw : ∀ e ∈ s.pq, e.w.toNat ≤ 2 ^ 32 - 1 := fun e he => by
    obtain ⟨n, hn, hl, hw⟩ := h.loadEntries hp e he
    have := h.leafWeights n (nodeAt_mem hn) hl
    rw [hw]
    omega
  refine ⟨h.nodesOk, h.oneParent, h.queuedNoChild, hentry, h.queueRising, ?_, by omega, ?_, h.symbolsDistinct⟩
  · have := List.sum_le_card_nsmul (s.pq.map fun e => e.w.toNat) (2 ^ 32 - 1) (by
      intro x hx
      obtain ⟨e, he, rfl⟩ := List.mem_map.mp hx
      exact hw e he)
    rw [List.length_map, smul_eq_mul] at this
    have : s.pq.length * (2 ^ 32 - 1) ≤ 256 * (2 ^ 32 - 1) := Nat.mul_le_mul_right _ (by omega)
    omega
  · have : (s.nodes.filter fun n => !n.leaf) = [] :=
      List.filter_eq_nil_iff.mpr fun n hn => by simp [h.loadLeaves hp n hn]
    rw [this]
    simp only [List.length_nil]
    omega

/-- The merge loop only adds nodes (20_memory.md R51). -/
theorem mergeAll_prefix {fuel : Nat} {nodes nodes' : List Node} {pq pq' : List Entry}
    (h : mergeAll fuel nodes pq = .ok (nodes', pq')) : ∃ more, nodes' = nodes ++ more := by
  induction fuel generalizing nodes pq with
  | zero =>
    cases h
    exact ⟨[], by simp⟩
  | succ fuel ih =>
    rw [mergeAll] at h
    split at h
    · cases h
      exact ⟨[], by simp⟩
    · split at h
      · cases h
        exact ⟨[], by simp⟩
      · split at h
        · cases h
        · rename_i hal
          obtain ⟨-, rfl⟩ := allocNode_eq_some hal
          obtain ⟨more, hm⟩ := ih h
          exact ⟨_, by rw [hm, List.append_assoc]⟩

end Sys2Proof.Machine
end

