-- ==== Sys2Proof/Laws/CodeGen.lean ====
section
/-! SUPPORT. What GENCODES's traversal gathers (42_codegen.md R130 to R135): the leaves of the tree, each with the
bits of its path; and the bits of a path. -/

namespace Sys2Proof.Machine

/-! ### The table -/

@[simp] theorem tableAt_emptyTable (sym : Symbol) : tableAt emptyTable sym = ⟨0, 0⟩ := by
  simp [tableAt, emptyTable]

theorem tableAt_tableSet (t : CodeTable) (a b : Symbol) (e : CodeEntry) :
    tableAt (tableSet t a e) b = if a = b then e else tableAt t b := by
  simp only [tableAt, tableSet, Vector.getElem_set]
  by_cases h : a = b
  · simp [h]
  · have : a.toNat ≠ b.toNat := fun e => h (BitVec.eq_of_toNat_eq e)
    simp [h, this]

/-! ### The bits of a path -/

/-- The bits gathered along the path `q` from a node of depth `l` whose own bits are `p`. -/
def pathBits (p : CodeBits) (l : Nat) : List Bool → CodeBits
  | [] => p
  | false :: q => pathBits p (l + 1) q
  | true :: q => pathBits (rightPath p l) (l + 1) q

theorem getLsbD_rightPath (p : CodeBits) (l j : Nat) (hl : l < 256) :
    (rightPath p l).getLsbD j = (p.getLsbD j || decide (j = l)) := by
  simp only [rightPath, BitVec.getLsbD_or, BitVec.getLsbD_shiftLeft, BitVec.getLsbD_one]
  congr 1
  by_cases h : j = l
  · subst h
    simp [hl]
  · by_cases hjl : j < l
    · simp [h, hjl]
    · have : j - l ≠ 0 := by omega
      simp [h, this]

theorem getLsbD_pathBits (p : CodeBits) (l : Nat) (q : List Bool) (hq : l + q.length ≤ 256) (j : Nat) :
    (pathBits p l q).getLsbD j = (p.getLsbD j || (decide (l ≤ j) && (q[j - l]?).getD false)) := by
  induction q generalizing p l with
  | nil => simp [pathBits]
  | cons b q ih =>
    simp only [List.length_cons] at hq
    have hnext : (decide (l + 1 ≤ j) && (q[j - (l + 1)]?).getD false) =
        (decide (l < j) && ((b :: q)[j - l]?).getD false) := by
      by_cases h : l + 1 ≤ j
      · have e : j - l = (j - (l + 1)) + 1 := by omega
        rw [e, List.getElem?_cons_succ]
        simp [h, show l < j by omega]
      · have h' : ¬ l < j := by omega
        simp [h, h']
    cases b
    · rw [pathBits, ih p (l + 1) (by omega), hnext]
      by_cases h : l = j
      · subst h
        simp
      · by_cases h' : l < j
        · simp [h', show l ≤ j by omega]
        · simp [h', show ¬ l ≤ j by omega]
    · rw [pathBits, ih _ (l + 1) (by omega), getLsbD_rightPath p l j (by omega), hnext]
      by_cases h : l = j
      · subst h
        simp
      · by_cases h' : l < j
        · simp [h', show l ≤ j by omega, show j ≠ l by omega]
        · simp [h', show ¬ l ≤ j by omega, show j ≠ l by omega]

/-- From the root, the gathered bits are the path's own (R130, 20_memory.md R53). -/
theorem entry_spells {q : List Bool} (hq : q.length ≤ 255) :
    CodeEntry.spells ⟨BitVec.ofNat 8 q.length, pathBits 0 0 q⟩ q := by
  refine ⟨by simp only [BitVec.toNat_ofNat]; omega, fun j => ?_⟩
  rw [getLsbD_pathBits _ _ _ (by omega)]
  simp

/-- An entry that spells a path holds it as its code. -/
theorem CodeEntry.spells.code_eq {e : CodeEntry} {p : List Bool} (h : e.spells p) : e.code = p := by
  refine List.ext_getElem (by simp [CodeEntry.code, h.1]) fun j hj hj' => ?_
  simp [CodeEntry.code, h.2 j, List.getElem?_eq_getElem hj']

/-! ### Gathering the leaves -/

/-- The leaf `e` of a tree whose root has depth `l` and bits `p`, added to what is gathered. -/
def addFrom (p : CodeBits) (l : Nat) (g : Gathered) (e : List Bool × NodeIdx × Node) : Gathered :=
  g.addLeaf e.2.2 (pathBits p l e.1) (l + e.1.length)

/-- The traversal visits the tree's nodes and adds its leaves, left to right. -/
theorem traverse_below {nodes : List Node} {i : NodeIdx} {t : NodeTree} (ht : Below nodes i t) (fuel : Nat)
    (p : CodeBits) (l : Nat) (st : List Visit) (g : Gathered) :
    traverse nodes (t.indices.length + fuel) (⟨i, p, l⟩ :: st) g =
      traverse nodes fuel st (t.leaves.foldl (addFrom p l) g) := by
  induction ht generalizing fuel p l st g with
  | @leaf i n hn hl =>
    rw [NodeTree.indices, List.length_singleton, Nat.add_comm, traverse]
    simp [hn, hl, NodeTree.leaves, addFrom, pathBits]
  | @fork i n tl tr hn hl _ _ ihl ihr =>
    have e : (NodeTree.fork i tl tr).indices.length + fuel =
        (tl.indices.length + (tr.indices.length + fuel)) + 1 := by
      simp only [NodeTree.indices, List.length_cons, List.length_append]
      omega
    rw [e, traverse]
    simp only [hn, hl, Bool.false_eq_true, if_false]
    rw [ihl, ihr]
    congr 1
    simp only [NodeTree.leaves, List.foldl_append, List.foldl_map]
    have hadd : ∀ (g : Gathered) (x : List Bool × NodeIdx × Node) (b : Bool),
        addFrom p l g (b :: x.1, x.2) =
          addFrom (if b then rightPath p l else p) (l + 1) g x := by
      intro g x b
      cases b <;> simp only [addFrom, pathBits, List.length_cons, if_true, if_false, Bool.false_eq_true] <;>
        congr 1 <;> omega
    have h1 : (fun (g : Gathered) (x : List Bool × NodeIdx × Node) => addFrom p l g (false :: x.1, x.2)) =
        addFrom p (l + 1) := by
      funext g x
      rw [hadd]
      simp
    have h2 : (fun (g : Gathered) (x : List Bool × NodeIdx × Node) => addFrom p l g (true :: x.1, x.2)) =
        addFrom (rightPath p l) (l + 1) := by
      funext g x
      rw [hadd]
      simp
    rw [h1, h2]

/-- The count after the leaves `L`. -/
theorem foldl_count (p : CodeBits) (l : Nat) (L : List (List Bool × NodeIdx × Node)) (g : Gathered) :
    (L.foldl (addFrom p l) g).count = g.count + L.length := by
  induction L generalizing g with
  | nil => rfl
  | cons e L ih =>
    rw [List.foldl_cons, ih]
    simp only [addFrom, Gathered.addLeaf, List.length_cons]
    omega

/-- The total after the leaves `L`. -/
theorem foldl_total (p : CodeBits) (l : Nat) (L : List (List Bool × NodeIdx × Node)) (g : Gathered) :
    (L.foldl (addFrom p l) g).total =
      g.total + (L.map fun e => e.2.2.w.toNat * (l + e.1.length)).sum := by
  induction L generalizing g with
  | nil => rfl
  | cons e L ih =>
    rw [List.foldl_cons, ih]
    simp only [addFrom, Gathered.addLeaf, List.map_cons, List.sum_cons]
    omega

/-- A symbol of no leaf in `L` keeps its entry. -/
theorem foldl_table_other (p : CodeBits) (l : Nat) (L : List (List Bool × NodeIdx × Node)) (g : Gathered)
    (sym : Symbol) (h : ∀ e ∈ L, e.2.2.sym ≠ sym) :
    tableAt (L.foldl (addFrom p l) g).table sym = tableAt g.table sym := by
  induction L generalizing g with
  | nil => rfl
  | cons e L ih =>
    rw [List.foldl_cons, ih _ fun x hx => h x (List.mem_cons_of_mem _ hx)]
    simp [addFrom, Gathered.addLeaf, tableAt_tableSet, h e List.mem_cons_self]

/-- Where the leaves' symbols are distinct, each leaf's symbol has its path's entry. -/
theorem foldl_table_mem (p : CodeBits) (l : Nat) (L : List (List Bool × NodeIdx × Node)) (g : Gathered)
    (hd : L.Pairwise fun a b => a.2.2.sym ≠ b.2.2.sym) (e : List Bool × NodeIdx × Node) (he : e ∈ L) :
    tableAt (L.foldl (addFrom p l) g).table e.2.2.sym =
      ⟨BitVec.ofNat 8 (l + e.1.length), pathBits p l e.1⟩ := by
  induction L generalizing g with
  | nil => cases he
  | cons x L ih =>
    rw [List.pairwise_cons] at hd
    rw [List.foldl_cons]
    rcases List.mem_cons.mp he with rfl | he
    · rw [foldl_table_other _ _ _ _ _ fun y hy => (hd.1 y hy).symm]
      simp [addFrom, Gathered.addLeaf, tableAt_tableSet]
    · exact ih _ hd.2 he

/-! ### The codes of a tree of more than one leaf -/

/-- What the rules of a well-formed tree give the traversal (10_state.md R45, 00_scope.md R11). -/
structure TreeRules (nodes : List Node) : Prop where
  ok : NodesOk nodes
  one : OneParent nodes
  distinct : ∀ i j n m, nodeAt nodes i = some n → nodeAt nodes j = some m →
    n.leaf = true → m.leaf = true → n.sym = m.sym → i = j
  fit : nodes.length ≤ 511
  inner : (nodes.filter fun n => !n.leaf).length ≤ 255

theorem Invariant.treeRules {s : State} (h : Invariant s) : TreeRules s.nodes :=
  ⟨h.nodesOk, h.oneParent, h.symbolsDistinct, h.nodesFit, h.innerFit⟩

variable {nodes : List Node} {root : NodeIdx} {t : NodeTree}

theorem TreeRules.forks_le (h : TreeRules nodes) (ht : Below nodes root t) : t.forks.length ≤ 255 := by
  refine Nat.le_trans (nodup_indices_le (P := fun n => !n.leaf) ((forks_sublist t).nodup
    (indices_nodup h.ok h.one ht)) fun i hi => ?_) h.inner
  obtain ⟨n, hn, hl⟩ := forks_inner ht i hi
  exact ⟨n, hn, by simp [hl]⟩

/-- R13: a code is at most 255 bits long. -/
theorem TreeRules.path_le (h : TreeRules nodes) (ht : Below nodes root t) {p : List Bool} {y : NodeIdx}
    (hp : NodePath nodes root p y) : p.length ≤ 255 :=
  Nat.le_trans (follow_length_le ht (path_iff_follow.mp hp)) (h.forks_le ht)

theorem TreeRules.indices_allocated (ht : Below nodes root t) (hok : NodesOk nodes) :
    ∀ y ∈ t.indices, ∃ n, nodeAt nodes y = some n := by
  intro y hy
  obtain ⟨p, hp⟩ := (mem_indices ht y).mp hy
  rcases List.eq_nil_or_concat p with rfl | ⟨q, b, rfl⟩
  · cases hp
    cases ht with
    | leaf hn _ => exact ⟨_, hn⟩
    | fork hn _ _ _ => exact ⟨_, hn⟩
  · rw [List.concat_eq_append] at hp
    obtain ⟨z, -, hz⟩ := follow_snoc.mp hp
    exact child_allocated hok hz

theorem TreeRules.indices_le (h : TreeRules nodes) (ht : Below nodes root t) : t.indices.length ≤ nodes.length :=
  nodup_indices_le_length (indices_nodup h.ok h.one ht) (TreeRules.indices_allocated ht h.ok)

/-- The traversal never runs out of its 511 visits and gathers exactly the tree's leaves. -/
theorem TreeRules.traverse_eq (h : TreeRules nodes) (ht : Below nodes root t) :
    traverse nodes Config.nodeCapacity [⟨root, 0, 0⟩] Gathered.empty =
      .ok (t.leaves.foldl (addFrom 0 0) Gathered.empty) := by
  have hle : t.indices.length ≤ Config.nodeCapacity := Nat.le_trans (h.indices_le ht) h.fit
  obtain ⟨k, hk⟩ := Nat.exists_eq_add_of_le hle
  rw [hk, traverse_below ht]
  cases k <;> rfl

theorem TreeRules.leaves_distinct (h : TreeRules nodes) (ht : Below nodes root t) :
    t.leaves.Pairwise fun a b => a.2.2.sym ≠ b.2.2.sym := by
  have hnd := (leaves_sublist t).nodup (indices_nodup h.ok h.one ht)
  rw [List.Nodup, List.pairwise_map] at hnd
  refine (List.pairwise_iff_forall_sublist.mpr fun {a b} hab => ?_)
  have hmem : ∀ x, x ∈ [a, b] → x ∈ t.leaves := fun x hx => hab.subset hx
  obtain ⟨-, ha, hal⟩ := (mem_leaves ht a.1 a.2.1 a.2.2).mp (hmem a (by simp))
  obtain ⟨-, hb, hbl⟩ := (mem_leaves ht b.1 b.2.1 b.2.2).mp (hmem b (by simp))
  intro hs
  have := h.distinct _ _ _ _ ha hb hal hbl hs
  exact (List.pairwise_iff_forall_sublist.mp hnd hab) this

/-- R130: a symbol's code is the path to its leaf. -/
theorem TreeRules.entry_of_code (h : TreeRules nodes) (ht : Below nodes root t) {sym : Symbol} {p : List Bool}
    (hc : HasCode nodes root sym p) :
    tableAt (t.leaves.foldl (addFrom 0 0) Gathered.empty).table sym =
      ⟨BitVec.ofNat 8 p.length, pathBits 0 0 p⟩ := by
  obtain ⟨y, n, hp, hn, hl, rfl⟩ := hc
  have he := (mem_leaves ht p y n).mpr ⟨path_iff_follow.mp hp, hn, hl⟩
  have := foldl_table_mem 0 0 t.leaves Gathered.empty (h.leaves_distinct ht) (p, y, n) he
  simpa using this

/-- R130: a symbol of no leaf below the root has no code. -/
theorem TreeRules.entry_of_no_code (ht : Below nodes root t) {sym : Symbol}
    (hc : ∀ p, ¬ HasCode nodes root sym p) :
    tableAt (t.leaves.foldl (addFrom 0 0) Gathered.empty).table sym = ⟨0, 0⟩ := by
  rw [foldl_table_other]
  · simp [Gathered.empty]
  · rintro ⟨p, y, n⟩ he rfl
    obtain ⟨h1, h2, h3⟩ := (mem_leaves ht p y n).mp he
    exact hc p ⟨y, n, path_iff_follow.mpr h1, h2, h3, rfl⟩

/-- A tree has at most as many leaves as the store (R10). -/
theorem TreeRules.leaves_le (h : TreeRules nodes) (ht : Below nodes root t) : t.leaves.length ≤ 256 := by
  have := nodup_indices_le (nodes := nodes) (P := fun n => n.leaf)
    ((leaves_sublist t).nodup (indices_nodup h.ok h.one ht)) fun i hi => by
      obtain ⟨e, he, rfl⟩ := List.mem_map.mp hi
      obtain ⟨-, h1, h2⟩ := (mem_leaves ht e.1 e.2.1 e.2.2).mp he
      exact ⟨_, h1, h2⟩
  rw [List.length_map] at this
  exact Nat.le_trans this (leaves_le_256 h.distinct h.fit)

end Sys2Proof.Machine
end

