-- ==== Sys2Proof/Laws/Commands.lean ====
section
/-! SUPPORT. What each command's own pseudocode can do, once: complete with a named state, or fault for a named
cause; and the fields no command touches. -/

namespace Sys2Proof.Machine

theorem pushleafBody_ok {sym : Symbol} {s s' : State} (h : pushleafBody sym s = .ok s') :
    leafWeight s.dataL ≠ 0 ∧ seen s.symSeen sym = false ∧ s.nodes.length < Config.nodeCapacity ∧
    s' = { s with
      nodes := s.nodes ++ [leafNode sym (leafWeight s.dataL)], symSeen := markSeen s.symSeen sym,
      pq := pqInsert ⟨leafWeight s.dataL, nextIdx s.nodes⟩ s.pq, res0 := idxWord (nextIdx s.nodes) } := by
  unfold pushleafBody at h
  dsimp only at h
  split at h
  · cases h
  · split at h
    · cases h
    · rename_i hw hs
      split at h
      · cases h
      · rename_i nodes hn
        obtain ⟨hlt, rfl⟩ := allocNode_eq_some hn
        cases h
        exact ⟨hw, by simpa using hs, hlt, rfl⟩

theorem pushleafBody_error {sym : Symbol} {s : State} {e : ErrCode} (h : pushleafBody sym s = .error e) :
    (e = .badWeight ∧ leafWeight s.dataL = 0) ∨ (e = .dupSym ∧ seen s.symSeen sym = true) := by
  unfold pushleafBody at h
  dsimp only at h
  split at h
  · cases h
    exact .inl ⟨rfl, ‹_›⟩
  · split at h
    · cases h
      exact .inr ⟨rfl, ‹_›⟩
    · split at h <;> cases h

theorem pqpopBody_ok {s s' : State} (h : pqpopBody s = .ok s') :
    ∃ e rest n, s.pq = e :: rest ∧ nodeAt s.nodes e.i = some n ∧
      s' = { s with
        pq := rest, res0 := idxWord e.i, res1 := weightLow e.w, res2 := nodeTagWord n.leaf n.sym e.w } := by
  unfold pqpopBody pqPopMin at h
  cases hp : s.pq with
  | nil => simp [hp] at h
  | cons e rest =>
    simp only [hp] at h
    split at h
    · cases h
    · cases h
      exact ⟨e, rest, _, rfl, ‹_›, rfl⟩

theorem pqpopBody_error {s : State} {e : ErrCode} (h : pqpopBody s = .error e) : e = .emptyPop ∧ s.pq = [] := by
  unfold pqpopBody pqPopMin at h
  cases hp : s.pq with
  | nil =>
    simp only [hp] at h
    cases h
    exact ⟨rfl, rfl⟩
  | cons x rest =>
    simp only [hp] at h
    split at h <;> cases h

theorem buildBody_ok {s s' : State} (h : buildBody s = .ok s') :
    ∃ nodes pq, mergeAll s.pq.length s.nodes s.pq = .ok (nodes, pq) ∧
      ((pq = [] ∧ s' = s.builtEmpty nodes) ∨
        ∃ e rest n, pq = e :: rest ∧ nodeAt nodes e.i = some n ∧ s' = s.builtTree nodes e n) := by
  unfold buildBody at h
  split at h
  · cases h
  · rename_i nodes pq hm
    refine ⟨nodes, pq, hm, ?_⟩
    cases pq with
    | nil =>
      cases h
      exact .inl ⟨rfl, rfl⟩
    | cons e rest =>
      simp only [pqPopMin] at h
      split at h
      · cases h
      · cases h
        exact .inr ⟨e, rest, _, rfl, ‹_›, rfl⟩

theorem buildBody_no_error {s : State} {e : ErrCode} : buildBody s ≠ .error e := by
  intro h
  unfold buildBody at h
  split at h
  · cases h
  · split at h
    · cases h
    · split at h <;> cases h

theorem gencodesBody_ok {s s' : State} (h : gencodesBody s = .ok s') :
    ∃ g, gatherCodes s = .ok g ∧ s' = s.withCodes g := by
  unfold gencodesBody at h
  split at h
  · cases h
  · cases h
    exact ⟨_, ‹_›, rfl⟩

theorem gencodesBody_no_error {s : State} {e : ErrCode} : gencodesBody s ≠ .error e := by
  intro h
  unfold gencodesBody at h
  split at h <;> cases h

theorem lookupBody_ok {sym : Symbol} {k : BitVec 3} {s s' : State} (h : lookupBody sym k s = .ok s') :
    ∃ t, s.ct = some t ∧ (tableAt t sym).len ≠ 0 ∧
      s' = { s with res0 := (tableAt t sym).len.setWidth 32, res1 := codeWord (tableAt t sym).bits k } := by
  unfold lookupBody at h
  split at h
  · cases h
  · rename_i t ht
    dsimp only at h
    split at h
    · cases h
    · cases h
      exact ⟨t, ht, ‹_›, rfl⟩

theorem lookupBody_error {sym : Symbol} {k : BitVec 3} {s : State} {e : ErrCode} (h : lookupBody sym k s = .error e) :
    e = .codeMiss ∧ ∃ t, s.ct = some t ∧ (tableAt t sym).len = 0 := by
  unfold lookupBody at h
  split at h
  · cases h
  · rename_i t ht
    dsimp only at h
    split at h
    · cases h
      exact ⟨rfl, t, ht, ‹_›⟩
    · cases h

theorem decodeBody_ok {n : Nat} {s s' : State} (h : decodeBody n s = .ok s') :
    s.treeValid = true ∧ ∃ w, s' = s.afterWalk w ∧
      (if s.single then walkSingle s.nodes s.root n ⟨s.ptr, []⟩
        else walkBits s.nodes s.root (chunkBits n s.dataL) ⟨s.ptr, []⟩) = .walked w := by
  unfold decodeBody at h
  split at h
  · cases h
  · rename_i ht
    refine ⟨by simpa using ht, ?_⟩
    split at h
    · cases h
      exact ⟨_, rfl, ‹_›⟩
    · cases h
    · cases h

theorem decodeBody_error {n : Nat} {s : State} {e : ErrCode} (h : decodeBody n s = .error e) :
    e = .malformed ∧ (s.treeValid = false ∨
      (s.single = false ∧ walkBits s.nodes s.root (chunkBits n s.dataL) ⟨s.ptr, []⟩ = .malformed)) := by
  unfold decodeBody at h
  split at h
  · rename_i ht
    cases h
    exact ⟨rfl, .inl (by simpa using ht)⟩
  · split at h
    · cases h
    · rename_i hw
      cases h
      refine ⟨rfl, .inr ?_⟩
      cases hs : s.single with
      | false => simpa [hs] using hw
      | true =>
        simp only [hs, if_true, walkSingle] at hw
        split at hw <;> cases hw
    · cases h

theorem decendBody_ok {s s' : State} (h : decendBody s = .ok s') : s' = s := by
  unfold decendBody at h
  split at h
  · cases h
  · cases h
    rfl

theorem decendBody_error {s : State} {e : ErrCode} (h : decendBody s = .error e) :
    e = .midCode ∧ s.treeValid = true ∧ s.single = false ∧ s.ptr ≠ s.root := by
  unfold decendBody State.atRoot at h
  split at h
  · rename_i hc
    cases h
    simp only [Bool.and_eq_true, Bool.not_eq_true', beq_eq_false_iff_ne] at hc
    exact ⟨rfl, hc.1.1, hc.1.2, hc.2⟩
  · cases h

theorem readnodeBody_ok {idx : NodeIdx} {s s' : State} (h : readnodeBody idx s = .ok s') :
    ∃ n, nodeAt s.nodes idx = some n ∧
      s' = { s with res0 := childrenWord n, res1 := weightLow n.w, res2 := nodeTagWord n.leaf n.sym n.w } := by
  unfold readnodeBody at h
  split at h
  · cases h
  · cases h
    exact ⟨_, ‹_›, rfl⟩

theorem readnodeBody_error {idx : NodeIdx} {s : State} {e : ErrCode} (h : readnodeBody idx s = .error e) :
    e = .badIndex ∧ s.nodes.length ≤ idx.toNat := by
  unfold readnodeBody at h
  split at h
  · rename_i hn
    cases h
    exact ⟨rfl, List.getElem?_eq_none_iff.mp hn⟩
  · cases h

/-- The fields no command's pseudocode touches. -/
structure SameOutside (s s' : State) : Prop where
  data : s'.data = s.data
  intEn : s'.intEn = s.intEn
  intStat : s'.intStat = s.intStat
  busy : s'.busy = s.busy
  cmdL : s'.cmdL = s.cmdL
  dataL : s'.dataL = s.dataL
  inputs : s'.inputs = s.inputs
  reply : s'.reply = s.reply
  freeCount : s'.freeCount = s.freeCount

theorem bodyOf_ok_outside {i : Instr} {s s' : State} (h : bodyOf i s = .ok s') : SameOutside s s' := by
  cases i with
  | nop => cases h; constructor <;> rfl
  | clear => cases h; constructor <;> rfl
  | pushleaf sym => obtain ⟨-, -, -, rfl⟩ := pushleafBody_ok h; constructor <;> rfl
  | pqpop => obtain ⟨_, _, _, -, -, rfl⟩ := pqpopBody_ok h; constructor <;> rfl
  | build =>
    obtain ⟨_, _, -, ⟨-, rfl⟩ | ⟨_, _, _, -, -, rfl⟩⟩ := buildBody_ok h <;> constructor <;> rfl
  | gencodes => obtain ⟨_, -, rfl⟩ := gencodesBody_ok h; constructor <;> rfl
  | lookup sym k => obtain ⟨_, -, -, rfl⟩ := lookupBody_ok h; constructor <;> rfl
  | decode n => obtain ⟨-, _, rfl, -⟩ := decodeBody_ok h; constructor <;> rfl
  | decend => rw [decendBody_ok h]; constructor <;> rfl
  | decrst => cases h; constructor <;> rfl
  | readnode idx => obtain ⟨_, -, rfl⟩ := readnodeBody_ok h; constructor <;> rfl

/-- A command that completes leaves the error record as it is, but for CLEAR, which empties it. -/
theorem bodyOf_ok_error {i : Instr} {s s' : State} (h : bodyOf i s = .ok s') :
    (i ≠ .clear → s'.errCode = s.errCode ∧ s'.errCmd = s.errCmd) ∧
    (i = .clear → s'.errCode = .noError ∧ s'.errCmd = 0) := by
  cases i with
  | nop => cases h; simp
  | clear => cases h; simp [State.newSession]
  | pushleaf sym => obtain ⟨-, -, -, rfl⟩ := pushleafBody_ok h; simp
  | pqpop => obtain ⟨_, _, _, -, -, rfl⟩ := pqpopBody_ok h; simp
  | build =>
    obtain ⟨_, _, -, ⟨-, rfl⟩ | ⟨_, _, _, -, -, rfl⟩⟩ := buildBody_ok h <;>
      simp [State.builtEmpty, State.builtTree]
  | gencodes => obtain ⟨_, -, rfl⟩ := gencodesBody_ok h; simp [State.withCodes]
  | lookup sym k => obtain ⟨_, -, -, rfl⟩ := lookupBody_ok h; simp
  | decode n => obtain ⟨-, _, rfl, -⟩ := decodeBody_ok h; simp [State.afterWalk]
  | decend => rw [decendBody_ok h]; simp
  | decrst => cases h; simp
  | readnode idx => obtain ⟨_, -, rfl⟩ := readnodeBody_ok h; simp

/-- The fault a command raises is one of its own, never `E_NONE`, `E_PHASE`, `E_ILLEGAL` or `E_BUSY`. -/
theorem bodyOf_error {i : Instr} {s : State} {e : ErrCode} (h : bodyOf i s = .error e) :
    (e = .emptyPop ∧ i = .pqpop) ∨ (e = .codeMiss ∧ ∃ sym k, i = .lookup sym k) ∨
    (e = .malformed ∧ ∃ n, i = .decode n) ∨ (e = .midCode ∧ i = .decend) ∨
    ((e = .dupSym ∨ e = .badWeight) ∧ ∃ sym, i = .pushleaf sym) ∨ (e = .badIndex ∧ ∃ idx, i = .readnode idx) := by
  cases i with
  | nop => cases h
  | clear => cases h
  | pushleaf sym => obtain ⟨rfl, -⟩ | ⟨rfl, -⟩ := pushleafBody_error h <;> simp
  | pqpop => simp [(pqpopBody_error h).1]
  | build => exact absurd h buildBody_no_error
  | gencodes => exact absurd h gencodesBody_no_error
  | lookup sym k => simp [(lookupBody_error h).1]
  | decode n => simp [(decodeBody_error h).1]
  | decend => simp [(decendBody_error h).1]
  | decrst => cases h
  | readnode idx => simp [(readnodeBody_error h).1]

theorem bodyOf_error_ne {i : Instr} {s : State} {e : ErrCode} (h : bodyOf i s = .error e) :
    e ≠ .noError ∧ e ≠ .badPhase ∧ e ≠ .illegal ∧ e ≠ .busy := by
  rcases bodyOf_error h with ⟨rfl, -⟩ | ⟨rfl, -⟩ | ⟨rfl, -⟩ | ⟨rfl, -⟩ | ⟨rfl | rfl, -⟩ | ⟨rfl, -⟩ <;> decide

/-- Everything `exec` can do when it answers a next state. -/
theorem exec_next {i : Instr} {s t : State} (h : exec i s = .next t) :
    (∃ s', legal i.op s.phase s.ctValid = true ∧ bodyOf i s = .ok s' ∧ t = s'.setDone) ∨
    (∃ e, e ≠ .noError ∧ t = recordError e s.cmdL s ∧
      ((legal i.op s.phase s.ctValid = false ∧ e = .badPhase) ∨
        (legal i.op s.phase s.ctValid = true ∧ bodyOf i s = .error e))) := by
  rw [exec_eq_attempt] at h
  rcases attempt_next h with h | ⟨hl, rfl⟩ | ⟨e, hl, hb, rfl⟩
  · exact .inl h
  · exact .inr ⟨.badPhase, by decide, rfl, .inl ⟨hl, rfl⟩⟩
  · exact .inr ⟨e, (bodyOf_error_ne hb).1, rfl, .inr ⟨hl, hb⟩⟩

end Sys2Proof.Machine
end

