-- ==== Sys2Proof/Laws/Decode.lean ====
section
/-! SUPPORT. What the decoder can do, once: the row a word selects is the only one (30_encoding.md R74); and the bits
of a field of a word. -/

namespace Sys2Proof

theorem Row.selectedBy_iff {r : Row} {c : Word} : r.selectedBy c = true ↔ c &&& r.mask = r.bits := by
  simp [Row.selectedBy]

/-- No word selects two rows: two rows differ in a bit that both fix. -/
theorem opcodeMap_disjoint :
    opcodeMap.Pairwise fun r r' => (r.bits ^^^ r'.bits) &&& (r.mask &&& r'.mask) ≠ 0 := by decide

theorem not_selected_twice {r r' : Row} {c : Word} (hd : (r.bits ^^^ r'.bits) &&& (r.mask &&& r'.mask) ≠ 0)
    (h : r.selectedBy c = true) (h' : r'.selectedBy c = true) : False := by
  rw [Row.selectedBy_iff] at h h'
  apply hd
  rw [← h, ← h']
  refine BitVec.eq_of_getLsbD_eq fun i _ => ?_
  simp only [BitVec.getLsbD_xor, BitVec.getLsbD_and, BitVec.ofNat_eq_ofNat, BitVec.getLsbD_zero]
  cases c.getLsbD i <;> cases r.mask.getLsbD i <;> cases r'.mask.getLsbD i <;> rfl

theorem decodeWith_ok {rows : List Row} {c : Word} {i : Instr} (h : decodeWith rows c = .ok i) :
    ∃ r ∈ rows, r.selectedBy c = true ∧ i = assemble r.op c := by
  induction rows with
  | nil => cases h
  | cons r rest ih =>
    rw [decodeWith] at h
    by_cases hs : r.selectedBy c = true
    · rw [if_pos hs] at h
      cases h
      exact ⟨r, List.mem_cons_self, hs, rfl⟩
    · rw [if_neg hs] at h
      obtain ⟨r', hm, h'⟩ := ih h
      exact ⟨r', List.mem_cons_of_mem _ hm, h'⟩

theorem decodeWith_of_selected {rows : List Row} {c : Word} {r : Row}
    (hd : rows.Pairwise fun r r' => (r.bits ^^^ r'.bits) &&& (r.mask &&& r'.mask) ≠ 0)
    (hm : r ∈ rows) (hs : r.selectedBy c = true) : decodeWith rows c = .ok (assemble r.op c) := by
  induction rows with
  | nil => cases hm
  | cons r' rest ih =>
    rw [List.pairwise_cons] at hd
    rw [decodeWith]
    by_cases hs' : r'.selectedBy c = true
    · rcases List.mem_cons.mp hm with rfl | hm
      · rw [if_pos hs]
      · exact (not_selected_twice (hd.1 r hm) hs' hs).elim
    · rw [if_neg hs']
      rcases List.mem_cons.mp hm with rfl | hm
      · exact absurd hs hs'
      · exact ih hd.2 hm

theorem decodeWith_error {rows : List Row} {c : Word} (h : ∀ r ∈ rows, r.selectedBy c = false) :
    decodeWith rows c = .error (if opcField c ≤ 0xA then .reservedBit else .reservedOpcode) := by
  induction rows with
  | nil => rfl
  | cons r rest ih =>
    rw [decodeWith, h r List.mem_cons_self]
    exact ih fun r' hm => h r' (List.mem_cons_of_mem _ hm)

/-- A word decodes to the command of the row it selects, and to no other (R74, R75). -/
theorem decode_ok_iff {c : Word} {i : Instr} :
    decode c = .ok i ↔ ∃ r ∈ opcodeMap, r.selectedBy c = true ∧ i = assemble r.op c := by
  constructor
  · exact decodeWith_ok
  · rintro ⟨r, hm, hs, rfl⟩
    exact decodeWith_of_selected opcodeMap_disjoint hm hs

/-- A word that selects no row is ILLEGAL, by its opcode or by a reserved bit (R76). -/
theorem decode_error_iff {c : Word} {w : Illegal} :
    decode c = .error w ↔ (∀ r ∈ opcodeMap, r.selectedBy c = false) ∧
      w = if opcField c ≤ 0xA then .reservedBit else .reservedOpcode := by
  constructor
  · intro h
    have hno : ∀ r ∈ opcodeMap, r.selectedBy c = false := fun r hm => by
      cases hs : r.selectedBy c with
      | false => rfl
      | true =>
        have := decodeWith_of_selected opcodeMap_disjoint hm hs
        rw [decode, this] at h
        cases h
    refine ⟨hno, ?_⟩
    rw [decode, decodeWith_error hno] at h
    cases h
    rfl
  · rintro ⟨hno, rfl⟩
    exact decodeWith_error hno

/-- A word is its bits outside a mask and its bits inside. -/
theorem word_split {c m b f : Word} (h : c &&& m = b) (hf : c &&& ~~~m = f) : c = f ||| b := by
  subst h hf
  refine BitVec.eq_of_getLsbD_eq fun i hi => ?_
  simp only [BitVec.getLsbD_or, BitVec.getLsbD_and, BitVec.getLsbD_not, hi, decide_true, Bool.true_and]
  cases c.getLsbD i <;> cases m.getLsbD i <;> rfl

/-- The `w` bits from `st` on, cut out by a mask, are the field put back in its place. -/
theorem masked_field (c m : Word) (w st : Nat)
    (hm : ∀ i, i < 32 → (~~~m).getLsbD i = decide (st ≤ i ∧ i < st + w)) :
    c &&& ~~~m = (c.extractLsb' st w).setWidth 32 <<< st := by
  refine BitVec.eq_of_getLsbD_eq fun i hi => ?_
  rw [BitVec.getLsbD_and, hm i hi]
  simp only [BitVec.getLsbD_shiftLeft, BitVec.getLsbD_setWidth, BitVec.getLsbD_extractLsb', hi, decide_true,
    Bool.true_and]
  by_cases h : st ≤ i
  · have e : st + (i - st) = i := by omega
    have h32 : i - st < 32 := by omega
    have hlt : (i < st + w) = (i - st < w) := by rw [eq_iff_iff]; omega
    have h' : ¬ i < st := by omega
    simp only [h, h', h32, hlt, e, true_and, decide_true, decide_false, Bool.not_false, Bool.true_and, Bool.and_comm]
  · have h' : i < st := by omega
    simp [h, h']

theorem masked_sym (c : Word) : c &&& ~~~(0xFFFF00FF : Word) = placeSym (symField c) :=
  masked_field c _ 8 8 (by decide)

theorem masked_k (c : Word) : c &&& ~~~(0xFFFFFF8F : Word) = placeK (kField c) := masked_field c _ 3 4 (by decide)

theorem masked_cnt (c : Word) : c &&& ~~~(0xFFE0FFFF : Word) = placeCnt ((cntField c).toNat + 1) := by
  rw [placeCnt, Nat.add_sub_cancel, BitVec.ofNat_toNat, BitVec.setWidth_eq]
  exact masked_field c _ 5 16 (by decide)

theorem masked_idx (c : Word) : c &&& ~~~(0xFE00FFFF : Word) = placeIdx (idxField c) :=
  masked_field c _ 9 16 (by decide)

theorem masked_sym_k (c : Word) : c &&& ~~~(0xFFFF008F : Word) = placeSym (symField c) ||| placeK (kField c) := by
  rw [← masked_sym, ← masked_k, show (~~~(0xFFFF008F : Word)) = ~~~0xFFFF00FF ||| ~~~0xFFFFFF8F from by decide,
    BitVec.and_or_distrib_left]

/-- The decoder gives well-formed commands only (R73). -/
theorem decode_wellFormed {c : Word} {i : Instr} (h : decode c = .ok i) : i.wellFormed = true := by
  obtain ⟨r, -, -, rfl⟩ := decode_ok_iff.mp h
  cases r.op <;> simp only [assemble, Instr.wellFormed, Bool.and_eq_true, decide_eq_true_eq]
  omega

/-- CLEAR has one word (R74). -/
theorem decode_clear_iff {c : Word} : decode c = .ok .clear ↔ c = 0x00000001 := by
  constructor
  · intro h
    obtain ⟨r, hm, hs, ha⟩ := decode_ok_iff.mp h
    rw [Row.selectedBy_iff] at hs
    simp only [opcodeMap, List.mem_cons, List.not_mem_nil, or_false] at hm
    rcases hm with rfl | rfl | rfl | rfl | rfl | rfl | rfl | rfl | rfl | rfl | rfl
    all_goals try (cases ha; done)
    simpa using word_split hs (f := 0) (by simp)
  · rintro rfl
    decide

end Sys2Proof
end

