-- ==== Sys2Proof/Laws/Decoder.lean ====
section
/-! SUPPORT. What the walker can do in a well-formed tree of more than one leaf (43_decode.md R147, R152, R155). -/

namespace Sys2Proof.Machine

variable {nodes : List Node} {root : NodeIdx}

/-- `NODE[x]` is an internal node. -/
def InnerAt (nodes : List Node) (x : NodeIdx) : Prop := ∃ n, nodeAt nodes x = some n ∧ n.leaf = false

/-- An allocated index is not NIL (00_scope.md R8). -/
theorem ne_nil_of_allocated (hfit : nodes.length ≤ 511) {x : NodeIdx} {n : Node} (h : nodeAt nodes x = some n) :
    x ≠ nil := by
  rintro rfl
  have := nodeAt_lt h
  have e : (nil : NodeIdx).toNat = 511 := rfl
  omega

/-- One bit from an internal node: neither guard of R152 fires. -/
theorem walkBit_inner (hok : NodesOk nodes) (hfit : nodes.length ≤ 511) {x : NodeIdx} (hx : InnerAt nodes x)
    (b : Bool) (out : List Symbol) :
    ∃ y m, child nodes x b = some y ∧ nodeAt nodes y = some m ∧
      walkBit nodes root b ⟨x, out⟩ = .walked (if m.leaf then ⟨root, out ++ [m.sym]⟩ else ⟨y, out⟩) := by
  obtain ⟨n, hn, hl⟩ := hx
  have hc : child nodes x b = some (if b then n.right else n.left) := child_eq_some.mpr ⟨n, hn, hl, rfl⟩
  obtain ⟨m, hm⟩ := child_allocated hok hc
  refine ⟨_, m, hc, hm, ?_⟩
  unfold walkBit
  simp only [hn, hl, Bool.false_eq_true, if_false]
  rw [if_neg (ne_nil_of_allocated hfit hm), hm]
  cases hml : m.leaf <;> simp [hml]

theorem walkBits_append (bs cs : List Bool) (w : Walk) :
    walkBits nodes root (bs ++ cs) w =
      match walkBits nodes root bs w with
      | .walked w' => walkBits nodes root cs w'
      | .malformed => .malformed
      | .broken f => .broken f := by
  induction bs generalizing w with
  | nil => rfl
  | cons b bs ih =>
    simp only [List.cons_append, walkBits]
    cases walkBit nodes root b w with
    | walked w' => exact ih w'
    | malformed => rfl
    | broken f => rfl

/-- A chunk from an internal node, reached by `p`: it never fails, and the bits `p ++ bs` are the codes of the
symbols emitted, in order, and then the path to where the walk stands. -/
theorem walkBits_inner (hok : NodesOk nodes) (hfit : nodes.length ≤ 511) (hroot : InnerAt nodes root)
    (bs : List Bool) {p : List Bool} {x : NodeIdx} (hp : NodePath nodes root p x) (hx : InnerAt nodes x)
    (out : List Symbol) :
    ∃ y syms codes p', walkBits nodes root bs ⟨x, out⟩ = .walked ⟨y, out ++ syms⟩ ∧
      NodePath nodes root p' y ∧ InnerAt nodes y ∧ List.Forall₂ (HasCode nodes root) syms codes ∧
      p ++ bs = codes.flatten ++ p' ∧ syms.length ≤ bs.length := by
  induction bs generalizing p x out with
  | nil => exact ⟨x, [], [], p, by simp [walkBits], hp, hx, .nil, by simp, by simp⟩
  | cons b bs ih =>
    obtain ⟨y, m, hc, hm, hw⟩ := walkBit_inner (root := root) hok hfit hx b out
    have hpy : NodePath nodes root (p ++ [b]) y :=
      path_iff_follow.mpr (follow_snoc.mpr ⟨x, path_iff_follow.mp hp, hc⟩)
    cases hl : m.leaf with
    | true =>
      obtain ⟨z, syms, codes, p', h1, h2, h3, h4, h5, h6⟩ := ih (.root) hroot (out ++ [m.sym])
      refine ⟨z, m.sym :: syms, (p ++ [b]) :: codes, p', ?_, h2, h3, .cons ⟨y, m, hpy, hm, hl, rfl⟩ h4, ?_, ?_⟩
      · simp only [walkBits, hw, hl, if_true, h1, List.append_assoc, List.singleton_append]
      · rw [List.nil_append] at h5
        simp [h5]
      · simpa using h6
    | false =>
      obtain ⟨z, syms, codes, p', h1, h2, h3, h4, h5, h6⟩ := ih hpy ⟨m, hm, hl⟩ out
      refine ⟨z, syms, codes, p', ?_, h2, h3, h4, ?_, ?_⟩
      · simp only [walkBits, hw, hl, Bool.false_eq_true, if_false, h1]
      · rw [← h5]
        simp
      · simp only [List.length_cons]
        omega

/-- The walk along a path from an internal node to a leaf emits the leaf's symbol at the last bit. -/
theorem walkBits_to_leaf (hok : NodesOk nodes) (hfit : nodes.length ≤ 511) {y : NodeIdx} {m : Node}
    (hm : nodeAt nodes y = some m) (hl : m.leaf = true) (q : List Bool) {x : NodeIdx} (hx : InnerAt nodes x)
    (hq : follow nodes x q = some y) (out : List Symbol) :
    walkBits nodes root q ⟨x, out⟩ = .walked ⟨root, out ++ [m.sym]⟩ := by
  induction q generalizing x with
  | nil =>
    cases hq
    obtain ⟨n, hn, hnl⟩ := hx
    rw [hm] at hn
    cases hn
    rw [hl] at hnl
    cases hnl
  | cons b q ih =>
    obtain ⟨z, k, hc, hk, hw⟩ := walkBit_inner (root := root) hok hfit hx b out
    rw [follow, hc, Option.bind_some] at hq
    cases hkl : k.leaf with
    | true =>
      cases q with
      | nil =>
        cases hq
        rw [hm] at hk
        cases hk
        simp [walkBits, hw, hl]
      | cons b' q => simp [follow, child, hk, hkl] at hq
    | false =>
      simp only [walkBits, hw, hkl, Bool.false_eq_true, if_false]
      exact ih ⟨k, hk, hkl⟩ hq

/-- The codes of a sequence of symbols decode to it, and the walker is back at the root (R155). -/
theorem walkBits_codes (hok : NodesOk nodes) (hfit : nodes.length ≤ 511) (hroot : InnerAt nodes root)
    {syms : List Symbol} {codes : List (List Bool)} (h : List.Forall₂ (HasCode nodes root) syms codes)
    (out : List Symbol) :
    walkBits nodes root codes.flatten ⟨root, out⟩ = .walked ⟨root, out ++ syms⟩ := by
  induction h generalizing out with
  | nil => simp [walkBits]
  | @cons sym code syms codes hc _ ih =>
    obtain ⟨y, m, hp, hm, hl, rfl⟩ := hc
    rw [List.flatten_cons, walkBits_append, walkBits_to_leaf hok hfit hm hl code hroot (path_iff_follow.mp hp)]
    simp only [ih, List.append_assoc, List.singleton_append]

/-- The symbols already emitted do not steer the walk. -/
theorem walkBits_out (bs : List Bool) (x : NodeIdx) (out : List Symbol) :
    walkBits nodes root bs ⟨x, out⟩ =
      match walkBits nodes root bs ⟨x, []⟩ with
      | .walked w => .walked ⟨w.at_, out ++ w.out⟩
      | .malformed => .malformed
      | .broken f => .broken f := by
  have hbit : ∀ (b : Bool) (x : NodeIdx) (out : List Symbol),
      walkBit nodes root b ⟨x, out⟩ =
        match walkBit nodes root b ⟨x, []⟩ with
        | .walked w => .walked ⟨w.at_, out ++ w.out⟩
        | .malformed => .malformed
        | .broken f => .broken f := by
    intro b x out
    simp only [walkBit]
    cases nodeAt nodes x with
    | none => rfl
    | some n =>
      simp only
      generalize (if b = true then n.right else n.left) = q
      by_cases hl : n.leaf = true
      · simp [hl]
      · by_cases hq : q = nil
        · simp [hl, hq]
        · simp only [hl, hq, Bool.false_eq_true, if_false]
          cases nodeAt nodes q with
          | none => rfl
          | some m => cases h : m.leaf <;> simp [h]
  induction bs generalizing x out with
  | nil => simp [walkBits]
  | cons b bs ih =>
    simp only [walkBits]
    rw [hbit]
    cases walkBit nodes root b ⟨x, []⟩ with
    | walked w =>
      simp only
      rw [ih w.at_ (out ++ w.out), ih w.at_ w.out]
      cases walkBits nodes root bs ⟨w.at_, []⟩ with
      | walked w' => simp
      | malformed => rfl
      | broken f => rfl
    | malformed => rfl
    | broken f => rfl

end Sys2Proof.Machine
end

