-- ==== Sys2Proof/Laws/Invariant.lean ====
section
/-! SUPPORT. The invariant and the commands: which fields it reads, what each command's pseudocode does to it, and
that no pseudocode fails in it (10_state.md R45). -/

namespace Sys2Proof.Machine

/-- The fields of the session that the invariant reads. -/
structure SameSession (s t : State) : Prop where
  phase : t.phase = s.phase
  nodes : t.nodes = s.nodes
  pq : t.pq = s.pq
  symSeen : t.symSeen = s.symSeen
  root : t.root = s.root
  ptr : t.ptr = s.ptr
  treeValid : t.treeValid = s.treeValid
  single : t.single = s.single
  ct : t.ct = s.ct
  ob : t.ob = s.ob

theorem gatherCodes_congr {s t : State} (hn : t.nodes = s.nodes) (hr : t.root = s.root)
    (hv : t.treeValid = s.treeValid) (hs : t.single = s.single) : gatherCodes t = gatherCodes s := by
  simp only [gatherCodes, hn, hr, hv, hs]

/-- A change outside the session keeps the invariant if it keeps the error record's rule. -/
theorem Invariant.of_sameSession {s t : State} (h : Invariant s) (hs : SameSession s t)
    (he : t.errCode = .noError → t.errCmd = 0) : Invariant t := by
  obtain ⟨h1, h2, h3, h4, h5, h6, h7, h8, h9, h10⟩ := hs
  obtain ⟨hr, a, b, c, d, e, f, g, i, j, k, -⟩ := h
  obtain ⟨r1, r2, r3, r4, r5, r6, r7, r8, r9, r10, r11, r12⟩ := hr
  refine ⟨⟨?_, ?_, ?_, ?_, ?_, ?_, ?_, ?_, ?_, ?_, ?_, ?_⟩, ?_, ?_, ?_, ?_, ?_, ?_, ?_, ?_, ?_, ?_, he⟩
  all_goals
    first
    | (simp only [h1, h2, h3, h4, h5, h6, h7, h8, h9, h10]; assumption)
    | skip
  rw [h9]
  intro t' ht'
  rw [gatherCodes_congr h2 h5 h7 h8]
  exact j t' ht'

/-- The root of a tree of more than one leaf is an internal node. -/
theorem Invariant.rootInner {s : State} (h : Invariant s) (hb : s.phase = .built) (ht : s.treeValid = true)
    (hs : s.single = false) : InnerAt s.nodes s.root := by
  obtain ⟨n, hn⟩ := h.rootNode ht
  refine ⟨n, hn, ?_⟩
  cases hl : n.leaf with
  | false => rfl
  | true =>
    have := (h.builtSingle hb).mpr ⟨(h.builtTree hb).mp ht, n, hn, hl⟩
    rw [hs] at this
    cases this

/-- In single mode there is a tree and its root is a leaf. -/
theorem Invariant.rootLeaf {s : State} (h : Invariant s) (hb : s.phase = .built) (hs : s.single = true) :
    s.treeValid = true ∧ ∃ n, nodeAt s.nodes s.root = some n ∧ n.leaf = true := by
  obtain ⟨hr, n, hn, hl⟩ := (h.builtSingle hb).mp hs
  exact ⟨(h.builtTree hb).mpr hr, n, hn, hl⟩

/-- The tree below the root. -/
theorem Invariant.exists_tree {s : State} (h : Invariant s) (ht : s.treeValid = true) : ∃ t, Below s.nodes s.root t := by
  obtain ⟨n, hn⟩ := h.rootNode ht
  exact exists_below h.nodesOk _ _ n (Nat.lt_succ_self _) hn

/-- GENCODES's traversal never fails (00_scope.md R11, R13). -/
theorem Invariant.gatherCodes_ok {s : State} (h : Invariant s) : ∃ g, gatherCodes s = .ok g := by
  unfold gatherCodes
  split
  · exact ⟨_, rfl⟩
  · rename_i ht
    simp only [Bool.not_eq_true', Bool.not_eq_false] at ht
    split
    · obtain ⟨n, hn⟩ := h.rootNode ht
      exact ⟨_, by rw [hn]⟩
    · obtain ⟨t, hb⟩ := h.exists_tree ht
      exact ⟨_, h.treeRules.traverse_eq hb⟩

/-! ### Each command keeps it -/

theorem Invariant.newSession (s : State) : Invariant s.newSession := by
  refine ⟨⟨?_, ?_, ?_, ?_, ?_, ?_, ?_, ?_, ?_, ?_, ?_, ?_⟩, ?_, ?_, ?_, ?_, ?_, ?_, ?_, ?_, ?_, ?_, ?_⟩ <;>
    simp [State.newSession, nodeAt, IsChild, Config.nodeCapacity, seen_zero]

theorem isChild_append_leaf {nodes : List Node} {sym : Symbol} {w : Weight} {c p : NodeIdx}
    (hlen : nodes.length < 512) : IsChild (nodes ++ [leafNode sym w]) c p ↔ IsChild nodes c p := by
  simp only [IsChild, nodeAt_append_one hlen]
  constructor
  · rintro ⟨n, hn | ⟨rfl, rfl⟩, hl, hc⟩
    · exact ⟨n, hn, hl, hc⟩
    · cases hl
  · rintro ⟨n, hn, hl, hc⟩
    exact ⟨n, .inl hn, hl, hc⟩

theorem Invariant.pushleaf {sym : Symbol} {s s' : State} (h : Invariant s) (hp : s.phase = .load)
    (hb : pushleafBody sym s = .ok s') : Invariant s' := by
  obtain ⟨hw, hseen, hlt, rfl⟩ := pushleafBody_ok hb
  have hlen : s.nodes.length < 512 := by simp only [Config.nodeCapacity] at hlt; omega
  have hnew := nextIdx_toNat hlen
  have hall := h.loadLeaves hp
  have hnc : ∀ c p, ¬ IsChild s.nodes c p := by
    rintro c p ⟨n, hn, hl, -⟩
    rw [hall n (nodeAt_mem hn)] at hl
    cases hl
  have hw1 : 1 ≤ (leafWeight s.dataL).toNat := by
    refine Nat.one_le_iff_ne_zero.mpr fun e => hw (BitVec.eq_of_toNat_eq (by rw [e]; rfl))
  have hold : ∀ n ∈ s.nodes, n.sym ≠ sym := fun n hn he => by
    have := (h.seenLeaves sym).mpr ⟨n, hn, hall n hn, he⟩
    rw [hseen] at this
    cases this
  obtain ⟨hr, hpt, htv, hsi, hct, hob⟩ := h.loadEmpty hp
  constructor
  case toR45 =>
    constructor
    case nodesOk =>
      intro i n hn
      rcases (nodeAt_append_one hlen).mp hn with hn | ⟨rfl, rfl⟩
      · exact nodeOk_append (h.nodesOk i n hn)
      · exact ⟨fun _ => ⟨rfl, rfl, hw1⟩, fun hl => by cases hl⟩
    case oneParent =>
      intro c p p' hc
      exact absurd ((isChild_append_leaf hlen).mp hc) (hnc c p)
    case queuedNoChild =>
      intro e _ p hc
      exact absurd ((isChild_append_leaf hlen).mp hc) (hnc _ p)
    case loadEntries =>
      intro _ e he
      rcases mem_pqInsert.mp he with rfl | he
      · exact ⟨_, (nodeAt_append_one hlen).mpr (.inr ⟨rfl, rfl⟩), rfl, rfl⟩
      · obtain ⟨n, hn, hl, hw⟩ := h.loadEntries hp e he
        exact ⟨n, nodeAt_append hn, hl, hw⟩
    case loadLeaves =>
      intro _ n hn
      rcases List.mem_append.mp hn with hn | hn
      · exact hall n hn
      · rw [List.mem_singleton.mp hn]
        rfl
    case builtQueue => intro hb; simp [hp] at hb
    case builtTree => intro hb; simp [hp] at hb
    case builtSingle => intro hb; simp [hp] at hb
    case walkerInside => intro hb; simp [hp] at hb
    case walkerSingle => intro hb; simp [hp] at hb
    case walkerNoTree => intro hb; simp [hp] at hb
    case symbolsDistinct =>
      intro i j n m hn hm hnl hml hs
      rcases (nodeAt_append_one hlen).mp hn with hn | ⟨rfl, rfl⟩ <;>
        rcases (nodeAt_append_one hlen).mp hm with hm | ⟨rfl, rfl⟩
      · exact h.symbolsDistinct i j n m hn hm hnl hml hs
      · exact absurd hs (hold n (nodeAt_mem hn))
      · exact absurd hs.symm (hold m (nodeAt_mem hm))
      · rfl
  case queueRising =>
    refine pqInsert_rising h.queueRising fun x hx he => ?_
    obtain ⟨n, hn, -, -⟩ := h.loadEntries hp x hx
    have := nodeAt_lt hn
    simp only at he
    rw [he, hnew] at this
    omega
  case nodesFit =>
    simp only [List.length_append, List.length_singleton]
    omega
  case innerFit =>
    have := h.innerFit
    simpa [List.filter_append, leafNode] using this
  case leafWeights =>
    intro n hn hl
    rcases List.mem_append.mp hn with hn | hn
    · exact h.leafWeights n hn hl
    · rw [List.mem_singleton.mp hn]
      simp only [leafNode, leafWeight, BitVec.toNat_setWidth]
      have := s.dataL.isLt
      omega
  case seenLeaves =>
    intro b
    simp only [seen_markSeen, Bool.or_eq_true, h.seenLeaves b, decide_eq_true_eq, List.mem_append,
      List.mem_singleton]
    constructor
    · rintro (⟨n, hn, hl, hs⟩ | rfl)
      · exact ⟨n, .inl hn, hl, hs⟩
      · exact ⟨_, .inr rfl, rfl, rfl⟩
    · rintro ⟨n, hn | rfl, hl, hs⟩
      · exact .inl ⟨n, hn, hl, hs⟩
      · exact .inr hs
  case loadEmpty => intro _; exact ⟨hr, hpt, htv, hsi, hct, hob⟩
  case rootNode => intro ht; simp [htv] at ht
  case rootNoChild => intro ht; simp [htv] at ht
  case tableOfTree => intro t ht; simp [hct] at ht
  case outputFits => exact h.outputFits
  case errorRecord => exact h.errorRecord

theorem Invariant.pqpop {s s' : State} (h : Invariant s) (hp : s.phase = .load) (hb : pqpopBody s = .ok s') : Invariant s' := by
  obtain ⟨e, rest, n, hq, hn, rfl⟩ := pqpopBody_ok hb
  have hsub : ∀ x ∈ rest, x ∈ s.pq := fun x hx => by rw [hq]; exact List.mem_cons_of_mem _ hx
  have hrise := h.queueRising
  rw [hq, List.pairwise_cons] at hrise
  exact
    { h with
      queuedNoChild := fun x hx => h.queuedNoChild x (hsub x hx)
      loadEntries := fun hp x hx => h.loadEntries hp x (hsub x hx)
      builtQueue := fun hb => by simp [hp] at hb
      queueRising := hrise.2
      tableOfTree := fun t ht => h.tableOfTree t ht }

theorem Invariant.gencodes {s s' : State} (h : Invariant s) (hp : s.phase = .built) (hb : gencodesBody s = .ok s') :
    Invariant s' := by
  obtain ⟨g, hg, rfl⟩ := gencodesBody_ok hb
  exact
    { h with
      loadEmpty := fun hl => by simp [State.withCodes, hp] at hl
      tableOfTree := fun t ht => ⟨g, hg, by simpa [State.withCodes] using ht⟩ }

theorem Invariant.decrst {s : State} (h : Invariant s) (hp : s.phase = .built) :
    Invariant { s with ptr := s.root, ob := [] } := by
  refine
    { h with
      walkerInside := fun hb ht hs => ?_
      walkerSingle := fun _ _ => rfl
      walkerNoTree := fun hb ht => ?_
      loadEmpty := fun hl => by simp [hp] at hl
      outputFits := Nat.zero_le _ 
      tableOfTree := fun t ht => h.tableOfTree t ht }
  · obtain ⟨n, hn, hl⟩ := h.rootInner hb ht hs
    exact ⟨[], n, .root, hn, hl⟩
  · by_contra hr
    have : s.treeValid = true := (h.builtTree hb).mpr hr
    rw [show s.treeValid = false from ht] at this
    cases this

/-- What DECODE's walk does in the invariant: it never fails; in single mode it stays at the root. -/
theorem Invariant.walk {s : State} (h : Invariant s) (hp : s.phase = .built) (ht : s.treeValid = true) (n : Nat) :
    ∃ w, (if s.single then walkSingle s.nodes s.root n ⟨s.ptr, []⟩
        else walkBits s.nodes s.root (chunkBits n s.dataL) ⟨s.ptr, []⟩) = .walked w ∧ w.out.length ≤ n ∧
      (s.single = true → w.at_ = s.root) ∧
      (s.single = false → ∃ p, NodePath s.nodes s.root p w.at_ ∧ InnerAt s.nodes w.at_) := by
  cases hs : s.single with
  | true =>
    obtain ⟨-, r, hr, -⟩ := h.rootLeaf hp hs
    exact ⟨⟨s.ptr, List.replicate n r.sym⟩, by simp [walkSingle, hr], by simp, fun _ => h.walkerSingle hp hs,
      fun h => by cases h⟩
  | false =>
    obtain ⟨p, m, hpath, hm, hl⟩ := h.walkerInside hp ht hs
    obtain ⟨y, syms, codes, p', hw, hy, hyi, -, -, hlen⟩ := walkBits_inner h.nodesOk h.nodesFit
      (h.rootInner hp ht hs) (chunkBits n s.dataL) hpath ⟨m, hm, hl⟩ []
    refine ⟨_, by simpa using hw, by simpa [chunkBits] using hlen, (fun h => by cases h), fun _ => ⟨p', hy, hyi⟩⟩

theorem Invariant.decode {n : Nat} {s s' : State} (h : Invariant s) (hp : s.phase = .built) (hn : n ≤ 32)
    (hb : decodeBody n s = .ok s') : Invariant s' := by
  obtain ⟨ht, w, rfl, hw⟩ := decodeBody_ok hb
  obtain ⟨w', hw', hlen, hroot, hinner⟩ := h.walk hp ht n
  rw [hw] at hw'
  cases hw'
  refine
    { h with
      walkerInside := fun _ _ hs => ?_
      walkerSingle := fun _ hs => hroot hs
      walkerNoTree := fun _ hf => ?_
      loadEmpty := fun hl => by simp [State.afterWalk, hp] at hl
      outputFits := Nat.le_trans hlen hn
      tableOfTree := fun t ht => h.tableOfTree t ht }
  · obtain ⟨p, hpath, m, hm, hl⟩ := hinner hs
    exact ⟨p, m, hpath, hm, hl⟩
  · rw [show s.treeValid = false from hf] at ht
    cases ht

theorem Invariant.build {s s' : State} (h : Invariant s) (hp : s.phase = .load) (hb : buildBody s = .ok s') : Invariant s' := by
  obtain ⟨nodes, pq, hm, hcase⟩ := buildBody_ok hb
  obtain ⟨nodes', pq', heq, hF, ⟨more, hpre⟩, hlen, hleaf, hend⟩ := (h.forest hp).mergeAll (Nat.le_refl _)
  rw [hm] at heq
  cases heq
  obtain ⟨-, -, -, -, hct, -⟩ := h.loadEmpty hp
  have hmemleaf : ∀ n, n ∈ nodes ∧ n.leaf = true ↔ n ∈ s.nodes ∧ n.leaf = true := fun n => by
    have := congrArg (n ∈ ·) hleaf
    simpa [List.mem_filter] using this
  have hweights : ∀ n ∈ nodes, n.leaf = true → n.w.toNat < 2 ^ 32 := fun n hn hl =>
    h.leafWeights n ((hmemleaf n).mp ⟨hn, hl⟩).1 hl
  have hseen : ∀ sym, seen s.symSeen sym = true ↔ ∃ n ∈ nodes, n.leaf = true ∧ n.sym = sym := fun sym => by
    rw [h.seenLeaves sym]
    exact exists_congr fun n => by
      rw [← and_assoc, ← and_assoc, hmemleaf n]
  rcases hcase with ⟨rfl, rfl⟩ | ⟨e, rest, n, rfl, hn, rfl⟩
  · rcases hend with ⟨hq, rfl, -⟩ | ⟨e, he, -⟩
    · have hinner := hF.inner
      have hroom := hF.room
      have h256 := h.nodesFit
      constructor
      case toR45 =>
        constructor
        case nodesOk => exact h.nodesOk
        case oneParent => exact h.oneParent
        case queuedNoChild => simp [State.builtEmpty]
        case loadEntries => simp [State.builtEmpty]
        case loadLeaves => simp [State.builtEmpty]
        case builtQueue => intro _; rfl
        case builtTree => simp [State.builtEmpty]
        case builtSingle => simp [State.builtEmpty]
        case walkerInside => simp [State.builtEmpty]
        case walkerSingle => simp [State.builtEmpty]
        case walkerNoTree => simp [State.builtEmpty]
        case symbolsDistinct => exact h.symbolsDistinct
      case queueRising => exact List.Pairwise.nil
      case nodesFit => exact h256
      case innerFit => exact h.innerFit
      case leafWeights => exact hweights
      case seenLeaves => exact hseen
      case loadEmpty => simp [State.builtEmpty]
      case rootNode => simp [State.builtEmpty]
      case rootNoChild => simp [State.builtEmpty]
      case tableOfTree => simp [State.builtEmpty, hct]
      case outputFits => exact Nat.zero_le _
      case errorRecord => exact h.errorRecord
    · cases he
  · rcases hend with ⟨-, -, he⟩ | ⟨e', he, -⟩
    · cases he
    · cases he
      have hinner := hF.inner
      have hroom := hF.room
      simp only [List.length_singleton] at hinner hroom
      have hfit : nodes.length ≤ 511 := by omega
      have hne : e.i ≠ nil := ne_nil_of_allocated hfit hn
      constructor
      case toR45 =>
        constructor
        case nodesOk => exact hF.ok
        case oneParent => exact hF.one
        case queuedNoChild => simp [State.builtTree]
        case loadEntries => simp [State.builtTree]
        case loadLeaves => simp [State.builtTree]
        case builtQueue => intro _; rfl
        case builtTree => simp [State.builtTree, hne]
        case builtSingle => simp [State.builtTree, hne, hn]
        case walkerInside =>
          intro _ _ hs
          exact ⟨[], n, .root, hn, hs⟩
        case walkerSingle => simp [State.builtTree]
        case walkerNoTree => simp [State.builtTree]
        case symbolsDistinct => exact hF.distinct
      case queueRising => exact List.Pairwise.nil
      case nodesFit => exact hfit
      case innerFit =>
        have : (nodes.filter fun n => !n.leaf).length ≤ 255 := by omega
        exact this
      case leafWeights => exact hweights
      case seenLeaves => exact hseen
      case loadEmpty => simp [State.builtTree]
      case rootNode => intro _; exact ⟨n, hn⟩
      case rootNoChild => intro _; exact hF.noChild e (by simp)
      case tableOfTree => simp [State.builtTree, hct]
      case outputFits => exact Nat.zero_le _
      case errorRecord => exact h.errorRecord

/-- Every command that completes keeps the invariant; the decoder gives no other bit count than 1 to 32. -/
theorem Invariant.bodyOf {i : Instr} {s s' : State} (h : Invariant s) (hi : i.wellFormed = true)
    (hl : legal i.op s.phase s.ctValid = true) (hb : bodyOf i s = .ok s') : Invariant s' := by
  have built : ∀ {op : Op}, op = .gencodes ∨ op = .decode ∨ op = .decrst → legal op s.phase s.ctValid = true →
      s.phase = .built := by
    rintro op (rfl | rfl | rfl) hl <;> cases hp : s.phase <;> simp_all [legal]
  have load : ∀ {op : Op}, op = .pushleaf ∨ op = .pqpop ∨ op = .build → legal op s.phase s.ctValid = true →
      s.phase = .load := by
    rintro op (rfl | rfl | rfl) hl <;> cases hp : s.phase <;> simp_all [legal]
  cases i with
  | nop => cases hb; exact h
  | clear => cases hb; exact Invariant.newSession s
  | pushleaf sym => exact h.pushleaf (load (.inl rfl) hl) hb
  | pqpop => exact h.pqpop (load (.inr (.inl rfl)) hl) hb
  | build => exact h.build (load (.inr (.inr rfl)) hl) hb
  | gencodes => exact h.gencodes (built (.inl rfl) hl) hb
  | lookup sym k =>
    obtain ⟨_, -, -, rfl⟩ := lookupBody_ok hb
    exact h.of_sameSession (by constructor <;> rfl) h.errorRecord
  | decode n =>
    simp only [Instr.wellFormed, Bool.and_eq_true, decide_eq_true_eq] at hi
    exact h.decode (built (.inr (.inl rfl)) hl) hi.2 hb
  | decend => rw [decendBody_ok hb]; exact h
  | decrst => cases hb; exact h.decrst (built (.inr (.inr rfl)) hl)
  | readnode idx =>
    obtain ⟨_, -, rfl⟩ := readnodeBody_ok hb
    exact h.of_sameSession (by constructor <;> rfl) h.errorRecord

/-- No pseudocode fails in the invariant. -/
theorem Invariant.not_broken {i : Instr} {s : State} (h : Invariant s) (hl : legal i.op s.phase s.ctValid = true) (f : Fault) :
    Machine.bodyOf i s ≠ .broken f := by
  intro hb
  cases i with
  | nop => cases hb
  | clear => cases hb
  | pushleaf sym =>
    have hp : s.phase = .load := by cases hp : s.phase <;> simp_all [legal, Instr.op]
    have hall : (s.nodes.filter fun n => n.leaf) = s.nodes :=
      List.filter_eq_self.mpr fun n hn => h.loadLeaves hp n hn
    have hn := leaves_le_256 h.symbolsDistinct h.nodesFit
    rw [hall] at hn
    simp only [Machine.bodyOf, pushleafBody] at hb
    rw [allocNode_of_lt (by simp only [Config.nodeCapacity]; omega)] at hb
    split at hb
    · cases hb
    · split at hb <;> cases hb
  | pqpop =>
    have hp : s.phase = .load := by cases hp : s.phase <;> simp_all [legal, Instr.op]
    simp only [Machine.bodyOf, pqpopBody, pqPopMin] at hb
    cases hq : s.pq with
    | nil => simp [hq] at hb
    | cons e rest =>
      obtain ⟨n, hn, -⟩ := h.loadEntries hp e (by simp [hq])
      simp [hq, hn] at hb
  | build =>
    have hp : s.phase = .load := by cases hp : s.phase <;> simp_all [legal, Instr.op]
    obtain ⟨nodes', pq', hm, hF, -⟩ := (h.forest hp).mergeAll (Nat.le_refl _)
    simp only [Machine.bodyOf, buildBody, hm] at hb
    cases pq' with
    | nil => simp [pqPopMin] at hb
    | cons e rest =>
      obtain ⟨n, hn, -⟩ := hF.entry e (by simp)
      simp [pqPopMin, hn] at hb
  | gencodes =>
    obtain ⟨g, hg⟩ := h.gatherCodes_ok
    simp [Machine.bodyOf, gencodesBody, hg] at hb
  | lookup sym k =>
    cases hc : s.ct with
    | none => cases hp : s.phase <;> simp [legal, Instr.op, hp, State.ctValid, hc] at hl
    | some t =>
      simp only [Machine.bodyOf, lookupBody, hc] at hb
      split at hb <;> cases hb
  | decode n =>
    have hp : s.phase = .built := by cases hp : s.phase <;> simp_all [legal, Instr.op]
    simp only [Machine.bodyOf, decodeBody] at hb
    split at hb
    · cases hb
    · rename_i ht
      obtain ⟨w, hw, -⟩ := h.walk hp (by simpa using ht) n
      rw [hw] at hb
      cases hb
  | decend =>
    simp only [Machine.bodyOf, decendBody] at hb
    split at hb <;> cases hb
  | decrst => cases hb
  | readnode idx =>
    simp only [Machine.bodyOf, readnodeBody] at hb
    split at hb <;> cases hb

/-! ### The generated table -/

/-- What every entry of the tree's table is (42_codegen.md R130, R131). -/
theorem Invariant.table_spec {s : State} {g : Gathered} (h : Invariant s) (hp : s.phase = .built)
    (hg : gatherCodes s = .ok g) (sym : Symbol) :
    (s.treeValid = true → s.single = false →
      (∀ p, HasCode s.nodes s.root sym p → (tableAt g.table sym).spells p ∧ 1 ≤ p.length ∧ p.length ≤ 255) ∧
        ((∀ p, ¬ HasCode s.nodes s.root sym p) → tableAt g.table sym = ⟨0, 0⟩)) ∧
    (s.single = true → ∀ n, nodeAt s.nodes s.root = some n →
      tableAt g.table sym = if n.sym = sym then ⟨1, 0⟩ else ⟨0, 0⟩) ∧
    (s.treeValid = false → tableAt g.table sym = ⟨0, 0⟩) := by
  unfold gatherCodes at hg
  refine ⟨fun ht hs => ?_, fun hs n hn => ?_, fun ht => ?_⟩
  · obtain ⟨t, hb⟩ := h.exists_tree ht
    simp only [ht, hs, Bool.not_true, Bool.false_eq_true, if_false, h.treeRules.traverse_eq hb,
      Except.ok.injEq] at hg
    subst hg
    refine ⟨fun p hc => ?_, TreeRules.entry_of_no_code hb⟩
    rw [h.treeRules.entry_of_code hb hc]
    obtain ⟨y, n, hpath, hn, hl, -⟩ := hc
    have hle : p.length ≤ 255 := h.treeRules.path_le hb hpath
    refine ⟨entry_spells hle, ?_, hle⟩
    cases p with
    | cons b p => simp
    | nil =>
      obtain ⟨m, hm, hml⟩ := h.rootInner hp ht hs
      rw [hpath.unique .root, hm] at hn
      cases hn
      rw [hl] at hml
      cases hml
  · obtain ⟨ht, -⟩ := h.rootLeaf hp hs
    simp only [ht, hs, hn, Bool.not_true, Bool.false_eq_true, if_false, if_true, Except.ok.injEq] at hg
    subst hg
    simp [Gathered.addLeaf, Gathered.empty, tableAt_tableSet]
  · simp only [ht, Bool.not_false, if_true, Except.ok.injEq] at hg
    subst hg
    simp [Gathered.empty]

/-- An entry with a length, in a tree of more than one leaf, is its symbol's code. -/
theorem Invariant.code_of_entry {s : State} {g : Gathered} (h : Invariant s) (hp : s.phase = .built)
    (hg : gatherCodes s = .ok g) (ht : s.treeValid = true) (hs : s.single = false) {sym : Symbol}
    (hl : (tableAt g.table sym).len ≠ 0) : HasCode s.nodes s.root sym (tableAt g.table sym).code := by
  have hsp := (h.table_spec hp hg sym).1 ht hs
  by_contra hc
  refine hl ?_
  rw [hsp.2 fun p hp' => ?_]
  rw [(hsp.1 p hp').1.code_eq] at hc
  exact hc hp'

/-- A table that holds values belongs to a tree (10_state.md R38). -/
theorem Invariant.built_of_table {s : State} {tab : CodeTable} (h : Invariant s) (hct : s.ct = some tab) :
    s.phase = .built := by
  cases hp : s.phase with
  | built => rfl
  | load =>
    have := (h.loadEmpty hp).2.2.2.2.1
    rw [hct] at this
    cases this

end Sys2Proof.Machine
end

