-- ==== Sys2Proof/Laws/Operands.lean ====
section
/-! SUPPORT. The packed result words as numbers (10_state.md R31), and the bits of a one-bit flag. -/

namespace Sys2Proof.Machine

@[simp] theorem toNat_idxWord (i : NodeIdx) : (idxWord i).toNat = i.toNat := by
  have := i.isLt
  simp only [idxWord, BitVec.toNat_setWidth]
  omega

@[simp] theorem toNat_weightLow (w : Weight) : (weightLow w).toNat = w.toNat % 2 ^ 32 := by
  simp [weightLow]

@[simp] theorem toNat_weightHigh (w : Weight) : (weightHigh w).toNat = w.toNat / 2 ^ 32 := by
  have := w.isLt
  simp only [weightHigh, BitVec.toNat_setWidth, BitVec.extractLsb'_toNat, Nat.shiftRight_eq_div_pow]
  omega

@[simp] theorem toNat_nodeTagWord (leaf : Bool) (sym : Symbol) (w : Weight) :
    (nodeTagWord leaf sym w).toNat = leaf.toNat * 2 ^ 16 + sym.toNat * 2 ^ 8 + w.toNat / 2 ^ 32 := by
  have hsym := sym.isLt
  have hw : w.toNat / 2 ^ 32 < 2 ^ 8 := by
    have := w.isLt
    omega
  have h2 : (sym.setWidth 32 <<< 8 : Word).toNat = sym.toNat * 2 ^ 8 := by
    simp only [BitVec.toNat_shiftLeft, BitVec.toNat_setWidth, Nat.shiftLeft_eq]
    omega
  have h3 : (flagAt leaf 16).toNat = leaf.toNat * 2 ^ 16 := by cases leaf <;> decide
  rw [nodeTagWord, BitVec.toNat_or, BitVec.toNat_or, toNat_weightHigh, h2, h3, ← Nat.shiftLeft_eq,
    ← Nat.shiftLeft_eq, Nat.or_assoc, ← Nat.shiftLeft_add_eq_or_of_lt (a := sym.toNat) hw,
    ← Nat.shiftLeft_add_eq_or_of_lt (b := sym.toNat <<< 8 + w.toNat / 2 ^ 32)]
  · omega
  · rw [Nat.shiftLeft_eq]
    omega

@[simp] theorem toNat_childrenWord (n : Node) :
    (childrenWord n).toNat = n.right.toNat * 2 ^ 16 + n.left.toNat := by
  have hl := n.left.isLt
  have hr := n.right.isLt
  have h2 : (n.right.setWidth 32 <<< 16 : Word).toNat = n.right.toNat * 2 ^ 16 := by
    simp only [BitVec.toNat_shiftLeft, BitVec.toNat_setWidth, Nat.shiftLeft_eq]
    omega
  have h3 : (n.left.setWidth 32).toNat = n.left.toNat := by
    simp only [BitVec.toNat_setWidth]
    omega
  rw [childrenWord, BitVec.toNat_or, h2, h3, ← Nat.shiftLeft_eq, ← Nat.shiftLeft_add_eq_or_of_lt (by omega)]

/-- `RES1` and `RES2` of GENCODES hold the stored total (42_codegen.md R132). -/
theorem toNat_total (t : Nat) : (totalLow t).toNat + 2 ^ 32 * (totalHigh t).toNat = t % 2 ^ 48 := by
  simp only [totalLow, totalHigh, totalBits, BitVec.toNat_setWidth, BitVec.extractLsb'_toNat, BitVec.toNat_ofNat,
    Nat.shiftRight_eq_div_pow]
  omega

theorem getLsbD_flagAt (b : Bool) (n j : Nat) (hn : n < 32) : (flagAt b n).getLsbD j = (b && decide (j = n)) := by
  simp only [flagAt, BitVec.getLsbD_shiftLeft, BitVec.getLsbD_setWidth, BitVec.getLsbD_ofBool]
  by_cases h : j = n
  · subst h
    simp [hn]
  · by_cases h2 : j < n
    · simp [h2, h]
    · have : j - n ≠ 0 := by omega
      simp [this, h]

end Sys2Proof.Machine
end

