-- ==== Sys2Proof/Laws/Optimal.lean ====
section
/-! SUPPORT. The exchange argument behind R120 (41_queue_and_build.md): among lengths that satisfy Kraft's inequality,
the two least weights can be given one and the same length at no cost. Nothing here is about the HCC. -/

namespace Sys2Proof.Laws

variable {α : Type*} [DecidableEq α]

/-- Kraft's inequality for the lengths `l` over `q`. -/
def Kraft (q : Finset α) (l : α → ℕ) : Prop := ∑ x ∈ q, (1 / 2 : ℝ) ^ l x ≤ 1

omit [DecidableEq α] in
/-- Kraft's inequality in whole numbers. -/
theorem kraft_iff {q : Finset α} {l : α → ℕ} {L : ℕ} (hL : ∀ x ∈ q, l x ≤ L) :
    Kraft q l ↔ ∑ x ∈ q, 2 ^ (L - l x) ≤ 2 ^ L := by
  have h : ((∑ x ∈ q, 2 ^ (L - l x) : ℕ) : ℝ) = 2 ^ L * ∑ x ∈ q, (1 / 2 : ℝ) ^ l x := by
    rw [Nat.cast_sum, Finset.mul_sum]
    refine Finset.sum_congr rfl fun x hx => ?_
    have e : (2 : ℝ) ^ L = 2 ^ (L - l x) * 2 ^ l x := by rw [← pow_add, Nat.sub_add_cancel (hL x hx)]
    have : (2 : ℝ) ^ l x * (1 / 2) ^ l x = 1 := by rw [← mul_pow]; norm_num
    rw [Nat.cast_pow, Nat.cast_ofNat, e, mul_assoc, this, mul_one]
  have hpos : (0 : ℝ) < 2 ^ L := by positivity
  rw [Kraft, ← Nat.cast_le (α := ℝ), h, Nat.cast_pow, Nat.cast_ofNat]
  constructor
  · intro hk
    nlinarith
  · intro hk
    by_contra hc
    nlinarith

theorem sum_two (q : Finset α) (g : α → ℕ) {a c : α} (ha : a ∈ q) (hc : c ∈ q) (hne : a ≠ c) :
    ∑ x ∈ q, g x = g a + (g c + ∑ x ∈ (q.erase a).erase c, g x) := by
  rw [← Finset.add_sum_erase q g ha,
    ← Finset.add_sum_erase (q.erase a) g (Finset.mem_erase.mpr ⟨hne.symm, hc⟩)]

theorem kraft_swap {q : Finset α} {l : α → ℕ} {a c : α} (ha : a ∈ q) (hc : c ∈ q) (hk : Kraft q l) :
    Kraft q fun x => l (Equiv.swap a c x) := by
  rw [Kraft] at *
  refine le_of_eq_of_le ?_ hk
  refine Finset.sum_equiv (Equiv.swap a c) (fun x => ?_) fun _ _ => rfl
  by_cases h1 : x = a
  · subst h1
    simp [ha, hc]
  · by_cases h2 : x = c
    · subst h2
      simp [ha, hc]
    · rw [Equiv.swap_apply_of_ne_of_ne h1 h2]

/-- Moving the greater length to the lesser weight costs nothing. -/
theorem cost_swap {q : Finset α} {w l : α → ℕ} {a c : α} (ha : a ∈ q) (hc : c ∈ q) (hw : w a ≤ w c)
    (hl : l a ≤ l c) : ∑ x ∈ q, w x * l (Equiv.swap a c x) ≤ ∑ x ∈ q, w x * l x := by
  by_cases hne : a = c
  · subst hne
    simp
  · rw [sum_two q _ ha hc hne, sum_two q _ ha hc hne]
    have e : ∑ x ∈ (q.erase a).erase c, w x * l (Equiv.swap a c x) = ∑ x ∈ (q.erase a).erase c, w x * l x := by
      refine Finset.sum_congr rfl fun x hx => ?_
      rw [Finset.mem_erase, Finset.mem_erase] at hx
      rw [Equiv.swap_apply_of_ne_of_ne hx.2.1 hx.1]
    rw [e, Equiv.swap_apply_left, Equiv.swap_apply_right]
    obtain ⟨u, hu⟩ := Nat.exists_eq_add_of_le hw
    obtain ⟨v, hv⟩ := Nat.exists_eq_add_of_le hl
    rw [hu, hv]
    nlinarith [Nat.zero_le (u * v)]

/-- If one length is greater than all others, it can be shortened. -/
theorem kraft_shorten {q : Finset α} {l : α → ℕ} {c : α} (hc : c ∈ q) (h1 : 1 ≤ l c)
    (hmax : ∀ x ∈ q, x ≠ c → l x < l c) (hk : Kraft q l) : Kraft q (Function.update l c (l c - 1)) := by
  have hle : ∀ x ∈ q, l x ≤ l c := fun x hx => by
    by_cases h : x = c
    · rw [h]
    · exact Nat.le_of_lt (hmax x hx h)
  rw [kraft_iff hle] at hk
  rw [kraft_iff (L := l c)]
  · rw [← Finset.add_sum_erase q _ hc] at hk ⊢
    have e : ∑ x ∈ q.erase c, 2 ^ (l c - Function.update l c (l c - 1) x) = ∑ x ∈ q.erase c, 2 ^ (l c - l x) :=
      Finset.sum_congr rfl fun x hx => by rw [Function.update_of_ne (Finset.ne_of_mem_erase hx)]
    have heven : 2 ∣ ∑ x ∈ q.erase c, 2 ^ (l c - l x) := by
      refine Finset.dvd_sum fun x hx => dvd_pow_self 2 ?_
      have := hmax x (Finset.mem_of_mem_erase hx) (Finset.ne_of_mem_erase hx)
      omega
    have heven' : 2 ∣ 2 ^ l c := dvd_pow_self 2 (by omega)
    rw [e, Function.update_self]
    have e1 : l c - (l c - 1) = 1 := by omega
    rw [e1]
    rw [Nat.sub_self] at hk
    omega
  · intro x hx
    by_cases h : x = c
    · rw [h, Function.update_self]
      omega
    · rw [Function.update_of_ne h]
      exact hle x hx

/-- The two least weights can share one length, at no cost. -/
theorem exists_siblings (q : Finset α) (w : α → ℕ) {a b : α} (ha : a ∈ q) (hb : b ∈ q) (hab : a ≠ b)
    (hmina : ∀ x ∈ q, w a ≤ w x) (hminb : ∀ x ∈ q, x ≠ a → w b ≤ w x) (k : ℕ) :
    ∀ l : α → ℕ, ∑ x ∈ q, l x ≤ k → Kraft q l →
      ∃ l', Kraft q l' ∧ ∑ x ∈ q, w x * l' x ≤ ∑ x ∈ q, w x * l x ∧ l' a = l' b ∧ 1 ≤ l' a := by
  induction k with
  | zero =>
    intro l hs hk
    exfalso
    have hz : ∀ x ∈ q, l x = 0 := fun x hx => by
      have := Finset.single_le_sum (f := l) (fun _ _ => Nat.zero_le _) hx
      omega
    rw [kraft_iff (L := 0) fun x hx => by rw [hz x hx], sum_two q _ ha hb hab, hz a ha, hz b hb] at hk
    simp at hk
  | succ k ih =>
    intro l hs hk
    obtain ⟨c, hc, hmax⟩ := Finset.exists_max_image q l ⟨a, ha⟩
    have h1 : 1 ≤ l c := by
      by_contra h0
      have hz : ∀ x ∈ q, l x = 0 := fun x hx => by
        have := hmax x hx
        omega
      rw [kraft_iff (L := 0) fun x hx => by rw [hz x hx], sum_two q _ ha hb hab, hz a ha, hz b hb] at hk
      simp at hk
    by_cases hd : ∃ d ∈ q, d ≠ c ∧ l d = l c
    · obtain ⟨d, hdq, hdc, hdl⟩ := hd
      set l1 : α → ℕ := fun x => l (Equiv.swap a c x) with hl1
      have hk1 : Kraft q l1 := kraft_swap ha hc hk
      have hc1 := cost_swap (w := w) ha hc (hmina c hc) (hmax a ha)
      have hl1a : l1 a = l c := by simp [hl1]
      have hmax1 : ∀ x ∈ q, l1 x ≤ l c := fun x hx => by
        rw [hl1]
        simp only
        by_cases e1 : x = a
        · rw [e1, Equiv.swap_apply_left]
        · by_cases e2 : x = c
          · rw [e2, Equiv.swap_apply_right]
            exact hmax a ha
          · rw [Equiv.swap_apply_of_ne_of_ne e1 e2]
            exact hmax x hx
      obtain ⟨d', hd'q, hd'a, hd'l⟩ : ∃ d' ∈ q, d' ≠ a ∧ l1 d' = l c := by
        by_cases e1 : d = a
        · refine ⟨c, hc, fun e => hdc (e1.trans e.symm), ?_⟩
          rw [hl1]
          simp only
          rw [Equiv.swap_apply_right, ← e1, hdl]
        · refine ⟨d, hdq, e1, ?_⟩
          rw [hl1]
          simp only
          rw [Equiv.swap_apply_of_ne_of_ne e1 hdc, hdl]
      refine ⟨fun x => l1 (Equiv.swap b d' x), kraft_swap hb hd'q hk1, Nat.le_trans (cost_swap hb hd'q
        (hminb d' hd'q hd'a) (by rw [hd'l]; exact hmax1 b hb)) hc1, ?_, ?_⟩
      · simp only
        rw [Equiv.swap_apply_of_ne_of_ne hab hd'a.symm, Equiv.swap_apply_left, hl1a, hd'l]
      · simp only
        rw [Equiv.swap_apply_of_ne_of_ne hab hd'a.symm, hl1a]
        exact h1
    · push Not at hd
      have hlt : ∀ x ∈ q, x ≠ c → l x < l c := fun x hx hne => Nat.lt_of_le_of_ne (hmax x hx) (hd x hx hne)
      have hup : ∀ x ∈ q.erase c, Function.update l c (l c - 1) x = l x := fun x hx =>
        Function.update_of_ne (Finset.ne_of_mem_erase hx) _ _
      obtain ⟨l', hk', hcost, he, hone⟩ := ih (Function.update l c (l c - 1)) (by
        rw [← Finset.add_sum_erase q _ hc] at hs ⊢
        have e : ∑ x ∈ q.erase c, Function.update l c (l c - 1) x = ∑ x ∈ q.erase c, l x := Finset.sum_congr rfl hup
        rw [e, Function.update_self]
        omega) (kraft_shorten hc h1 hlt hk)
      refine ⟨l', hk', Nat.le_trans hcost ?_, he, hone⟩
      rw [← Finset.add_sum_erase q _ hc, ← Finset.add_sum_erase q (fun x => w x * l x) hc, Function.update_self]
      rw [Finset.sum_congr rfl fun x hx => by rw [hup x hx]]
      exact Nat.add_le_add_right (Nat.mul_le_mul_left _ (by omega)) _

/-- One merge of the two least weights (R117): from lengths over `q` to lengths over the merged set, which cost less by
the merged weight. -/
theorem exists_merged {q : Finset α} {w l : α → ℕ} {a b m : α} (ha : a ∈ q) (hb : b ∈ q) (hab : a ≠ b)
    (hmina : ∀ x ∈ q, w a ≤ w x) (hminb : ∀ x ∈ q, x ≠ a → w b ≤ w x) (hm : m ∉ q) (hw : w m = w a + w b)
    (hk : Kraft q l) :
    ∃ l', Kraft (insert m ((q.erase a).erase b)) l' ∧
      w m + ∑ x ∈ insert m ((q.erase a).erase b), w x * l' x ≤ ∑ x ∈ q, w x * l x := by
  obtain ⟨l1, hk1, hcost, he, hone⟩ := exists_siblings q w ha hb hab hmina hminb _ l (Nat.le_refl _) hk
  have hm' : m ∉ (q.erase a).erase b := fun h => hm (Finset.mem_of_mem_erase (Finset.mem_of_mem_erase h))
  have hup : ∀ x ∈ (q.erase a).erase b, Function.update l1 m (l1 a - 1) x = l1 x := fun x hx => by
    rw [Function.update_of_ne]
    rintro rfl
    exact hm' hx
  refine ⟨Function.update l1 m (l1 a - 1), ?_, ?_⟩
  · rw [Kraft, Finset.sum_insert hm', Function.update_self, Finset.sum_congr rfl fun x hx => by rw [hup x hx]]
    rw [Kraft, ← Finset.add_sum_erase q _ ha,
      ← Finset.add_sum_erase (q.erase a) _ (Finset.mem_erase.mpr ⟨hab.symm, hb⟩), ← he] at hk1
    have e : (1 / 2 : ℝ) ^ (l1 a - 1) = (1 / 2) ^ l1 a + (1 / 2) ^ l1 a := by
      obtain ⟨k, hk⟩ := Nat.exists_eq_add_of_le hone
      rw [hk, Nat.add_sub_cancel_left, pow_add]
      ring
    rw [e]
    linarith
  · rw [Finset.sum_insert hm', Function.update_self, Finset.sum_congr rfl fun x hx => by rw [hup x hx]]
    rw [sum_two q _ ha hb hab, ← he] at hcost
    refine Nat.le_trans ?_ hcost
    obtain ⟨k, hk⟩ := Nat.exists_eq_add_of_le hone
    rw [hk, Nat.add_sub_cancel_left, hw]
    nlinarith

end Sys2Proof.Laws
end

