-- ==== Sys2Proof/Laws/PerInstr.lean ====
section
/-! SUPPORT. Statements made of every instruction, one lemma a constructor. RowMatch: a well-formed command's word has
exactly its own row's fixed bits, and its operand bits lie in the row's free bits (30_encoding.md R72, R74). -/

namespace Sys2Proof.Laws.RowMatch

/-- The word of `i` selects the row of `i` in the opcode map. -/
def Statement (i : Instr) : Prop :=
  i.wellFormed = true → ∃ r ∈ opcodeMap, r.op = i.op ∧ encode i &&& r.mask = r.bits

theorem nop : Statement .nop := fun _ => by decide

theorem clear : Statement .clear := fun _ => by decide

/-- An operand put in the free bits of a row leaves its fixed bits. -/
theorem placed_free {x b m : Word} (hx : x &&& m = 0) (hb : b &&& m = b) : (x ||| b) &&& m = b := by
  rw [BitVec.and_comm, BitVec.and_or_distrib_left, BitVec.and_comm m x, BitVec.and_comm m b, hx, hb]
  simp

theorem placeSym_free (sym : Symbol) : placeSym sym &&& 0xFFFF00FF = 0 := by
  revert sym
  decide +kernel

theorem placeK_free (k : BitVec 3) : placeK k &&& 0xFFFFFF8F = 0 := by
  revert k
  decide

theorem placeCnt_free (n : Nat) : placeCnt n &&& 0xFFE0FFFF = 0 := by
  unfold placeCnt
  generalize BitVec.ofNat 5 (n - 1) = c
  revert c
  decide

theorem placeIdx_free (idx : NodeIdx) : placeIdx idx &&& 0xFE00FFFF = 0 := by
  revert idx
  decide +kernel

theorem pushleaf (sym : Symbol) : Statement (.pushleaf sym) := fun _ =>
  ⟨⟨.pushleaf, 0x00000002, 0xFFFF00FF⟩, by decide, rfl, placed_free (placeSym_free sym) (by decide)⟩

theorem pqpop : Statement .pqpop := fun _ => by decide

theorem build : Statement .build := fun _ => by decide

theorem gencodes : Statement .gencodes := fun _ => by decide

theorem lookup (sym : Symbol) (k : BitVec 3) : Statement (.lookup sym k) := fun _ => by
  refine ⟨⟨.lookup, 0x00000006, 0xFFFF008F⟩, by decide, rfl, placed_free ?_ (by decide)⟩
  have h1 : placeSym sym &&& 0xFFFF008F = 0 := by
    rw [show (0xFFFF008F : Word) = 0xFFFF00FF &&& 0xFFFF008F from by decide, ← BitVec.and_assoc, placeSym_free]
    simp
  have h2 : placeK k &&& 0xFFFF008F = 0 := by
    rw [show (0xFFFF008F : Word) = 0xFFFFFF8F &&& 0xFFFF008F from by decide, ← BitVec.and_assoc, placeK_free]
    simp
  rw [BitVec.and_comm, BitVec.and_or_distrib_left, BitVec.and_comm _ (placeSym sym), BitVec.and_comm _ (placeK k), h1,
    h2]
  simp

theorem decode (n : Nat) : Statement (.decode n) := fun _ =>
  ⟨⟨.decode, 0x00000007, 0xFFE0FFFF⟩, by decide, rfl, placed_free (placeCnt_free n) (by decide)⟩

theorem decend : Statement .decend := fun _ => by decide

theorem decrst : Statement .decrst := fun _ => by decide

theorem readnode (idx : NodeIdx) : Statement (.readnode idx) := fun _ =>
  ⟨⟨.readnode, 0x0000000A, 0xFE00FFFF⟩, by decide, rfl, placed_free (placeIdx_free idx) (by decide)⟩

end Sys2Proof.Laws.RowMatch
end

