-- ==== Sys2Proof/Laws/Step.lean ====
section
/-! SUPPORT. What one step can do, once: the core's turn, a host read, a host write, a reset; and which register an
access reaches. -/

namespace Sys2Proof.Machine

/-! ### The register window -/

@[simp] theorem windowOffset_base (off : Nat) :
    windowOffset (Config.hccBase + off) = if off < 256 then some off else none := by
  unfold windowOffset Config.windowBytes
  simp

/-- An aligned 32-bit access inside the window reaches its register (20_memory.md R56, R57). -/
theorem accessTarget_aligned {off : Nat} (hlt : off < 256) (h4 : off % 4 = 0) :
    accessTarget (Config.hccBase + off) 4 = .ok (regAt off) := by
  simp [accessTarget, hlt, h4]

theorem accessTarget_width {addr width : Nat} (h : width ≠ 4) : accessTarget addr width = .error .accessWidth := by
  simp [accessTarget, h]

theorem accessTarget_misaligned {off : Nat} (hlt : off < 256) (h4 : off % 4 ≠ 0) :
    accessTarget (Config.hccBase + off) 4 = .error .accessMisaligned := by
  simp [accessTarget, hlt, h4]

theorem accessTarget_outside {addr : Nat} (h : addr < Config.hccBase ∨ Config.hccBase + 256 ≤ addr) :
    accessTarget addr 4 = .error .accessOutsideWindow := by
  have : windowOffset addr = none := by
    refine if_neg ?_
    rw [Bool.and_eq_true, decide_eq_true_eq, decide_eq_true_eq]
    have : Config.windowBytes = 256 := rfl
    omega
  simp [accessTarget, this]

/-- Every register of the map stands at its offset. -/
theorem regAt_offset (r : Reg) (h : ∀ k, r = .outBuf k → k < 32) :
    r.offset < 256 ∧ r.offset % 4 = 0 ∧ regAt r.offset = r := by
  cases r with
  | outBuf k =>
    have := h k rfl
    refine ⟨by simp only [Reg.offset]; omega, by simp only [Reg.offset]; omega, ?_⟩
    simp [regAt, Reg.offset]
  | _ => exact ⟨by decide, by decide, rfl⟩

theorem accessTarget_reg (r : Reg) (h : ∀ k, r = .outBuf k → k < 32) :
    accessTarget (Config.hccBase + r.offset) 4 = .ok r := by
  obtain ⟨h1, h2, h3⟩ := regAt_offset r h
  rw [accessTarget_aligned h1 h2, h3]

theorem accessTarget_ok {addr width : Nat} {r : Reg} (h : accessTarget addr width = .ok r) :
    width = 4 ∧ ∃ off, off < 256 ∧ off % 4 = 0 ∧ addr = Config.hccBase + off ∧ r = regAt off := by
  unfold accessTarget at h
  split at h
  · cases h
  · rename_i hw
    refine ⟨by simpa using hw, ?_⟩
    split at h
    · cases h
    · rename_i off ho
      split at h
      · cases h
        unfold windowOffset at ho
        split at ho
        · rename_i hb
          cases ho
          simp only [Bool.and_eq_true, decide_eq_true_eq] at hb
          have : Config.windowBytes = 256 := rfl
          exact ⟨_, by omega, ‹_›, by omega, rfl⟩
        · cases ho
      · cases h

/-- An access that reaches no register is one that R58 gives no meaning. -/
theorem accessTarget_error {addr width : Nat} {e : Refusal} (h : accessTarget addr width = .error e) :
    width ≠ 4 ∨ addr < Config.hccBase ∨ Config.hccBase + 0x100 ≤ addr ∨ (addr - Config.hccBase) % 4 ≠ 0 := by
  by_contra hc
  push Not at hc
  obtain ⟨rfl, hlo, hhi, h4⟩ := hc
  obtain ⟨off, rfl⟩ := Nat.exists_eq_add_of_le hlo
  rw [accessTarget_aligned (by omega) (by simpa using h4)] at h
  cases h

/-- Outside `OUTBUF` and the reserved offsets each register has one offset. -/
theorem offset_regAt {off : Nat} (hlt : off < 256) (h4 : off % 4 = 0) (h : regAt off ≠ .reserved) :
    (regAt off).offset = off := by
  by_cases ho : 0x80 ≤ off
  · have e : regAt off = .outBuf ((off - 0x80) / 4) := if_pos ho
    rw [e, Reg.offset]
    omega
  · have : ∀ o, o < 128 → regAt o ≠ .reserved → (regAt o).offset = o := by decide
    exact this off (by omega) h

/-- The address of an access that reaches `r`. -/
theorem accessTarget_addr {addr width : Nat} {r : Reg} (h : accessTarget addr width = .ok r) (hr : r ≠ .reserved) :
    addr = Config.hccBase + r.offset ∧ width = 4 := by
  obtain ⟨hw, off, h1, h2, rfl, rfl⟩ := accessTarget_ok h
  rw [offset_regAt h1 h2 hr]
  exact ⟨rfl, hw⟩

/-- What a step does with an aligned read of the window. -/
theorem step_read {s : State} {off : Nat} {rest : List Event}
    (hin : s.inputs = .read (Config.hccBase + off) 4 :: rest) (hlt : off < 256) (h4 : off % 4 = 0) :
    step s = .next ((s.setInputs rest).hostRead (regAt off)) := by
  simp only [step, hin, memRead, accessTarget_aligned hlt h4]

/-- What a step does with an aligned write to the window. -/
theorem step_write {s : State} {off : Nat} {v : Word} {rest : List Event}
    (hin : s.inputs = .write (Config.hccBase + off) 4 v :: rest) (hlt : off < 256) (h4 : off % 4 = 0) :
    step s = .next ((s.setInputs rest).hostWrite (regAt off) v) := by
  simp only [step, hin, memWrite, accessTarget_aligned hlt h4]

/-! ### The core's turn -/

/-- Everything `Complete()` can do when it answers a next state. -/
theorem complete_next {s t : State} (h : complete s = .next t) :
    (s.errCode ≠ .noError ∧ decode s.cmdL ≠ .ok .clear ∧ t = s.setIdle) ∨
    (s.errCode = .noError ∧ (∃ w, decode s.cmdL = .error w) ∧ t = recordError .illegal s.cmdL s.setIdle) ∨
    (∃ i, decode s.cmdL = .ok i ∧ (s.errCode = .noError ∨ i = .clear) ∧ exec i s.setIdle = .next t) := by
  unfold complete at h
  split at h
  · rename_i w hw
    split at h
    · cases h
      refine .inl ⟨(State.locked_iff s).mp ‹_›, ?_, rfl⟩
      rw [hw]
      exact fun h => by cases h
    · cases h
      refine .inr (.inl ⟨(State.locked_eq_false_iff s).mp (by simpa using ‹¬ s.locked = true›), ⟨w, hw⟩, rfl⟩)
  · rename_i i hi
    split at h
    · rename_i hc
      cases h
      simp only [Bool.and_eq_true, bne_iff_ne, ne_eq] at hc
      refine .inl ⟨(State.locked_iff s).mp hc.2, ?_, rfl⟩
      rw [hi]
      rintro h
      cases h
      exact hc.1 rfl
    · rename_i hc
      refine .inr (.inr ⟨i, hi, ?_, h⟩)
      by_cases he : s.errCode = .noError
      · exact .inl he
      · right
        have hl := (State.locked_iff s).mpr he
        simp only [hl, Bool.and_true, bne_iff_ne, ne_eq, Decidable.not_not] at hc
        cases i <;> first | rfl | (simp [Instr.op] at hc)

/-- The command in flight runs when nothing is recorded, or when it is CLEAR (40_command_model.md R91). -/
theorem complete_ok {s : State} {i : Instr} (hd : decode s.cmdL = .ok i)
    (h : s.errCode = .noError ∨ i = .clear) : complete s = exec i s.setIdle := by
  unfold complete
  rw [hd]
  simp only
  rw [if_neg]
  rcases h with h | rfl
  · simp [State.locked, h]
  · simp [Instr.op]

theorem coreStep_idle {s : State} (h : s.busy = false) : coreStep s = .next s := by simp [coreStep, h]

theorem coreStep_busy {s : State} (h : s.busy = true) : coreStep s = complete s := by simp [coreStep, h]

/-- The fields a turn of the core leaves alone; a pending bit it sets at most. -/
theorem coreStep_outside {s t : State} (h : coreStep s = .next t) :
    t.data = s.data ∧ t.intEn = s.intEn ∧ t.cmdL = s.cmdL ∧ t.dataL = s.dataL ∧ t.inputs = s.inputs ∧
    t.reply = s.reply ∧ t.freeCount = s.freeCount ∧ t.busy = false ∧
    (t.intStat = s.intStat ∨ t.intStat = s.intStat ||| 0b01 ∨ t.intStat = s.intStat ||| 0b10) := by
  cases hb : s.busy with
  | false =>
    rw [coreStep_idle hb] at h
    cases h
    simp [hb]
  | true =>
    rw [coreStep_busy hb] at h
    rcases complete_next h with ⟨-, -, rfl⟩ | ⟨he, -, rfl⟩ | ⟨i, -, -, hx⟩
    · simp
    · rw [recordError_first _ _ _ (by simpa using he)]
      simp
    · rcases exec_next hx with ⟨s', -, hbd, rfl⟩ | ⟨e, -, rfl, -⟩
      · obtain ⟨a, b, c, d, e, f, g, k, l⟩ := bodyOf_ok_outside hbd
        simp_all
      · unfold recordError
        split <;> simp

/-! ### One step -/

/-- The state whose turn it is for the core, if this step is the core's: nothing pending, or a core turn next. -/
def coreTurnOf (s : State) : Option State :=
  match s.inputs with
  | [] => some s
  | .coreTurn :: rest => some (s.setInputs rest)
  | .read _ _ :: _ => none
  | .write _ _ _ :: _ => none
  | .reset :: _ => none

theorem step_of_coreTurn {s u : State} (h : coreTurnOf s = some u) : step s = coreStep u := by
  unfold coreTurnOf at h
  split at h
  all_goals first | (cases h; done) | (cases h; simp only [step, *])

theorem coreTurnOf_eq {s u : State} (h : coreTurnOf s = some u) : ∃ l, u = s.setInputs l := by
  unfold coreTurnOf at h
  split at h <;> cases h
  · exact ⟨s.inputs, rfl⟩
  · exact ⟨_, rfl⟩

theorem coreTurnOf_isSome_iff {s : State} :
    (∃ u, coreTurnOf s = some u) ↔ s.inputs = [] ∨ ∃ rest, s.inputs = .coreTurn :: rest := by
  unfold coreTurnOf
  split <;> simp [*]

/-- A turn of the core that runs `i` is a completion of `i`, and no other step is. -/
theorem completes_iff {s : State} {i : Instr} :
    Completes s i ↔ ∃ u, coreTurnOf s = some u ∧ u.busy = true ∧ decode u.cmdL = .ok i ∧
      (u.errCode = .noError ∨ i = .clear) := by
  unfold Completes
  rw [← coreTurnOf_isSome_iff]
  constructor
  · rintro ⟨⟨u, hu⟩, h⟩
    obtain ⟨l, rfl⟩ := coreTurnOf_eq hu
    exact ⟨_, hu, h⟩
  · rintro ⟨u, hu, h⟩
    obtain ⟨l, rfl⟩ := coreTurnOf_eq hu
    exact ⟨⟨_, hu⟩, h⟩

/-- Everything a step can do when it answers a next state. -/
theorem step_next {s t : State} (h : step s = .next t) :
    (∃ u, coreTurnOf s = some u ∧ coreStep u = .next t) ∨
    (∃ a w rest r, s.inputs = .read a w :: rest ∧ accessTarget a w = .ok r ∧ t = (s.setInputs rest).hostRead r) ∨
    (∃ a w v rest r, s.inputs = .write a w v :: rest ∧ accessTarget a w = .ok r ∧
      t = (s.setInputs rest).hostWrite r v) ∨
    (∃ rest, s.inputs = .reset :: rest ∧ t = (s.setInputs rest).resetMachine) := by
  unfold step at h
  split at h
  · rename_i hin
    exact .inl ⟨s, by simp [coreTurnOf, hin], h⟩
  · rename_i rest hin
    exact .inl ⟨s.setInputs rest, by simp [coreTurnOf, hin], h⟩
  · rename_i a w rest hin
    unfold memRead at h
    split at h
    · cases h
    · cases h
      exact .inr (.inl ⟨a, w, rest, _, hin, ‹_›, rfl⟩)
  · rename_i a w v rest hin
    unfold memWrite at h
    split at h
    · cases h
    · cases h
      exact .inr (.inr (.inl ⟨a, w, v, rest, _, hin, ‹_›, rfl⟩))
  · rename_i rest hin
    cases h
    exact .inr (.inr (.inr ⟨rest, hin, rfl⟩))

/-- Everything a host write changes (20_memory.md R57, 40_command_model.md R90). -/
theorem hostWrite_cases (s : State) (r : Reg) (v : Word) :
    (r = .cmd ∧ s.hostWrite r v = offer v s) ∨
    (r = .data ∧ s.hostWrite r v = { s with data := v }) ∨
    (r = .intEn ∧ s.hostWrite r v = { s with intEn := v.setWidth 2 }) ∨
    (r = .intStat ∧ s.hostWrite r v = s.ackInterrupts v) ∨
    ((r ≠ .cmd ∧ r ≠ .data ∧ r ≠ .intEn ∧ r ≠ .intStat) ∧ s.hostWrite r v = s) := by
  cases r <;> simp [State.hostWrite]

/-- Everything `Offer` can do (40_command_model.md R90). -/
theorem offer_cases (c : Word) (s : State) :
    (s.busy = true ∧ offer c s = recordError .busy c s) ∨
    (s.busy = false ∧ s.errCode ≠ .noError ∧ c ≠ 1 ∧ offer c s = s) ∨
    (s.busy = false ∧ (s.errCode = .noError ∨ c = 1) ∧ offer c s = s.latch c) := by
  unfold offer
  cases hb : s.busy
  · by_cases he : s.errCode = .noError
    · simp [State.locked, he]
    · by_cases hc : c = 1#32 <;> simp [State.locked, he, hc]
  · simp

end Sys2Proof.Machine
end

