-- ==== Sys2Proof/Laws/Totals.lean ====
section
/-! SUPPORT. Sums over the node store and over the tree: the total `Σ w · len` of 42_codegen.md R135. -/

namespace Sys2Proof.Machine

/-- A sum over the entries that satisfy `P`, as a sum over indices. -/
theorem sum_filter_eq (nodes : List Node) (P : Node → Bool) (f : Node → Nat) :
    ((nodes.filter P).map f).sum =
      ∑ i ∈ Finset.range nodes.length, (nodes[i]?).elim 0 fun n => if P n then f n else 0 := by
  induction nodes with
  | nil => simp
  | cons n nodes ih =>
    rw [List.length_cons, Finset.sum_range_succ']
    simp only [List.getElem?_cons_succ, List.getElem?_cons_zero, Option.elim_some]
    rw [← ih]
    cases hP : P n <;> simp [hP, Nat.add_comm]

/-- A sum over distinct indices of entries that satisfy `P` is part of the sum over all of them, and all of it if the
others add nothing. -/
theorem sum_indices_le {nodes : List Node} {P : Node → Bool} {f : Node → Nat} {L : List NodeIdx} (hnd : L.Nodup)
    (h : ∀ i ∈ L, ∃ n, nodeAt nodes i = some n ∧ P n = true) :
    (L.map fun i => (nodeAt nodes i).elim 0 f).sum ≤ ((nodes.filter P).map f).sum ∧
    ((∀ i n, nodes[i]? = some n → P n = true → (∀ j ∈ L, j.toNat ≠ i) → f n = 0) →
      (L.map fun i => (nodeAt nodes i).elim 0 f).sum = ((nodes.filter P).map f).sum) := by
  have hnd' : (L.map BitVec.toNat).Nodup := hnd.map fun a b e => BitVec.eq_of_toNat_eq e
  have hsum : (L.map fun i => (nodeAt nodes i).elim 0 f).sum =
      ∑ i ∈ (L.map BitVec.toNat).toFinset, (nodes[i]?).elim 0 fun n => if P n then f n else 0 := by
    rw [List.sum_toFinset _ hnd', List.map_map]
    refine congrArg List.sum (List.map_congr_left fun i hi => ?_)
    obtain ⟨n, hn, hP⟩ := h i hi
    rw [Function.comp_apply, hn]
    rw [nodeAt] at hn
    simp [hn, hP]
  have hsub : (L.map BitVec.toNat).toFinset ⊆ Finset.range nodes.length := by
    intro k hk
    rw [List.mem_toFinset, List.mem_map] at hk
    obtain ⟨i, hi, rfl⟩ := hk
    obtain ⟨n, hn, -⟩ := h i hi
    exact Finset.mem_range.mpr (nodeAt_lt hn)
  rw [hsum, sum_filter_eq]
  refine ⟨Finset.sum_le_sum_of_subset hsub, fun hz => Finset.sum_subset hsub fun k _ hk => ?_⟩
  cases hn : nodes[k]? with
  | none => rfl
  | some n =>
    rw [Option.elim_some]
    split
    · refine hz k n hn ‹_› fun j hj he => hk ?_
      rw [List.mem_toFinset, List.mem_map]
      exact ⟨j, hj, he⟩
    · rfl

variable {nodes : List Node} {root : NodeIdx} {t : NodeTree}

/-- In the tree's own table the total over the store is the total over the tree's leaves. -/
theorem TreeRules.weightedLength_eq (h : TreeRules nodes) (ht : Below nodes root t) :
    weightedLength nodes
        (fun sym => (tableAt (t.leaves.foldl (addFrom 0 0) Gathered.empty).table sym).len.toNat) =
      (t.leaves.map fun e => e.2.2.w.toNat * e.1.length).sum := by
  set len : Symbol → Nat :=
    fun sym => (tableAt (t.leaves.foldl (addFrom 0 0) Gathered.empty).table sym).len.toNat with hlen
  have hmem : ∀ e ∈ t.leaves, NodePath nodes root e.1 e.2.1 ∧ nodeAt nodes e.2.1 = some e.2.2 ∧
      e.2.2.leaf = true := fun e he => by
    obtain ⟨h1, h2⟩ := (mem_leaves ht e.1 e.2.1 e.2.2).mp he
    exact ⟨path_iff_follow.mpr h1, h2⟩
  have hlen' : ∀ e ∈ t.leaves, len e.2.2.sym = e.1.length := fun e he => by
    obtain ⟨h1, h2, h3⟩ := hmem e he
    have hle := h.path_le ht h1
    rw [hlen]
    simp only
    rw [h.entry_of_code ht ⟨_, _, h1, h2, h3, rfl⟩, BitVec.toNat_ofNat]
    omega
  have hnd := (leaves_sublist t).nodup (indices_nodup h.ok h.one ht)
  have := (sum_indices_le (nodes := nodes) (P := fun n => n.leaf) (f := fun n => n.w.toNat * len n.sym) hnd
    fun i hi => by
      obtain ⟨e, he, rfl⟩ := List.mem_map.mp hi
      exact ⟨e.2.2, (hmem e he).2⟩).2 fun i n hn hl hno => by
      have hi : i < nodes.length := (List.getElem?_eq_some_iff.mp hn).1
      have hfit := h.fit
      have hat : nodeAt nodes (BitVec.ofNat 9 i) = some n := by
        rw [nodeAt, BitVec.toNat_ofNat, Nat.mod_eq_of_lt (by omega)]
        exact hn
      have hnone : tableAt (t.leaves.foldl (addFrom 0 0) Gathered.empty).table n.sym = ⟨0, 0⟩ := by
        refine TreeRules.entry_of_no_code ht fun p hc => ?_
        obtain ⟨y, m, hp, hm, hml, hs⟩ := hc
        have hy := h.distinct y (BitVec.ofNat 9 i) m n hm hat hml hl hs
        have he := (mem_leaves ht p y m).mpr ⟨path_iff_follow.mp hp, hm, hml⟩
        refine hno y (List.mem_map.mpr ⟨_, he, rfl⟩) ?_
        rw [hy, BitVec.toNat_ofNat, Nat.mod_eq_of_lt (by omega)]
      rw [hlen]
      simp only
      rw [hnone]
      simp
  rw [weightedLength, ← this, List.map_map]
  refine congrArg List.sum (List.map_congr_left fun e he => ?_)
  rw [Function.comp_apply, (hmem e he).2.1, Option.elim_some, hlen' e he]

/-- The total over a tree's leaves is the sum of its internal nodes' weights. -/
theorem leaves_total_eq (hok : NodesOk nodes) (ht : Below nodes root t) :
    (t.leaves.map fun e => e.2.2.w.toNat * e.1.length).sum =
      (t.forks.map fun i => (nodeAt nodes i).elim 0 fun n => n.w.toNat).sum := by
  have hsucc : ∀ (L : List (List Bool × NodeIdx × Node)) (b : Bool),
      ((L.map fun e => (b :: e.1, e.2)).map fun e => e.2.2.w.toNat * e.1.length).sum =
        (L.map fun e => e.2.2.w.toNat * e.1.length).sum + (L.map fun e => e.2.2.w.toNat).sum := by
    intro L b
    induction L with
    | nil => rfl
    | cons e L ih =>
      simp only [List.map_cons, List.sum_cons, List.length_cons] at ih ⊢
      rw [ih]
      ring
  induction ht with
  | leaf => simp [NodeTree.leaves, NodeTree.forks]
  | @fork i n l r hn hl hbl hbr ihl ihr =>
    obtain ⟨-, -, -, -, ln, rn, hL, hR, hw⟩ := (hok i n hn).2 hl
    simp only [NodeTree.leaves, NodeTree.forks, List.map_append, List.sum_append, List.map_cons, List.sum_cons, hn,
      Option.elim_some]
    rw [hsucc, hsucc, ihl, ihr, hw, weight_below hok hbl hL, weight_below hok hbr hR]
    omega

/-- The sum of the internal nodes' weights. -/
def innerWeight (nodes : List Node) : Nat := ((nodes.filter fun n => !n.leaf).map fun n => n.w.toNat).sum

/-- Merging adds internal nodes of no more weight than any lengths that satisfy Kraft's inequality cost
(41_queue_and_build.md R117, R120). -/
theorem merge_cost (fuel : Nat) {nodes nodes' : List Node} {pq pq' : List Entry} (h : Forest nodes pq)
    (hm : mergeAll fuel nodes pq = .ok (nodes', pq')) (l : Entry → Nat) (hk : Laws.Kraft pq.toFinset l) :
    innerWeight nodes' ≤ innerWeight nodes + ∑ e ∈ pq.toFinset, e.w.toNat * l e := by
  induction fuel generalizing nodes pq l with
  | zero =>
    cases hm
    exact Nat.le_add_right _ _
  | succ fuel ih =>
    match pq, h, hm, hk with
    | [], h, hm, hk =>
      cases hm
      exact Nat.le_add_right _ _
    | [e], h, hm, hk =>
      cases hm
      exact Nat.le_add_right _ _
    | a :: b :: rest, h, hm, hk =>
      have hroom := h.room
      simp only [List.length_cons] at hroom
      have hcap : nodes.length < Config.nodeCapacity := by simp only [Config.nodeCapacity]; omega
      have hlen : nodes.length < 512 := by omega
      rw [Machine.mergeAll] at hm
      simp only [pqPopMin, allocNode_of_lt hcap] at hm
      set m : Entry := ⟨a.w + b.w, nextIdx nodes⟩ with hmdef
      have hnd := rising_nodup h.rising
      rw [List.nodup_cons, List.nodup_cons] at hnd
      have hrise := List.pairwise_cons.mp h.rising
      have hrise' := List.pairwise_cons.mp hrise.2
      have e1 : ((a :: b :: rest).toFinset.erase a) = (b :: rest).toFinset := by
        rw [List.toFinset_cons, Finset.erase_insert (by simpa using hnd.1)]
      have e2 : ((b :: rest).toFinset.erase b) = rest.toFinset := by
        rw [List.toFinset_cons, Finset.erase_insert (by simpa using hnd.2.1)]
      have e3 : (pqInsert m rest).toFinset = insert m rest.toFinset := by
        rw [List.toFinset_eq_of_perm _ _ (pqInsert_perm _ rest), List.toFinset_cons]
      have hltw : ∀ {x y : Entry}, x.lt y = true → x.w.toNat ≤ y.w.toNat := by
        intro x y hxy
        rcases Entry.lt_iff.mp hxy with h | ⟨h, -⟩
        · exact Nat.le_of_lt (BitVec.lt_def.mp h)
        · rw [h]
      have hsum := h.weight
      simp only [List.map_cons, List.sum_cons] at hsum
      have hw : m.w.toNat = a.w.toNat + b.w.toNat := by
        rw [hmdef, BitVec.toNat_add, Nat.mod_eq_of_lt (by omega)]
      obtain ⟨l', hk', hcost⟩ := Laws.exists_merged (q := (a :: b :: rest).toFinset) (w := fun e => e.w.toNat)
        (l := l) (a := a) (b := b) (m := m)
        (by simp) (by simp)
        (by
          intro e
          subst e
          simp at hnd)
        (by
          intro x hx
          rw [List.mem_toFinset] at hx
          rcases List.mem_cons.mp hx with rfl | hx
          · exact Nat.le_refl _
          · exact hltw (hrise.1 x hx))
        (by
          intro x hx hne
          rw [List.mem_toFinset] at hx
          rcases List.mem_cons.mp ((List.mem_cons.mp hx).resolve_left hne) with rfl | hx
          · exact Nat.le_refl _
          · exact hltw (hrise'.1 x hx))
        (by
          intro hx
          rw [List.mem_toFinset] at hx
          obtain ⟨n, hn, -⟩ := h.entry m hx
          have := nodeAt_lt hn
          rw [hmdef, nextIdx_toNat hlen] at this
          omega)
        hw hk
      rw [e1, e2, ← e3] at hk' hcost
      have := ih (pq := pqInsert m rest) h.merge hm l' hk'
      have e4 : innerWeight (nodes ++ [innerNode (a.w + b.w) a.i b.i]) = innerWeight nodes + m.w.toNat := by
        simp [innerWeight, List.filter_append, innerNode, hmdef]
      rw [e4] at this
      omega

end Sys2Proof.Machine
end

