-- ==== Sys2Proof/Tests/Slice0.lean ====
section
/-! SUPPORT. The author's tests: the well-formedness smoke, words written out from 30_encoding.md R71 to R74, one or
two steps per command with the results 95_test_vectors.md gives, and a witness for the hypotheses of every statement
of Certificates/Slice0/Obligations.lean. -/

namespace Sys2Proof.Tests

open Sys2Proof.Machine

/-! ### Small states -/

def leaf (sym : Symbol) (w : Weight) : Node := ⟨true, sym, w, 0x1FF, 0x1FF⟩

def inner (w : Weight) (l r : NodeIdx) : Node := ⟨false, 0, w, l, r⟩

/-- The next state of an outcome, if it is one. -/
def nextOf (o : Outcome) : Option State :=
  match o with
  | .next s => some s
  | .fault _ => none
  | .refused _ => none

/-- After `leaf 'a', 4`. -/
def loadA : State :=
  { State.reset with dataL := 4, nodes := [leaf 0x61 4], pq := [⟨4, 0⟩], symSeen := markSeen 0 0x61 }

/-- After `leaf 'a', 2` and `leaf 'b', 2`. -/
def loadAABB : State :=
  { State.reset with
    dataL := 2, nodes := [leaf 0x61 2, leaf 0x62 2], pq := [⟨2, 0⟩, ⟨2, 1⟩],
    symSeen := markSeen (markSeen 0 0x61) 0x62, res0 := 1 }

/-- After `leaf 'a', 5`, `leaf 'b', 3` and `leaf 'c', 3`. -/
def loadABC : State :=
  { State.reset with
    dataL := 3, nodes := [leaf 0x61 5, leaf 0x62 3, leaf 0x63 3], pq := [⟨3, 1⟩, ⟨3, 2⟩, ⟨5, 0⟩],
    symSeen := markSeen (markSeen (markSeen 0 0x61) 0x62) 0x63, res0 := 2 }

/-- After the four leaves of "aaaabbbccd". -/
def loadExample : State :=
  { State.reset with
    dataL := 1, nodes := [leaf 0x61 4, leaf 0x62 3, leaf 0x63 2, leaf 0x64 1],
    pq := [⟨1, 3⟩, ⟨2, 2⟩, ⟨3, 1⟩, ⟨4, 0⟩],
    symSeen := markSeen (markSeen (markSeen (markSeen 0 0x61) 0x62) 0x63) 0x64, res0 := 3 }

/-- BUILD with nothing queued. -/
def noTree : State := State.reset.builtEmpty []

/-- GENCODES after that. -/
def noTreeTable : State := noTree.withCodes Gathered.empty

/-- BUILD of one leaf. -/
def single : State := loadA.builtTree [leaf 0x61 4] ⟨4, 0⟩ (leaf 0x61 4)

/-- GENCODES after that. -/
def singleTable : State := single.withCodes ⟨tableSet emptyTable 0x61 ⟨1, 0⟩, 1, 4⟩

/-- BUILD of "aabb". -/
def aabb : State :=
  loadAABB.builtTree [leaf 0x61 2, leaf 0x62 2, inner 4 0 1] ⟨4, 2⟩ (inner 4 0 1)

/-- GENCODES after that. -/
def aabbTable : State :=
  aabb.withCodes ⟨tableSet (tableSet emptyTable 0x61 ⟨1, 0⟩) 0x62 ⟨1, 1⟩, 2, 4⟩

/-- BUILD of "aaaabbbccd". -/
def exampleTree : State :=
  loadExample.builtTree
    [leaf 0x61 4, leaf 0x62 3, leaf 0x63 2, leaf 0x64 1, inner 3 3 2, inner 6 1 4, inner 10 0 5] ⟨10, 6⟩ (inner 10 0 5)

/-- `dec 1, 0x1` after that: the walker stands at node 5. -/
def midCode : State := { exampleTree with dataL := 1 }.afterWalk ⟨5, []⟩

/-! ### They satisfy the invariant: each is reached by commands -/

theorem inv_after {i : Instr} {d : Word} {s t : State} (h : Invariant s) (hw : i.wellFormed = true)
    (hl : legal i.op s.phase s.ctValid = true) (hb : bodyOf i { s with dataL := d } = .ok t) : Invariant t :=
  Invariant.bodyOf (h.of_sameSession (by constructor <;> rfl) h.errorRecord : Invariant { s with dataL := d }) hw hl hb

theorem inv_start : Invariant State.reset.newSession := Invariant.newSession _

theorem inv_loadA : Invariant loadA := inv_after (i := .pushleaf 0x61) (d := 4) inv_start rfl rfl rfl

theorem inv_loadAABB : Invariant loadAABB :=
  inv_after (i := .pushleaf 0x62) (d := 2)
    (inv_after (i := .pushleaf 0x61) (d := 2) inv_start rfl rfl rfl) rfl rfl rfl

theorem inv_loadABC : Invariant loadABC :=
  inv_after (i := .pushleaf 0x63) (d := 3)
    (inv_after (i := .pushleaf 0x62) (d := 3)
      (inv_after (i := .pushleaf 0x61) (d := 5) inv_start rfl rfl rfl) rfl rfl rfl) rfl rfl rfl

theorem inv_loadExample : Invariant loadExample :=
  inv_after (i := .pushleaf 0x64) (d := 1)
    (inv_after (i := .pushleaf 0x63) (d := 2)
      (inv_after (i := .pushleaf 0x62) (d := 3)
        (inv_after (i := .pushleaf 0x61) (d := 4) inv_start rfl rfl rfl) rfl rfl rfl) rfl rfl rfl) rfl rfl rfl

theorem inv_noTree : Invariant noTree := inv_after (i := .build) (d := 0) inv_start rfl rfl rfl

theorem inv_noTreeTable : Invariant noTreeTable := inv_after (i := .gencodes) (d := 0) inv_noTree rfl rfl rfl

theorem inv_single : Invariant single := inv_after (i := .build) (d := 4) inv_loadA rfl rfl rfl

theorem inv_singleTable : Invariant singleTable := inv_after (i := .gencodes) (d := 4) inv_single rfl rfl rfl

theorem inv_aabb : Invariant aabb := inv_after (i := .build) (d := 2) inv_loadAABB rfl rfl rfl

theorem inv_aabbTable : Invariant aabbTable := inv_after (i := .gencodes) (d := 2) inv_aabb rfl rfl rfl

theorem inv_exampleTree : Invariant exampleTree := inv_after (i := .build) (d := 1) inv_loadExample rfl rfl rfl

theorem inv_midCode : Invariant midCode := inv_after (i := .decode 1) (d := 1) inv_exampleTree rfl rfl rfl

/-! ### Well-formedness: the one check, and terms it accepts -/

theorem test_wellFormed_refuses_decode_0 : Instr.wellFormed (.decode 0) = false := by decide

theorem test_wellFormed_refuses_decode_33 : Instr.wellFormed (.decode 33) = false := by decide

theorem test_wellFormed_accepts_bounds :
    Instr.wellFormed (.decode 1) = true ∧ Instr.wellFormed (.decode 32) = true ∧
    Instr.wellFormed (.readnode 511) = true := by decide

/-! ### Words, bit by bit from R71 to R74 (fields from the high end: reserved, IDX or CNT, SYM, K, OPC) -/

theorem test_word_nop : decode 0b00000000000000000000000000000000 = .ok .nop := by decide

theorem test_word_clear : decode 0b00000000000000000000000000000001 = .ok .clear := by decide

theorem test_word_pushleaf : decode 0b0000000000000000_10100011_0000_0010 = .ok (.pushleaf 0b10100011) := by decide

theorem test_word_pqpop : decode 0b00000000000000000000000000000011 = .ok .pqpop := by decide

theorem test_word_build : decode 0b00000000000000000000000000000100 = .ok .build := by decide

theorem test_word_gencodes : decode 0b00000000000000000000000000000101 = .ok .gencodes := by decide

theorem test_word_lookup : decode 0b0000000000000000_01100001_0_101_0110 = .ok (.lookup 0b01100001 0b101) := by decide

theorem test_word_decode : decode 0b00000000000_10010_0000000000000111 = .ok (.decode 19) := by decide

theorem test_word_decend : decode 0b00000000000000000000000000001000 = .ok .decend := by decide

theorem test_word_decrst : decode 0b00000000000000000000000000001001 = .ok .decrst := by decide

theorem test_word_readnode : decode 0b0000000_101010110_000000000000_1010 = .ok (.readnode 0b101010110) := by decide

/-- 95_test_vectors.md 2.1: reserved bits. -/
theorem test_word_reserved_bits :
    decode 0x000000F6 = .error .reservedBit ∧ decode 0x00200007 = .error .reservedBit ∧
    decode 0x0200000A = .error .reservedBit ∧ decode 0x00000010 = .error .reservedBit ∧
    decode 0x00016102 = .error .reservedBit := by decide

/-- 95_test_vectors.md 2.1: reserved opcodes. -/
theorem test_word_reserved_opcodes :
    decode 0x0000000B = .error .reservedOpcode ∧ decode 0x0000000F = .error .reservedOpcode ∧
    decode 0xFFFFFFFF = .error .reservedOpcode := by decide

theorem test_tableWord :
    decodeTableWord 32 0x00120007 = some (.decode 19) ∧ decodeTableWord 32 0x0000000B = none := by decide

/-! ### One command each, with the results of 95_test_vectors.md -/

/-- 2.2. -/
theorem test_nop :
    (nextOf (exec .nop State.reset)).map (fun t => (t.intStat, t.statusWord)) = some (0b01, 0x0C0) := by
  decide +kernel

/-- 2.2: DATA and INT_EN are kept. -/
theorem test_clear :
    (nextOf (exec .clear { aabb with data := 0x1234, intEn := 0b10 })).map
        (fun t => ((t.statusWord, t.data, t.intEn), (t.root, t.ptr), (t.nodes, t.symSeen, t.res1))) =
      some ((0x0C0, 0x1234, 0b10), (0x1FF, 0x1FF), ([], 0, 0)) := by decide +kernel

/-- 2.3. -/
theorem test_pushleaf :
    (nextOf (exec (.pushleaf 0xFF) { State.reset with dataL := 0xFFFFFFFF })).map
        (fun t => (t.res0, t.nodes, t.pq)) =
      some (0, [⟨true, 0xFF, 0xFFFFFFFF, 0x1FF, 0x1FF⟩], [⟨0xFFFFFFFF, 0⟩]) := by decide +kernel

/-- 2.3: the weight is checked before the symbol. -/
theorem test_pushleaf_weight_first :
    (nextOf (exec (.pushleaf 0x61) { loadA with dataL := 0, cmdL := 0x00006102 })).map
        (fun t => (t.errCode, t.errCmd, t.nodes.length)) = some (.badWeight, 0x00006102, 1) := by decide +kernel

/-- 2.3: the tie at weight 3 goes to the earlier push. -/
theorem test_pqpop :
    (nextOf (exec .pqpop loadABC)).map (fun t => (t.res0, t.res1, t.res2, t.pq.length)) =
      some (1, 3, 0x00016200, 2) := by decide +kernel

theorem test_pqpop_empty :
    (nextOf (exec .pqpop { State.reset with cmdL := 0x00000003 })).map
        (fun t => (t.errCode, t.errCmd, t.statusWord)) = some (.emptyPop, 0x00000003, 0x0C2) := by decide +kernel

/-- 2.4, the fifth row. -/
theorem test_build :
    (nextOf (exec .build loadExample)).map
        (fun t => (t.nodes.drop 4, t.root, t.res1, t.statusWord)) =
      some ([inner 3 3 2, inner 6 1 4, inner 10 0 5], 6, 10, 0x0CC) := by decide +kernel

/-- 2.4, the ninth row: a weight of 33 bits. -/
theorem test_build_wide :
    (nextOf (exec .build { State.reset with
        nodes := [leaf 0x78 0xFFFFFFFF, leaf 0x79 0xFFFFFFFF, leaf 0x7A 1],
        pq := [⟨1, 2⟩, ⟨0xFFFFFFFF, 0⟩, ⟨0xFFFFFFFF, 1⟩] })).map
        (fun t => (t.nodes.drop 3, t.root, t.res1, t.res2)) =
      some ([inner 0x100000000 2 0, inner 0x1FFFFFFFF 1 3], 4, 0xFFFFFFFF, 1) := by decide +kernel

/-- 2.5. -/
theorem test_gencodes :
    (nextOf (exec .gencodes exampleTree)).map
        (fun t => ([t.res0, t.res1, t.res2], t.ct.map fun c => [tableAt c 0x61, tableAt c 0x63, tableAt c 0x64])) =
      some ([4, 19, 0], some [⟨1, 0⟩, ⟨3, 7⟩, ⟨3, 3⟩]) := by decide +kernel

/-- 2.5: no tree. -/
theorem test_gencodes_no_tree :
    (nextOf (exec .gencodes noTree)).map (fun t => (t.res0, t.res1, t.statusWord)) = some (0, 0, 0x0E4) := by
  decide +kernel

/-- 2.5. -/
theorem test_lookup :
    (nextOf (exec (.lookup 0x62 0) aabbTable)).map (fun t => (t.res0, t.res1)) = some (1, 1) := by decide +kernel

/-- 2.5: a word beyond the code. -/
theorem test_lookup_beyond :
    (nextOf (exec (.lookup 0x61 1) aabbTable)).map (fun t => (t.res0, t.res1, t.errCode)) =
      some (1, 0, .noError) := by decide +kernel

/-- 2.6. -/
theorem test_decode :
    (nextOf (exec (.decode 19) { exampleTree with dataL := 0x3FD50 })).map (fun t => (t.ob, t.ptr, t.res0)) =
      some ([0x61, 0x61, 0x61, 0x61, 0x62, 0x62, 0x62, 0x63, 0x63, 0x64], 6, 10) := by decide +kernel

/-- 2.6: a chunk of 32 bits that ends inside a code. -/
theorem test_decode_32 :
    (nextOf (exec (.decode 32) { exampleTree with dataL := 0xFFFFFFFF })).map (fun t => (t.ob, t.ptr)) =
      some (List.replicate 10 0x63, 4) := by decide +kernel

/-- 2.6. -/
theorem test_decend :
    (nextOf (exec .decend { midCode with cmdL := 0x00000008 })).map (fun t => (t.errCode, t.errCmd, t.ptr)) =
      some (.midCode, 0x00000008, 5) := by decide +kernel

/-- 2.6: never mid-code in single mode. -/
theorem test_decend_single : (nextOf (exec .decend single)).map (fun t => t.errCode) = some .noError := by
  decide +kernel

/-- 2.6. -/
theorem test_decrst :
    (nextOf (exec .decrst { midCode with ob := [0x61] })).map (fun t => (t.ptr, t.ob, t.outCount)) =
      some (6, [], 0) := by decide +kernel

/-- 2.7. -/
theorem test_readnode :
    (nextOf (exec (.readnode 4) exampleTree)).map (fun t => (t.res0, t.res1, t.res2)) =
      some (0x00020003, 3, 0) := by decide +kernel

theorem test_readnode_leaf :
    (nextOf (exec (.readnode 3) exampleTree)).map (fun t => (t.res0, t.res1, t.res2)) =
      some (0x01FF01FF, 1, 0x00016400) := by decide +kernel

/-! ### The step and the host port -/

/-- The placed word runs as the first command after reset (the host's own question). -/
theorem test_withFetchWord :
    (nextOf (step (State.reset.withFetchWord 32 0x00000005))).map (fun t => (t.errCode, t.errCmd, t.busy)) =
      some (.badPhase, 0x00000005, false) := by decide +kernel

/-- 2.2: a command in flight when `E_BUSY` was recorded is abandoned. -/
theorem test_abandoned :
    (nextOf (step { State.reset with busy := true, cmdL := 0x00006102, dataL := 2, errCode := .busy })).map
        (fun t => (t.nodes, t.busy, t.intStat)) = some ([], false, 0) := by decide +kernel

/-- 2.6: `OUTBUF[10]` stands at offset 0xA8 and reads 0 from `OUT_COUNT` on. -/
theorem test_outbuf : regAt 0xA8 = .outBuf 10 ∧ ({ aabb with ob := [0x61] }).regValue (.outBuf 10) = 0 := by
  decide +kernel

/-- Every register of the map has its own offset. -/
theorem test_regAt : regAt 0x0C = .status ∧ regAt 0x3C = .intStat ∧ regAt 0x40 = .reserved ∧
    regAt 0x7C = .reserved ∧ regAt 0x80 = .outBuf 0 ∧ regAt 0xFC = .outBuf 31 := by decide

/-- 30_encoding.md R79: `code` of a 46-bit code looks up words 0 and 1, and of one longer than 224 bits all eight. -/
theorem test_code_indices : codeIndices 46 = [0, 1] ∧ codeIndices 32 = [0] ∧
    codeIndices 255 = [0, 1, 2, 3, 4, 5, 6, 7] := by decide

/-- 95_test_vectors.md 2.8: "write the word, wait". -/
theorem test_do_word : (assembleLine "do 0x0000000B".toList).map (Option.map fun l => l.expand (fun _ => 0) 0) =
    .ok (some [wr .cmd 0x0000000B, .coreTurn, rd .status]) := by rfl

theorem test_assembler_cases :
    assembleLine ['D', 'E', 'C', ' ', '5', ',', ' ', '0', 'x', '1', '0'] = .ok (some (.dec 5 0x10)) ∧
    assembleLine ['r', 'd', ' ', 'O', 'U', 'T', 'B', 'U', 'F', '[', '3', '1', ']'] = .ok (some (.read (.outBuf 31))) ∧
    assembleLine ['r', 'd', ' ', 'O', 'U', 'T', 'B', 'U', 'F', '[', '3', '2', ']'] = .error .badOperand ∧
    assembleLine ['N', 'o', 'p'] = .error .unknownMnemonic := by decide

/-! ### Witnesses: the hypotheses of each statement hold together somewhere -/

/-- Word `c` in flight, nothing pending, nothing recorded. -/
def flight (c : Word) (s : State) : State := { s with busy := true, cmdL := c }

/-- An error recorded. -/
def lockedState (s : State) : State := { s with errCode := .emptyPop, errCmd := 3 }

/-- The host's next access is pending. -/
def pending (e : Event) (s : State) : State := { s with inputs := [e] }

theorem witness_DecodeOfEncode :
    Instr.wellFormed (.decode 32) = true ∧ Instr.wellFormed (.lookup 0xFF 7) = true ∧
    Instr.wellFormed (.readnode 0x1FF) = true := by decide

theorem witness_EncodeOfDecode : decode 0x001F0007 = .ok (.decode 32) ∧ decode 0x01FF000A = .ok (.readnode 0x1FF) := by
  decide

theorem witness_DecodeFollowsOpcodeMap (c : Word) :
    ∃ rows : List (Instr × Word × Word), rows = opcodeMap.map fun r => (assemble r.op c, r.bits, r.mask) := ⟨_, rfl⟩

theorem witness_IllegalWordsFault :
    (pending .coreTurn (flight 0x0000000F State.reset)).inputs = .coreTurn :: [] ∧
    (flight 0x0000000F State.reset).inputs = [] ∧ (flight 0x0000000F State.reset).busy = true ∧
    (flight 0x0000000F State.reset).errCode = .noError ∧
    decode (flight 0x0000000F State.reset).cmdL = .error .reservedOpcode ∧
    decode (flight 0x00000010 State.reset).cmdL = .error .reservedBit := by decide

theorem witness_StepRunsDecodedCommand :
    ((flight 0x00000003 loadABC).inputs = [] ∧ (flight 0x00000003 loadABC).busy = true ∧
      decode (flight 0x00000003 loadABC).cmdL = .ok .pqpop ∧ (flight 0x00000003 loadABC).errCode = .noError) ∧
    ((pending .coreTurn (flight 0x00000001 (lockedState loadABC))).inputs = .coreTurn :: [] ∧
      (pending .coreTurn (flight 0x00000001 (lockedState loadABC))).busy = true ∧
      decode (pending .coreTurn (flight 0x00000001 (lockedState loadABC))).cmdL = .ok .clear) := by decide

/-- One state for each of the four clauses, and the locked one that issues CLEAR. -/
theorem witness_OfferRecordsDiscardsOrIssues (c : Word) :
    ((pending (wr .cmd c) (flight 0x00000003 loadABC)).inputs = .write (Config.hccBase + 0x04) 4 c :: [] ∧
      (pending (wr .cmd c) (flight 0x00000003 loadABC)).busy = true ∧
      (pending (wr .cmd c) (flight 0x00000003 loadABC)).errCode = .noError) ∧
    ((flight 0x00000003 (lockedState loadABC)).busy = true ∧
      (flight 0x00000003 (lockedState loadABC)).errCode ≠ .noError) ∧
    ((lockedState loadABC).busy = false ∧ (lockedState loadABC).errCode ≠ .noError ∧ (0x80000001 : Word) ≠ 1) ∧
    (loadABC.busy = false ∧ loadABC.errCode = .noError) := by
  refine ⟨⟨rfl, rfl, rfl⟩, ?_, ?_, ?_⟩ <;> decide

theorem witness_IssuedCommandRunsNext :
    ∃ s : State, Instr.wellFormed (.pushleaf 0x61) = true ∧
      s.inputs = .write (Config.hccBase + 0x04) 4 (encode (.pushleaf 0x61)) :: .coreTurn :: [] ∧
      s.busy = false ∧ s.errCode = .noError :=
  ⟨{ State.reset with inputs := [wr .cmd (encode (.pushleaf 0x61)), .coreTurn] }, rfl, rfl, rfl, rfl⟩

/-- Both clauses, at each corner of the table. -/
theorem witness_LegalityTable :
    (aabb.errCode = .noError ∧ aabb.phase = .built ∧ aabb.ctValid = false) ∧
    (loadABC.errCode = .noError ∧ loadABC.phase = .load ∧ loadABC.ctValid = false) ∧
    (aabbTable.errCode = .noError ∧ aabbTable.phase = .built ∧ aabbTable.ctValid = true) ∧
    (∃ t, exec .pqpop loadABC = .next t) ∧ (∃ t, exec (.lookup 0x61 0) aabbTable = .next t) ∧
    (∃ t, exec .decrst aabb = .next t) ∧ (∃ t, exec (.readnode 0) aabb = .next t) :=
  ⟨⟨rfl, rfl, rfl⟩, ⟨rfl, rfl, rfl⟩, ⟨rfl, rfl, rfl⟩, ⟨_, rfl⟩, ⟨_, rfl⟩, ⟨_, rfl⟩, ⟨_, rfl⟩⟩

theorem witness_FaultsArePrecise :
    (∃ s t : State, s.inputs = [] ∧ s.busy = true ∧ s.errCode = .noError ∧ step s = .next t ∧
      t.errCode ≠ .noError) ∧
    (∃ s t : State, s.inputs = .coreTurn :: [] ∧ s.busy = true ∧ s.errCode = .noError ∧ step s = .next t ∧
      t.errCode ≠ .noError) :=
  ⟨⟨flight 0x00000003 State.reset, _, rfl, rfl, rfl, rfl, by decide⟩,
    ⟨pending .coreTurn (flight 0x0000000F State.reset), _, rfl, rfl, rfl, rfl, by decide⟩⟩

theorem witness_CompletionSetsDoneOrErrp :
    (∃ t, loadABC.errCode = .noError ∧ exec .pqpop loadABC = .next t ∧ t.errCode = .noError) ∧
    (∃ t, aabb.errCode = .noError ∧ exec .pqpop aabb = .next t ∧ t.errCode ≠ .noError) :=
  ⟨⟨_, rfl, rfl, rfl⟩, ⟨_, rfl, rfl, by decide⟩⟩

theorem witness_FirstErrorIsKept :
    (∃ s t : State, s.inputs = [] ∧ s.busy = true ∧ s.errCode = .noError ∧ step s = .next t ∧
      t.errCode ≠ .noError) ∧
    (∃ s t : State, ∃ (c : Word) (rest : List Event), s.inputs = .write (Config.hccBase + 0x04) 4 c :: rest ∧
      s.busy = true ∧ step s = .next t) :=
  ⟨⟨flight 0x00000003 State.reset, _, rfl, rfl, rfl, rfl, by decide⟩,
    ⟨pending (wr .cmd 0x00006202) (flight 0x00006102 State.reset), _, _, _, rfl, rfl,
      step_write (off := 0x04) rfl (by decide) (by decide)⟩⟩

theorem witness_LockKeepsSession :
    (∃ s t : State, s.errCode ≠ .noError ∧ (∀ rest, s.inputs ≠ .reset :: rest) ∧
      ¬ Completes s .clear ∧ step s = .next t) ∧
    (∃ s t : State, s.errCode ≠ .noError ∧ (∀ rest, s.inputs ≠ .reset :: rest) ∧
      s.busy = true ∧ s.cmdL = 0x00000001 ∧ ¬ Completes s .clear ∧ step s = .next t) ∧
    (∃ s : State, s.errCode ≠ .noError ∧ s.inputs = [] ∧ s.busy = true ∧ s.cmdL ≠ 0x00000001) :=
  ⟨⟨flight 0x00000004 (lockedState loadABC), _, by decide, (fun _ h => by cases h),
      (fun h => by cases h.2.2.1), rfl⟩,
    ⟨pending (wr .data 0) (flight 0x00000001 (lockedState loadABC)), _, by decide, (fun _ h => by cases h), rfl, rfl,
      (fun h => by rcases h.1 with h | ⟨_, h⟩ <;> cases h), step_write rfl (by decide) (by decide)⟩,
    ⟨flight 0x00000004 (lockedState loadABC), by decide, rfl, rfl, by decide⟩⟩

theorem witness_LatchUnreadWhileIdle :
    (pending (wr .cmd 0) loadABC).busy = false ∧ ∀ rest, (pending (wr .cmd 0) loadABC).inputs ≠ .reset :: rest :=
  ⟨rfl, fun _ h => by cases h⟩

/-- A named register, the two ends of the reserved offsets, and `OUTBUF` at both ends and on both sides of
`OUT_COUNT`. -/
theorem witness_RegisterMapReads (off : Nat) :
    ∃ s : State, s.busy = false ∧ s.inputs = .read (Config.hccBase + off) 4 :: [] ∧
      (0x3C, s.intStat.setWidth 32) ∈ [(0x00, (0 : Word)), (0x3C, s.intStat.setWidth 32)] ∧
      (0x40 ≤ 0x40 ∧ 0x7C ≤ 0x7C ∧ 0x7C % 4 = 0) ∧ s.ob[0]? = some 0x61 ∧ s.ob.length ≤ 1 ∧ s.ob.length ≤ 31 :=
  ⟨{ aabb with ob := [0x61], inputs := [.read (Config.hccBase + off) 4] }, rfl, rfl, by simp, by decide, rfl,
    Nat.le_refl 1, Nat.le_of_ble_eq_true rfl⟩

theorem witness_ReadsHaveNoSideEffect :
    ∃ s t : State, s.inputs = .read (Config.hccBase + 0x0C) 4 :: .read (Config.hccBase + 0x0C) 4 :: [] ∧
      step s = .next t ∧ s.busy = false :=
  ⟨{ aabb with inputs := [rd .status, rd .status] }, _, rfl, step_read (off := 0x0C) rfl (by decide) (by decide), rfl⟩

theorem witness_WriteTable (off : Nat) (v : Word) :
    (pending (.write (Config.hccBase + off) 4 v) aabb).inputs = .write (Config.hccBase + off) 4 v :: [] ∧
    (0xFC < 0x100 ∧ 0xFC % 4 = 0 ∧ 0xFC ≠ 0x04 ∧ 0xFC ≠ 0x08 ∧ 0xFC ≠ 0x38 ∧ 0xFC ≠ 0x3C) :=
  ⟨rfl, by decide⟩

theorem witness_OtherAccessesAreRefused (addr width : Nat) :
    (pending (.read addr width) aabb).inputs = .read addr width :: [] ∧ (2 ≠ 4) ∧
    (Config.hccBase + 0x100 ≤ Config.hccBase + 0x100) ∧
    (Config.hccBase ≤ Config.hccBase + 0xFE ∧ Config.hccBase + 0xFE < Config.hccBase + 0x100 ∧
      (Config.hccBase + 0xFE - Config.hccBase) % 4 ≠ 0) :=
  ⟨rfl, by decide, Nat.le_refl _, by omega, by omega, by omega⟩

theorem witness_ReadsWhileBusy (off : Nat) :
    (pending (.read (Config.hccBase + off) 4) (flight 0x00000003 loadABC)).busy = true ∧
    (pending (.read (Config.hccBase + off) 4) (flight 0x00000003 loadABC)).inputs =
      .read (Config.hccBase + off) 4 :: [] ∧ (0x80 ≤ 0xFC ∧ 0xFC < 0x100 ∧ 0xFC % 4 = 0) :=
  ⟨rfl, rfl, by decide⟩

/-- A pending bit is cleared, and `irq` falls. -/
theorem witness_PendingClearedOnlyByHost :
    ∃ s t : State, step s = .next t ∧ s.intStat.getLsbD 1 = true ∧ t.intStat.getLsbD 1 = false ∧
      s.irq = true ∧ t.irq = false :=
  ⟨{ aabb with intStat := 0b10, intEn := 0b10, inputs := [wr .intStat 0b10] }, _,
    step_write (off := 0x3C) rfl (by decide) (by decide), rfl, rfl, rfl, rfl⟩

theorem witness_DataWrittenOnlyByHost :
    ∃ s t : State, step s = .next t ∧ t.data ≠ s.data ∧
      s.inputs = .write (Config.hccBase + 0x08) 4 3 :: [] ∧ s.busy = true :=
  ⟨pending (wr .data 3) (flight 0x00006102 State.reset), _, step_write (off := 0x08) rfl (by decide) (by decide),
    by decide, rfl, rfl⟩

theorem witness_ResetAndClearValues :
    (pending .reset (flight 0x00000004 (lockedState loadABC))).inputs = .reset :: [] ∧
    (∃ t, exec .clear aabbTable = .next t) ∧ aabbTable.busy = false := ⟨rfl, ⟨_, rfl⟩, rfl⟩

theorem witness_PhaseChangesOnlyByBuildClearReset :
    (∃ s t : State, step s = .next t ∧ s.phase = .built ∧ t.phase = .load) ∧
    (∃ s t : State, step s = .next t ∧ s.phase = .load ∧ t.phase = .built) :=
  ⟨⟨flight 0x00000001 aabb, _, rfl, rfl, rfl⟩, ⟨flight 0x00000004 loadA, _, rfl, rfl, rfl⟩⟩

theorem witness_NodesAreNeverRewritten :
    ∃ s t : State, step s = .next t ∧ (∀ rest, s.inputs ≠ .reset :: rest) ∧
      ¬ Completes s .clear ∧ t.nodes ≠ s.nodes :=
  ⟨flight 0x00000004 loadAABB, _, rfl, (fun _ h => by cases h), (fun h => by cases h.2.2.1), by decide⟩

theorem witness_PushleafAddsLeaf :
    loadA.phase = .load ∧ loadA.dataL ≠ 0 ∧ loadA.symSeen.getLsbD (0x62 : Symbol).toNat = false ∧
    loadA.nodes.length < 511 := by decide

theorem witness_PushleafChecksWeightThenSymbol :
    loadA.phase = .load ∧ loadA.errCode = .noError ∧ State.reset.dataL = 0 ∧ loadA.dataL ≠ 0 ∧
    loadA.symSeen.getLsbD (0x61 : Symbol).toNat = true := by decide

theorem witness_PqpopReturnsLeast : Invariant loadABC ∧ loadABC.phase = .load ∧ loadABC.pq ≠ [] :=
  ⟨inv_loadABC, rfl, by decide⟩

theorem witness_PqpopOnEmptyQueueFaults :
    State.reset.phase = .load ∧ State.reset.errCode = .noError ∧ State.reset.pq = [] := by decide

theorem witness_BuildMergesTheLeastTwo : Invariant loadExample ∧ loadExample.phase = .load ∧ loadExample.pq ≠ [] :=
  ⟨inv_loadExample, rfl, by decide⟩

theorem witness_EmptyInputIsNoError : State.reset.phase = .load ∧ State.reset.pq = [] := by decide

theorem witness_GencodesGivesPaths :
    Invariant exampleTree ∧ exampleTree.phase = .built ∧ exampleTree.treeValid = true ∧ exampleTree.single = false :=
  ⟨inv_exampleTree, rfl, rfl, rfl⟩

/-- In that tree a symbol has a code and another has none. -/
theorem witness_GencodesGivesPaths_codes :
    HasCode exampleTree.nodes exampleTree.root 0x61 [false] ∧
    ∀ p, ¬ HasCode exampleTree.nodes exampleTree.root 0x7A p := by
  refine ⟨⟨0, leaf 0x61 4, .left (p := []) (n := inner 10 0 5) .root rfl rfl, rfl, rfl, rfl⟩, ?_⟩
  rintro p ⟨y, n, -, hn, -, hs⟩
  have : ∀ n ∈ exampleTree.nodes, n.sym ≠ 0x7A := by decide
  exact this n (nodeAt_mem hn) hs

theorem witness_GencodesSpecialCases :
    (Invariant single ∧ single.phase = .built ∧ single.single = true) ∧
    (Invariant noTree ∧ noTree.phase = .built ∧ noTree.treeValid = false) :=
  ⟨⟨inv_single, rfl, rfl⟩, ⟨inv_noTree, rfl, rfl⟩⟩

theorem witness_GencodesTotals : Invariant aabb ∧ aabb.phase = .built := ⟨inv_aabb, rfl⟩

theorem witness_GencodesIsRepeatable :
    Invariant aabb ∧ aabb.phase = .built ∧ ∃ t u, exec .gencodes aabb = .next t ∧ exec .gencodes t = .next u :=
  ⟨inv_aabb, rfl, _, _, rfl, rfl⟩

theorem witness_CodesArePrefixFree :
    ∃ tab, Invariant aabbTable ∧ aabbTable.ct = some tab ∧ (0x61 : Symbol) ≠ 0x62 ∧
      (tableAt tab 0x61).len ≠ 0 ∧ (tableAt tab 0x62).len ≠ 0 :=
  ⟨_, inv_aabbTable, rfl, by decide, by decide, by decide⟩

theorem witness_LookupReturnsCodeWord :
    ∃ tab, aabbTable.phase = .built ∧ aabbTable.ct = some tab ∧ (tableAt tab 0x62).len ≠ 0 :=
  ⟨_, rfl, rfl, by decide⟩

theorem witness_LookupOfMissingCodeFaults :
    Invariant aabbTable ∧ aabbTable.phase = .built ∧ aabbTable.errCode = .noError ∧ aabbTable.ctValid = true ∧
    ∀ p, ¬ HasCode aabbTable.nodes aabbTable.root 0x7A p := by
  refine ⟨inv_aabbTable, rfl, rfl, rfl, ?_⟩
  rintro p ⟨y, n, -, hn, -, hs⟩
  have : ∀ n ∈ aabbTable.nodes, n.sym ≠ 0x7A := by decide
  exact this n (nodeAt_mem hn) hs

/-- With the walker inside a code. -/
theorem witness_DecodeConsumesCodes :
    Invariant midCode ∧ midCode.phase = .built ∧ midCode.treeValid = true ∧ midCode.single = false ∧
    NodePath midCode.nodes midCode.root [true] midCode.ptr :=
  ⟨inv_midCode, rfl, rfl, rfl, .right (p := []) (n := inner 10 0 5) .root rfl rfl⟩

theorem witness_DecodeInSingleMode : Invariant single ∧ single.phase = .built ∧ single.single = true :=
  ⟨inv_single, rfl, rfl⟩

theorem witness_DecodeWithNoTreeFaults :
    noTree.phase = .built ∧ noTree.treeValid = false ∧ noTree.errCode = .noError := by decide

theorem witness_DecendChecksCodeBoundary :
    (midCode.phase = .built ∧ midCode.treeValid = true ∧ midCode.single = false ∧ midCode.ptr ≠ midCode.root ∧
      midCode.errCode = .noError) ∧ (aabb.phase = .built ∧ aabb.ptr = aabb.root) ∧
    (noTree.phase = .built ∧ noTree.treeValid = false) ∧ (single.phase = .built ∧ single.single = true) := by decide

theorem witness_DecrstRestartsStream : midCode.phase = .built ∧ ∃ t, exec .decrst midCode = .next t :=
  ⟨rfl, _, rfl⟩

theorem witness_ReadnodeReturnsEntry : exampleTree.nodes[(6 : NodeIdx).toNat]? = some (inner 10 0 5) := by decide

theorem witness_ReadnodeBadIndexFaults :
    (exampleTree.errCode = .noError ∧ exampleTree.nodes.length ≤ (7 : NodeIdx).toNat) ∧ Invariant exampleTree :=
  ⟨by decide, inv_exampleTree⟩

theorem witness_StepKeepsInvariant :
    ∃ t, Invariant (flight 0x00000004 loadExample) ∧ step (flight 0x00000004 loadExample) = .next t :=
  ⟨_, inv_loadExample.of_sameSession (by constructor <;> rfl) (fun _ => rfl), rfl⟩

/-- States whose step goes on, and one whose step is refused. -/
theorem witness_InvariantStatesNeverFail :
    (Invariant midCode ∧ Invariant noTreeTable ∧ Invariant singleTable) ∧
    (Invariant (pending (.read (Config.hccBase + 2) 4) aabb) ∧
      step (pending (.read (Config.hccBase + 2) 4) aabb) = .refused .accessMisaligned) :=
  ⟨⟨inv_midCode, inv_noTreeTable, inv_singleTable⟩,
    inv_aabb.of_sameSession (by constructor <;> rfl) inv_aabb.errorRecord,
    by simp [step, pending, memRead, accessTarget_misaligned]⟩

/-- Every error a command can raise is raised in a state of the invariant. -/
theorem witness_ErrorsHaveTheirCauses :
    (Invariant State.reset.newSession ∧ State.reset.newSession.errCode = .noError ∧
      (nextOf (exec .pqpop State.reset.newSession)).map (fun t => t.errCode) = some .emptyPop ∧
      (nextOf (exec (.pushleaf 0x61) State.reset.newSession)).map (fun t => t.errCode) = some .badWeight ∧
      (nextOf (exec (.readnode 0) State.reset.newSession)).map (fun t => t.errCode) = some .badIndex ∧
      (nextOf (exec .gencodes State.reset.newSession)).map (fun t => t.errCode) = some .badPhase) ∧
    (Invariant loadA ∧ loadA.errCode = .noError ∧
      (nextOf (exec (.pushleaf 0x61) loadA)).map (fun t => t.errCode) = some .dupSym) ∧
    (Invariant noTreeTable ∧ noTreeTable.errCode = .noError ∧
      (nextOf (exec (.lookup 0x61 0) noTreeTable)).map (fun t => t.errCode) = some .codeMiss ∧
      (nextOf (exec (.decode 1) noTreeTable)).map (fun t => t.errCode) = some .malformed ∧
      (nextOf (exec .build noTreeTable)).map (fun t => t.errCode) = some .badPhase) ∧
    (Invariant singleTable ∧ singleTable.errCode = .noError ∧
      (nextOf (exec (.lookup 0x62 0) singleTable)).map (fun t => t.errCode) = some .codeMiss) ∧
    (Invariant midCode ∧ midCode.errCode = .noError ∧
      (nextOf (exec .decend midCode)).map (fun t => t.errCode) = some .midCode) := by
  refine ⟨⟨inv_start, ?_⟩, ⟨inv_loadA, ?_⟩, ⟨inv_noTreeTable, ?_⟩, ⟨inv_singleTable, ?_⟩, ⟨inv_midCode, ?_⟩⟩ <;> decide +kernel

theorem witness_StoresNeverOverflow : Invariant exampleTree := inv_exampleTree

/-- "aabb" in two chunks. -/
theorem witness_StreamRoundTrip :
    ∃ tab, Invariant aabbTable ∧ aabbTable.errCode = .noError ∧ aabbTable.ct = some tab ∧
      aabbTable.ptr = aabbTable.root ∧ (∀ sym ∈ [0x61, 0x61, 0x62, 0x62], (tableAt tab sym).len ≠ 0) ∧
      (∀ c ∈ [((3 : Nat), (4 : Word)), (1, 1)], 1 ≤ c.1 ∧ c.1 ≤ 32) ∧
      [((3 : Nat), (4 : Word)), (1, 1)].flatMap (fun c => (List.range c.1).map fun j => c.2.getLsbD j) =
        ([0x61, 0x61, 0x62, 0x62] : List Symbol).flatMap (fun sym => (tableAt tab sym).code) :=
  ⟨_, inv_aabbTable, rfl, rfl, rfl, by decide +kernel, by decide, by decide +kernel⟩

theorem witness_WaitEndsIdle :
    ∃ s : State, Invariant s ∧ s.inputs = expandWait 2 ++ [] ∧ s.busy = true :=
  ⟨{ flight 0x00000004 loadExample with inputs := expandWait 2 },
    inv_loadExample.of_sameSession (by constructor <;> rfl) (fun _ => rfl), by simp, rfl⟩

theorem witness_BuiltCodeIsOptimal :
    ∃ (t u : State) (tab : CodeTable) (code : Symbol → List Bool), Invariant loadAABB ∧ loadAABB.phase = .load ∧
      exec .build loadAABB = .next t ∧ exec .gencodes t = .next u ∧ u.ct = some tab ∧ (∀ a, code a ≠ []) ∧
      (∀ e ∈ loadAABB.pq, ∀ e' ∈ loadAABB.pq, ∀ n m, nodeAt loadAABB.nodes e.i = some n →
        nodeAt loadAABB.nodes e'.i = some m → n.sym ≠ m.sym → ¬ List.IsPrefix (code n.sym) (code m.sym)) := by
  refine ⟨_, _, _, fun a => [a == 0x61], inv_loadAABB, rfl, rfl, rfl, rfl, by simp, ?_⟩
  intro e he e' he' n m hn hm hne hpre
  have h1 : n.sym = 0x61 ∨ n.sym = 0x62 := by
    have : ∀ n ∈ loadAABB.nodes, n.sym = 0x61 ∨ n.sym = 0x62 := by decide
    exact this n (nodeAt_mem hn)
  have h2 : m.sym = 0x61 ∨ m.sym = 0x62 := by
    have : ∀ n ∈ loadAABB.nodes, n.sym = 0x61 ∨ n.sym = 0x62 := by decide
    exact this m (nodeAt_mem hm)
  rcases h1 with h1 | h1 <;> rcases h2 with h2 | h2 <;> rw [h1, h2] at hne hpre
  · exact hne rfl
  · revert hpre
    decide
  · revert hpre
    decide
  · exact hne rfl

end Sys2Proof.Tests
end

section
/-! PROOFS. The bounds of 00_scope.md R10 to R12 on the stores and the weights. -/

namespace Sys2Proof.Machine

/-- In a store within its capacity (00_scope.md R11) every entry has an index. -/
theorem exists_nodeAt_of_mem {nodes : List Node} {n : Node} (hfit : nodes.length ≤ 511) (hn : n ∈ nodes) :
    ∃ i, nodeAt nodes i = some n := by
  obtain ⟨k, hk, rfl⟩ := List.getElem_of_mem hn
  have hidx : (BitVec.ofNat 9 k).toNat = k := by simp only [BitVec.toNat_ofNat]; omega
  exact ⟨BitVec.ofNat 9 k, by rw [nodeAt, hidx, List.getElem?_eq_getElem hk]⟩

/-- Below any index there are at most 256 leaves of 32-bit weights, and these sum to the node's weight (R12). -/
theorem Invariant.weight_le {s : State} (h : Invariant s) {n : Node} (hn : n ∈ s.nodes) :
    n.w.toNat ≤ 256 * (2 ^ 32 - 1) := by
  obtain ⟨i, hi⟩ := exists_nodeAt_of_mem h.nodesFit hn
  obtain ⟨t, ht⟩ := exists_below h.nodesOk _ i n (Nat.lt_succ_self _) hi
  have hleaf : ∀ w ∈ t.leaves.map fun e => e.2.2.w.toNat, w ≤ 2 ^ 32 - 1 := by
    intro w hw
    obtain ⟨⟨p, y, m⟩, he, rfl⟩ := List.mem_map.mp hw
    obtain ⟨-, hm, hml⟩ := (mem_leaves ht p y m).mp he
    exact Nat.le_sub_one_of_lt (h.leafWeights m (nodeAt_mem hm) hml)
  calc n.w.toNat = (t.leaves.map fun e => e.2.2.w.toNat).sum := weight_below h.nodesOk ht hi
    _ ≤ t.leaves.length * (2 ^ 32 - 1) := by simpa using List.sum_le_card_nsmul _ _ hleaf
    _ ≤ 256 * (2 ^ 32 - 1) := Nat.mul_le_mul_right _ (h.treeRules.leaves_le ht)

/-- The queue holds at most 256 entries: in phase `LOAD` by the forest's count, and none in phase `BUILT`
(10_state.md R45.4). -/
theorem Invariant.pq_length_le {s : State} (h : Invariant s) : s.pq.length ≤ 256 := by
  cases hp : s.phase with
  | load => exact Nat.le_trans (Nat.le_add_left _ _) (h.forest hp).inner
  | built => simp [h.builtQueue hp]

/-- Settles O52: distinct symbols bound the leaves, the forest's count bounds the queue, and a node's weight is the
sum over the leaves below it. -/
theorem storesNeverOverflow : Obligations.StoresNeverOverflow := fun _ h =>
  ⟨leaves_le_256 h.symbolsDistinct h.nodesFit, h.nodesFit, h.pq_length_le, fun _ => h.weight_le⟩

end Sys2Proof.Machine
end

section
/-! PROOFS. The invariant over every step (10_state.md R45): a step leaves the session and the error record's rule as
they are, or completes a command, or is a reset. -/

namespace Sys2Proof.Machine

/-- A change that leaves the session as it is, and that clears no recorded error and rewrites no empty record
(60_exceptions.md R172). -/
structure KeepsSession (s t : State) : Prop extends SameSession s t where
  errorRecord : t.errCode = .noError → s.errCode = .noError ∧ t.errCmd = s.errCmd

theorem KeepsSession.trans {s t u : State} (h : KeepsSession s t) (k : KeepsSession t u) : KeepsSession s u where
  phase := k.phase.trans h.phase
  nodes := k.nodes.trans h.nodes
  pq := k.pq.trans h.pq
  symSeen := k.symSeen.trans h.symSeen
  root := k.root.trans h.root
  ptr := k.ptr.trans h.ptr
  treeValid := k.treeValid.trans h.treeValid
  single := k.single.trans h.single
  ct := k.ct.trans h.ct
  ob := k.ob.trans h.ob
  errorRecord he :=
    have ⟨ht, hu⟩ := k.errorRecord he
    have ⟨hs, hst⟩ := h.errorRecord ht
    ⟨hs, hu.trans hst⟩

theorem Invariant.of_keepsSession {s t : State} (h : Invariant s) (k : KeepsSession s t) : Invariant t :=
  h.of_sameSession k.toSameSession fun he =>
    have ⟨hs, hcmd⟩ := k.errorRecord he
    hcmd.trans (h.errorRecord hs)

/-- A change of fields outside the session and the error record. -/
theorem KeepsSession.of_sameError {s t : State} (h : SameSession s t) (hc : t.errCode = s.errCode)
    (hw : t.errCmd = s.errCmd) : KeepsSession s t :=
  { h with errorRecord := fun he => ⟨hc ▸ he, hw⟩ }

theorem KeepsSession.refl (s : State) : KeepsSession s s := .of_sameError (by constructor <;> rfl) rfl rfl

theorem setInputs_keepsSession (s : State) (l : List Event) : KeepsSession s (s.setInputs l) :=
  .of_sameError (by constructor <;> rfl) rfl rfl

theorem setIdle_keepsSession (s : State) : KeepsSession s s.setIdle :=
  .of_sameError (by constructor <;> rfl) rfl rfl

theorem latch_keepsSession (s : State) (c : Word) : KeepsSession s (s.latch c) :=
  .of_sameError (by constructor <;> rfl) rfl rfl

theorem setDone_keepsSession (s : State) : KeepsSession s s.setDone :=
  .of_sameError (by constructor <;> rfl) rfl rfl

theorem hostRead_keepsSession (s : State) (r : Reg) : KeepsSession s (s.hostRead r) :=
  .of_sameError (by constructor <;> rfl) rfl rfl

theorem recordError_keepsSession {e : ErrCode} (he : e ≠ .noError) (c : Word) (s : State) :
    KeepsSession s (recordError e c s) := by
  by_cases hs : s.errCode = .noError
  · rw [recordError_first e c s hs]
    exact { (by constructor <;> rfl : SameSession s _) with errorRecord := fun h => absurd h he }
  · rw [recordError_later e c s hs]
    exact .refl s

/-- `Offer` never touches the session (40_command_model.md R90). -/
theorem offer_keepsSession (c : Word) (s : State) : KeepsSession s (offer c s) := by
  rcases offer_cases c s with ⟨-, h⟩ | ⟨-, -, -, h⟩ | ⟨-, -, h⟩ <;> rw [h]
  · exact recordError_keepsSession (by decide) c s
  · exact .refl s
  · exact latch_keepsSession s c

theorem hostWrite_keepsSession (s : State) (r : Reg) (v : Word) : KeepsSession s (s.hostWrite r v) := by
  rcases hostWrite_cases s r v with ⟨-, h⟩ | ⟨-, h⟩ | ⟨-, h⟩ | ⟨-, h⟩ | ⟨-, h⟩ <;> rw [h]
  · exact offer_keepsSession v s
  · exact .of_sameError (by constructor <;> rfl) rfl rfl
  · exact .of_sameError (by constructor <;> rfl) rfl rfl
  · exact .of_sameError (by constructor <;> rfl) rfl rfl
  · exact .refl s

/-- A turn of the core keeps the session, or completes a command whose pseudocode then says the rest. -/
theorem coreStep_session {s t : State} (h : coreStep s = .next t) :
    KeepsSession s t ∨
    ∃ i s', s.busy = true ∧ decode s.cmdL = .ok i ∧ (s.errCode = .noError ∨ i = .clear) ∧
      legal i.op s.phase s.ctValid = true ∧ bodyOf i s.setIdle = .ok s' ∧ t = s'.setDone := by
  have idle := setIdle_keepsSession s
  cases hb : s.busy with
  | false =>
    rw [coreStep_idle hb] at h
    cases h
    exact .inl (.refl s)
  | true =>
    rw [coreStep_busy hb] at h
    rcases complete_next h with ⟨-, -, rfl⟩ | ⟨-, -, rfl⟩ | ⟨i, hd, he, hx⟩
    · exact .inl idle
    · exact .inl (idle.trans (recordError_keepsSession (by decide) _ _))
    · rcases exec_next hx with ⟨s', hl, hbody, rfl⟩ | ⟨e, hne, rfl, -⟩
      · exact .inr ⟨i, s', rfl, hd, he, hl, hbody, rfl⟩
      · exact .inl (idle.trans (recordError_keepsSession hne _ _))

/-- What a step does to the session: nothing, or what the pseudocode of the command it completes does, or a reset. -/
theorem step_session {s t : State} (h : step s = .next t) :
    KeepsSession s t ∨
    (∃ i l s', Completes s i ∧ legal i.op s.phase s.ctValid = true ∧
      bodyOf i (s.setInputs l).setIdle = .ok s' ∧ t = s'.setDone) ∨
    ∃ rest, s.inputs = .reset :: rest ∧ t = (s.setInputs rest).resetMachine := by
  rcases step_next h with ⟨u, hu, hc⟩ | ⟨_, _, rest, r, -, -, rfl⟩ | ⟨_, _, v, rest, r, -, -, rfl⟩ | hreset
  · obtain ⟨l, rfl⟩ := coreTurnOf_eq hu
    rcases coreStep_session hc with hk | ⟨i, s', hb, hd, he, hl, hbody, rfl⟩
    · exact .inl ((setInputs_keepsSession s l).trans hk)
    · exact .inr (.inl ⟨i, l, s', completes_iff.mpr ⟨_, hu, hb, hd, he⟩, hl, hbody, rfl⟩)
  · exact .inl ((setInputs_keepsSession s rest).trans (hostRead_keepsSession _ r))
  · exact .inl ((setInputs_keepsSession s rest).trans (hostWrite_keepsSession _ r v))
  · exact .inr (.inr hreset)

/-- Settles O48: the reset state is a new session. -/
theorem resetSatisfiesInvariant : Obligations.ResetSatisfiesInvariant := Invariant.newSession State.reset

/-- Settles O49: a step keeps the session, or completes a well-formed command, whose pseudocode keeps the invariant,
or resets the machine. -/
theorem stepKeepsInvariant : Obligations.StepKeepsInvariant := by
  intro s t hs h
  rcases step_session h with hk | ⟨i, l, s', hcomp, hl, hbody, rfl⟩ | ⟨rest, -, rfl⟩
  · exact hs.of_keepsSession hk
  · obtain ⟨-, -, hd, -⟩ := hcomp
    have hidle : Invariant (s.setInputs l).setIdle :=
      hs.of_keepsSession ((setInputs_keepsSession s l).trans (setIdle_keepsSession _))
    exact (hidle.bodyOf (decode_wellFormed hd) hl hbody).of_keepsSession (setDone_keepsSession s')
  · exact resetSatisfiesInvariant.of_keepsSession (.of_sameError (by constructor <;> rfl) rfl rfl)

/-! ### The phase -/

/-- Only CLEAR and BUILD write the phase (10_state.md R37). -/
theorem bodyOf_ok_phase {i : Instr} {s s' : State} (h : bodyOf i s = .ok s') :
    (i = .clear ∧ s'.phase = .load) ∨ (i = .build ∧ s'.phase = .built) ∨ s'.phase = s.phase := by
  cases i with
  | clear => cases h; exact .inl ⟨rfl, rfl⟩
  | build =>
    obtain ⟨_, _, -, ⟨-, rfl⟩ | ⟨_, _, _, -, -, rfl⟩⟩ := buildBody_ok h <;> exact .inr (.inl ⟨rfl, rfl⟩)
  | nop => cases h; exact .inr (.inr rfl)
  | pushleaf sym => obtain ⟨-, -, -, rfl⟩ := pushleafBody_ok h; exact .inr (.inr rfl)
  | pqpop => obtain ⟨_, _, _, -, -, rfl⟩ := pqpopBody_ok h; exact .inr (.inr rfl)
  | gencodes => obtain ⟨_, -, rfl⟩ := gencodesBody_ok h; exact .inr (.inr rfl)
  | lookup sym k => obtain ⟨_, -, -, rfl⟩ := lookupBody_ok h; exact .inr (.inr rfl)
  | decode n => obtain ⟨-, _, rfl, -⟩ := decodeBody_ok h; exact .inr (.inr rfl)
  | decend => rw [decendBody_ok h]; exact .inr (.inr rfl)
  | decrst => cases h; exact .inr (.inr rfl)
  | readnode idx => obtain ⟨_, -, rfl⟩ := readnodeBody_ok h; exact .inr (.inr rfl)

/-- Everything a step can do to the phase. -/
theorem step_phase {s t : State} (h : step s = .next t) :
    t.phase = s.phase ∨ (Completes s .clear ∧ t.phase = .load) ∨ (Completes s .build ∧ t.phase = .built) ∨
    ((∃ rest, s.inputs = .reset :: rest) ∧ t.phase = .load) := by
  rcases step_session h with hk | ⟨i, l, s', hcomp, -, hbody, rfl⟩ | ⟨rest, hin, rfl⟩
  · exact .inl hk.phase
  · rcases bodyOf_ok_phase hbody with ⟨rfl, hp⟩ | ⟨rfl, hp⟩ | hp
    · exact .inr (.inl ⟨hcomp, hp⟩)
    · exact .inr (.inr (.inl ⟨hcomp, hp⟩))
    · exact .inl hp
  · exact .inr (.inr (.inr ⟨⟨rest, hin⟩, rfl⟩))

/-- Settles O25: of the four things a step can do to the phase, each excludes all but the completions named. -/
theorem phaseChangesOnlyByBuildClearReset : Obligations.PhaseChangesOnlyByBuildClearReset := by
  intro s t h
  rcases step_phase h with hp | ⟨hc, hp⟩ | ⟨hc, hp⟩ | ⟨hr, hp⟩
  · exact ⟨fun hs ht => by simp [hp, hs] at ht, fun hs ht => by simp [hp, hs] at ht⟩
  · exact ⟨fun _ _ => .inl hc, by simp [hp]⟩
  · exact ⟨by simp [hp], fun _ _ => hc⟩
  · exact ⟨fun _ _ => .inr hr, by simp [hp]⟩

end Sys2Proof.Machine
end

section
/-! PROOFS. What the host sees and holds (10_state.md R20 to R36): the register map, `STATUS`, the pending bits and
their enables, `DATA`, and the latch while nothing is in flight. -/

namespace Sys2Proof.Machine

/-! ### `STATUS` -/

/-- Every bit of `STATUS`: nine flags, each at its position, and 0 above (10_state.md R24). -/
theorem statusWord_getLsbD (s : State) (j : Nat) : s.statusWord.getLsbD j =
    (s.busy && decide (j = 0) || s.locked && decide (j = 1) || (s.phase == .built) && decide (j = 2) ||
      s.treeValid && decide (j = 3) || s.single && decide (j = 4) || s.ctValid && decide (j = 5) ||
      s.atRoot && decide (j = 6) || s.pqEmpty && decide (j = 7) || s.irq && decide (j = 8)) := by
  simp only [State.statusWord, BitVec.getLsbD_or]
  rw [getLsbD_flagAt _ 0 _ (by decide), getLsbD_flagAt _ 1 _ (by decide), getLsbD_flagAt _ 2 _ (by decide),
    getLsbD_flagAt _ 3 _ (by decide), getLsbD_flagAt _ 4 _ (by decide), getLsbD_flagAt _ 5 _ (by decide),
    getLsbD_flagAt _ 6 _ (by decide), getLsbD_flagAt _ 7 _ (by decide), getLsbD_flagAt _ 8 _ (by decide)]

/-- Settles O17: each bit is the flag at its position, and no flag stands above bit 8. -/
theorem statusBits : Obligations.StatusBits := by
  refine ⟨fun s => ?_, by decide⟩
  simp only [statusWord_getLsbD]
  refine ⟨by simp, ?_, by simp, by simp, by simp, ?_, ?_, ?_, ?_, fun j hj => ?_⟩
  · simp [State.locked_iff]
  · simp [State.ctValid, Option.isSome_iff_exists]
  · simp [State.atRoot]
  · simp [State.pqEmpty]
  · simp [State.irq]
  · simp (disch := omega) only [decide_eq_false, Bool.and_false, Bool.or_false]

/-! ### The register map -/

/-- A read while `BUSY = 0` returns the register's value and draws nothing (20_memory.md R56). -/
theorem hostRead_idle {s : State} (h : s.busy = false) (r : Reg) :
    s.hostRead r = { s with reply := some (s.regValue r) } := by
  simp [State.hostRead, State.readValue, State.drawsFree, h]

theorem regAt_reserved {off : Nat} (h : 0x40 ≤ off) (h' : off < 0x80) : regAt off = .reserved := by
  have : ∀ o, o < 0x80 → 0x40 ≤ o → regAt o = .reserved := by decide
  exact this off h' h

theorem regAt_outBuf (k : Nat) : regAt (0x80 + 4 * k) = .outBuf k := by
  simp [regAt]

/-- Settles O16: the read returns the value of the register at its offset, which the map's row gives. -/
theorem registerMapReads : Obligations.RegisterMapReads := by
  intro s off v rest hidle hin hv
  suffices hreg : off < 256 ∧ off % 4 = 0 ∧ (s.setInputs rest).regValue (regAt off) = v by
    obtain ⟨hlt, h4, hval⟩ := hreg
    have hb : (s.setInputs rest).busy = false := hidle
    rw [step_read hin hlt h4, hostRead_idle hb, hval]
    rfl
  rcases hv with hrow | ⟨hlo, hhi, h4, rfl⟩ | ⟨k, hk, rfl, hsome, hnone⟩
  · simp only [List.mem_cons, Prod.mk.injEq, List.not_mem_nil, or_false] at hrow
    rcases hrow with h | h | h | h | h | h | h | h | h | h | h | h | h | h | h | h <;> obtain ⟨rfl, rfl⟩ := h <;>
      exact ⟨by decide, by decide, rfl⟩
  · rw [regAt_reserved hlo (by omega)]
    exact ⟨by omega, h4, rfl⟩
  · rw [regAt_outBuf]
    refine ⟨by omega, by omega, ?_⟩
    change ((s.ob[k]?).getD 0).setWidth 32 = v
    cases hob : s.ob[k]? with
    | some sym => exact (hsome sym hob).symm
    | none => rw [hnone (List.getElem?_eq_none_iff.mp hob)]; rfl

/-! ### The fields the host writes: `DATA`, `INT_EN`, `INT_STAT` -/

/-- A change that writes neither `DATA` nor an enable, and clears no pending bit. -/
structure KeepsHostFields (s t : State) : Prop where
  data : t.data = s.data
  intEn : t.intEn = s.intEn
  pending : ∀ b, s.intStat.getLsbD b = true → t.intStat.getLsbD b = true

theorem KeepsHostFields.refl (s : State) : KeepsHostFields s s := ⟨rfl, rfl, fun _ h => h⟩

/-- A turn of the core sets pending bits only (60_exceptions.md R179). -/
theorem coreStep_keepsHostFields {s t : State} (h : coreStep s = .next t) : KeepsHostFields s t := by
  obtain ⟨hd, he, -, -, -, -, -, -, hi⟩ := coreStep_outside h
  refine ⟨hd, he, fun b hb => ?_⟩
  rcases hi with hi | hi | hi <;> simp [hi, hb]

theorem recordError_keepsHostFields (e : ErrCode) (c : Word) (s : State) :
    KeepsHostFields s (recordError e c s) := by
  refine ⟨recordError_data e c s, recordError_intEn e c s, fun b hb => ?_⟩
  unfold recordError
  split <;> simp [hb]

/-- `Offer` sets pending bits only (40_command_model.md R90). -/
theorem offer_keepsHostFields (c : Word) (s : State) : KeepsHostFields s (offer c s) := by
  rcases offer_cases c s with ⟨-, h⟩ | ⟨-, -, -, h⟩ | ⟨-, -, h⟩ <;> rw [h]
  · exact recordError_keepsHostFields _ c s
  · exact .refl s
  · exact ⟨rfl, rfl, fun _ h => h⟩

/-- A step writes these fields only as the host's write to one of them, or as a reset. -/
theorem step_hostFields {s t : State} (h : step s = .next t) :
    KeepsHostFields s t ∨
    (∃ r v rest, (r = .data ∨ r = .intEn ∨ r = .intStat) ∧
      s.inputs = .write (Config.hccBase + r.offset) 4 v :: rest ∧ t = (s.setInputs rest).hostWrite r v) ∨
    ∃ rest, s.inputs = .reset :: rest ∧ t = (s.setInputs rest).resetMachine := by
  rcases step_next h with ⟨u, hu, hc⟩ | ⟨_, _, rest, r, -, -, rfl⟩ | ⟨_, _, v, rest, r, hin, ha, rfl⟩ | hreset
  · obtain ⟨l, rfl⟩ := coreTurnOf_eq hu
    obtain ⟨hd, he, hp⟩ := coreStep_keepsHostFields hc
    exact .inl ⟨hd, he, hp⟩
  · exact .inl ⟨rfl, rfl, fun _ h => h⟩
  · have hwrite (hr : r ≠ .reserved) : s.inputs = .write (Config.hccBase + r.offset) 4 v :: rest := by
      obtain ⟨rfl, rfl⟩ := accessTarget_addr ha hr
      exact hin
    rcases hostWrite_cases (s.setInputs rest) r v with ⟨-, hw⟩ | ⟨rfl, -⟩ | ⟨rfl, -⟩ | ⟨rfl, -⟩ | ⟨-, hw⟩
    · obtain ⟨hd, he, hp⟩ := offer_keepsHostFields v (s.setInputs rest)
      rw [hw]
      exact .inl ⟨hd, he, hp⟩
    · exact .inr (.inl ⟨_, v, rest, .inl rfl, hwrite (by decide), rfl⟩)
    · exact .inr (.inl ⟨_, v, rest, .inr (.inl rfl), hwrite (by decide), rfl⟩)
    · exact .inr (.inl ⟨_, v, rest, .inr (.inr rfl), hwrite (by decide), rfl⟩)
    · rw [hw]
      exact .inl ⟨rfl, rfl, fun _ h => h⟩
  · exact .inr (.inr hreset)

/-- Settles O23: of the host's writes only the one to `DATA` changes it, and that one changes nothing else. -/
theorem dataWrittenOnlyByHost : Obligations.DataWrittenOnlyByHost := by
  intro s t h
  refine ⟨fun hne => ?_, fun v rest hin => ?_⟩
  · rcases step_hostFields h with hk | ⟨r, v, rest, rfl | rfl | rfl, hin, rfl⟩ | ⟨rest, hin, rfl⟩
    · exact absurd hk.data hne
    · exact .inl ⟨v, rest, hin, rfl⟩
    · exact absurd rfl hne
    · exact absurd rfl hne
    · exact .inr ⟨rest, hin, rfl⟩
  · rw [step_write (off := 0x08) hin (by decide) (by decide)] at h
    cases h
    exact ⟨rfl, rfl, rfl, rfl⟩

/-! ### Pending bits and enables -/

/-- A pending bit survives the host's write to `INT_STAT` unless it is written as 1 (10_state.md R34). -/
theorem ackInterrupts_keeps {b : Nat} {s : State} {v : Word} (hs : s.intStat.getLsbD b = true)
    (hv : v.getLsbD b = false) : (s.ackInterrupts v).intStat.getLsbD b = true := by
  have hb : b < 2 := BitVec.lt_of_getLsbD hs
  simp [State.ackInterrupts, hs, hv, hb]

/-- A pending bit that a step clears was written as 1 in `INT_STAT`, or the machine was reset. -/
theorem step_clears_pending {b : Nat} {s t : State} (h : step s = .next t) (hs : s.intStat.getLsbD b = true)
    (ht : t.intStat.getLsbD b = false) :
    (∃ v rest, s.inputs = .write (Config.hccBase + 0x3C) 4 v :: rest ∧ v.getLsbD b = true) ∨
      ∃ rest, s.inputs = .reset :: rest := by
  have hcleared : ¬ t.intStat.getLsbD b = true := by simp [ht]
  rcases step_hostFields h with hk | ⟨r, v, rest, rfl | rfl | rfl, hin, rfl⟩ | ⟨rest, hin, -⟩
  · exact absurd (hk.pending b hs) hcleared
  · exact absurd hs hcleared
  · exact absurd hs hcleared
  · refine .inl ⟨v, rest, hin, ?_⟩
    by_contra hv
    exact hcleared (ackInterrupts_keeps (s := s.setInputs rest) hs (by simpa using hv))
  · exact .inr ⟨rest, hin⟩

/-- An enable that a step changes was written in `INT_EN`, or the machine was reset. -/
theorem step_changes_enable {s t : State} (h : step s = .next t) (hne : t.intEn ≠ s.intEn) :
    (∃ v rest, s.inputs = .write (Config.hccBase + 0x38) 4 v :: rest) ∨ ∃ rest, s.inputs = .reset :: rest := by
  rcases step_hostFields h with hk | ⟨r, v, rest, rfl | rfl | rfl, hin, rfl⟩ | ⟨rest, hin, -⟩
  · exact absurd hk.intEn hne
  · exact absurd rfl hne
  · exact .inl ⟨v, rest, hin⟩
  · exact absurd rfl hne
  · exact .inr ⟨rest, hin⟩

/-- `irq` is some pending bit that is enabled (60_exceptions.md R180). -/
theorem irq_iff (s : State) : s.irq = true ↔ ∃ b, b < 2 ∧ s.intStat.getLsbD b = true ∧ s.intEn.getLsbD b = true := by
  constructor
  · intro h
    simp only [State.irq, Bool.or_eq_true, Bool.and_eq_true] at h
    rcases h with h | h
    · exact ⟨0, by decide, h⟩
    · exact ⟨1, by decide, h⟩
  · rintro ⟨b, hb, hs, he⟩
    obtain rfl | rfl : b = 0 ∨ b = 1 := by omega
    · simp [State.irq, hs, he]
    · simp [State.irq, hs, he]

/-- Settles O22: `irq` falls only where its pending bit is cleared or its enable changes. -/
theorem pendingClearedOnlyByHost : Obligations.PendingClearedOnlyByHost := by
  intro s t h
  refine ⟨fun b _ => step_clears_pending h, step_changes_enable h, fun hs ht => ?_⟩
  obtain ⟨b, hb, hpend, hen⟩ := (irq_iff s).mp hs
  by_cases hne : t.intEn = s.intEn
  · have hcleared : t.intStat.getLsbD b = false := by
      by_contra hk
      have := (irq_iff t).mpr ⟨b, hb, by simpa using hk, hne ▸ hen⟩
      rw [ht] at this
      cases this
    rcases step_clears_pending h hpend hcleared with ⟨v, rest, hin, -⟩ | hreset
    · exact .inl ⟨v, rest, .inl hin⟩
    · exact .inr hreset
  · rcases step_changes_enable h hne with ⟨v, rest, hin⟩ | hreset
    · exact .inl ⟨v, rest, .inr hin⟩
    · exact .inr hreset

/-! ### The latch -/

/-- The same state with other words in the latch. -/
def State.withLatch (s : State) (c d : Word) : State := { s with cmdL := c, dataL := d }

/-- The outcome of a step from an idle state with other words in the latch: the next state holds them too, unless a
command was issued, which writes the latch (10_state.md R40). -/
def relatch (c d : Word) : Outcome → Outcome
  | .next t => .next (if t.busy then t else t.withLatch c d)
  | .fault f => .fault f
  | .refused r => .refused r

theorem relatch_next_idle {t : State} (h : t.busy = false) (c d : Word) :
    relatch c d (.next t) = .next (t.withLatch c d) := by
  simp [relatch, h]

theorem coreStep_withLatch {s : State} (h : s.busy = false) (c d : Word) :
    coreStep (s.withLatch c d) = relatch c d (coreStep s) := by
  rw [coreStep_idle h, relatch_next_idle h]
  exact coreStep_idle (s := s.withLatch c d) h

theorem hostRead_withLatch (s : State) (r : Reg) (c d : Word) :
    (s.withLatch c d).hostRead r = (s.hostRead r).withLatch c d := by
  cases r <;> rfl

theorem memRead_withLatch {s : State} (h : s.busy = false) (a w : Nat) (c d : Word) :
    memRead a w (s.withLatch c d) = relatch c d (memRead a w s) := by
  unfold memRead
  cases accessTarget a w with
  | error e => rfl
  | ok r =>
    have hread : (s.hostRead r).busy = false := h
    simp only [hostRead_withLatch, relatch_next_idle hread]

/-- `Offer` while nothing is in flight (40_command_model.md R90). -/
theorem offer_idle {s : State} (h : s.busy = false) (v : Word) :
    offer v s = if s.locked && v != 0x00000001 then s else s.latch v := by
  simp [offer, h]

theorem offer_withLatch {s : State} (h : s.busy = false) (v c d : Word) :
    .next (offer v (s.withLatch c d)) = relatch c d (.next (offer v s)) := by
  rw [offer_idle h, offer_idle (s := s.withLatch c d) h, show (s.withLatch c d).locked = s.locked from rfl]
  split
  · exact (relatch_next_idle h c d).symm
  · rfl

theorem hostWrite_withLatch {s : State} (h : s.busy = false) (r : Reg) (v c d : Word) :
    .next ((s.withLatch c d).hostWrite r v) = relatch c d (.next (s.hostWrite r v)) := by
  cases r with
  | cmd => exact offer_withLatch h v c d
  | _ => exact Eq.symm (relatch_next_idle (by exact h) c d)

theorem memWrite_withLatch {s : State} (h : s.busy = false) (a w : Nat) (v c d : Word) :
    memWrite a w v (s.withLatch c d) = relatch c d (memWrite a w v s) := by
  unfold memWrite
  cases accessTarget a w with
  | error e => rfl
  | ok r => exact hostWrite_withLatch h r v c d

/-- While nothing is in flight no step but a reset, which writes the latch, depends on it (10_state.md R40). -/
theorem step_withLatch {s : State} (h : s.busy = false) (hr : ∀ rest, s.inputs ≠ .reset :: rest) (c d : Word) :
    step (s.withLatch c d) = relatch c d (step s) := by
  have hin : (s.withLatch c d).inputs = s.inputs := rfl
  have hb : ∀ rest, (s.setInputs rest).busy = false := fun _ => h
  unfold step
  rw [hin]
  split
  · exact coreStep_withLatch h c d
  · exact coreStep_withLatch (hb _) c d
  · exact memRead_withLatch (hb _) _ _ c d
  · exact memWrite_withLatch (hb _) _ _ _ c d
  · exact absurd ‹_› (hr _)

/-- Settles O15: an idle turn of the core, a read and a write all commute with replacing the latch. -/
theorem latchUnreadWhileIdle : Obligations.LatchUnreadWhileIdle := fun _ c d hidle hreset =>
  step_withLatch hidle hreset c d

end Sys2Proof.Machine
end

section
/-! PROOFS. The host's accesses, the node store and the model's failures (20_memory.md): which access is refused, what
a write and a read do, that no step rewrites a node, and that no step from a state of the invariant fails. -/

namespace Sys2Proof.Machine

/-! ### Accesses that have no meaning -/

/-- The host's access to `width` bytes at `addr` is next, as a read or as a write. -/
def AccessNext (s : State) (addr width : Nat) (rest : List Event) : Prop :=
  s.inputs = .read addr width :: rest ∨ ∃ v, s.inputs = .write addr width v :: rest

theorem step_of_read {s : State} {addr width : Nat} {rest : List Event} (h : s.inputs = .read addr width :: rest) :
    step s = memRead addr width (s.setInputs rest) := by
  simp only [step, h]

theorem step_of_write {s : State} {addr width : Nat} {v : Word} {rest : List Event}
    (h : s.inputs = .write addr width v :: rest) : step s = memWrite addr width v (s.setInputs rest) := by
  simp only [step, h]

/-- An access that reaches no register is refused, whichever way it goes (20_memory.md R58). -/
theorem step_refused_of_target {s : State} {addr width : Nat} {rest : List Event} {e : Refusal}
    (h : AccessNext s addr width rest) (ha : accessTarget addr width = .error e) : step s = .refused e := by
  rcases h with h | ⟨v, h⟩
  · rw [step_of_read h, memRead, ha]
  · rw [step_of_write h, memWrite, ha]

/-- An access that reaches a register is served, whichever way it goes (20_memory.md R56, R57). -/
theorem step_served_of_target {s : State} {addr width : Nat} {rest : List Event} {r : Reg}
    (h : AccessNext s addr width rest) (ha : accessTarget addr width = .ok r) : ∃ t, step s = .next t := by
  rcases h with h | ⟨v, h⟩
  · exact ⟨_, by rw [step_of_read h, memRead, ha]⟩
  · exact ⟨_, by rw [step_of_write h, memWrite, ha]⟩

/-- Settles O20: each of the three kinds of access reaches no register. -/
theorem otherAccessesAreRefused : Obligations.OtherAccessesAreRefused := by
  intro s addr width rest h
  refine ⟨fun hw => ?_, ?_, ?_⟩
  · exact step_refused_of_target h (accessTarget_width hw)
  · rintro rfl hout
    exact step_refused_of_target h (accessTarget_outside hout)
  · rintro rfl hlo hhi h4
    obtain ⟨off, rfl⟩ := Nat.exists_eq_add_of_le hlo
    exact step_refused_of_target h (accessTarget_misaligned (by omega) (by simpa using h4))

/-! ### No step from a state of the invariant fails -/

theorem Invariant.setInputs {s : State} (h : Invariant s) (l : List Event) : Invariant (s.setInputs l) :=
  h.of_keepsSession (setInputs_keepsSession s l)

theorem Invariant.setIdle {s : State} (h : Invariant s) : Invariant s.setIdle :=
  h.of_keepsSession (setIdle_keepsSession s)

/-- A command completes or faults: its pseudocode reaches no failure of the model. -/
theorem Invariant.exec_answers {s : State} (h : Invariant s) (i : Instr) : ∃ t, exec i s = .next t := by
  rw [exec_eq_attempt]
  cases hl : legal i.op s.phase s.ctValid with
  | false => exact ⟨_, attempt_not_legal hl⟩
  | true =>
    rw [attempt_legal hl]
    cases hb : Machine.bodyOf i s with
    | ok s' => exact ⟨_, rfl⟩
    | error e => exact ⟨_, rfl⟩
    | broken f => exact absurd hb (h.not_broken hl f)

theorem Invariant.coreStep_answers {s : State} (h : Invariant s) : ∃ t, coreStep s = .next t := by
  cases hb : s.busy with
  | false => exact ⟨s, coreStep_idle hb⟩
  | true =>
    rw [coreStep_busy hb, complete]
    split
    · split <;> exact ⟨_, rfl⟩
    · split
      · exact ⟨_, rfl⟩
      · exact h.setIdle.exec_answers _

/-- A host access that 20_memory.md R58 gives no meaning. -/
def NoMeaning (addr width : Nat) : Prop :=
  width ≠ 4 ∨ addr < Config.hccBase ∨ Config.hccBase + 0x100 ≤ addr ∨ (addr - Config.hccBase) % 4 ≠ 0

/-- An access is served, or it has no meaning and is refused. -/
theorem step_access {s : State} {addr width : Nat} {rest : List Event} (h : AccessNext s addr width rest) :
    (∃ t, step s = .next t) ∨ ∃ e, step s = .refused e ∧ NoMeaning addr width := by
  cases ha : accessTarget addr width with
  | ok r => exact .inl (step_served_of_target h ha)
  | error e => exact .inr ⟨e, step_refused_of_target h ha, accessTarget_error ha⟩

/-- A step is the core's turn, a reset or a host access. -/
theorem step_kinds (s : State) :
    (∃ u, coreTurnOf s = some u) ∨ (∃ rest, s.inputs = .reset :: rest) ∨
    ∃ addr width rest, AccessNext s addr width rest := by
  rw [coreTurnOf_isSome_iff]
  unfold AccessNext
  rcases s.inputs with _ | ⟨_ | _ | _ | _, rest⟩ <;> simp

/-- Settles O50: a turn of the core answers in the invariant, a reset always does, and an access is served or
refused. -/
theorem invariantStatesNeverFail : Obligations.InvariantStatesNeverFail := by
  intro s h
  rcases step_kinds s with ⟨u, hu⟩ | ⟨rest, hin⟩ | ⟨addr, width, rest, hin⟩
  · obtain ⟨l, rfl⟩ := coreTurnOf_eq hu
    rw [step_of_coreTurn hu]
    exact .inl (h.setInputs l).coreStep_answers
  · exact .inl ⟨(s.setInputs rest).resetMachine, by simp only [step, hin]⟩
  · exact (step_access hin).imp_right fun ⟨e, he, hbad⟩ => ⟨e, addr, width, rest, he, hin, hbad⟩

/-! ### Reads -/

/-- No register shows what is pending or what the host last read. -/
theorem regValue_hostRead_setInputs (s : State) (q r : Reg) (l : List Event) :
    ((s.hostRead q).setInputs l).regValue r = s.regValue r := by
  cases r <;> rfl

/-- While `BUSY = 0` reading a register again changes nothing (20_memory.md R56). -/
theorem hostRead_again {s : State} (h : s.busy = false) (r : Reg) (l : List Event) :
    ((s.hostRead r).setInputs l).hostRead r = (s.hostRead r).setInputs l := by
  have hb : ((s.hostRead r).setInputs l).busy = false := h
  rw [hostRead_idle hb, regValue_hostRead_setInputs, hostRead_idle h]
  rfl

/-- Settles O18: a read writes the host's own fields, which no register shows. -/
theorem readsHaveNoSideEffect : Obligations.ReadsHaveNoSideEffect := by
  intro s t addr width rest hin h
  rw [step_of_read hin, memRead] at h
  cases ha : accessTarget addr width with
  | error e => simp [ha] at h
  | ok r =>
    rw [ha] at h
    cases h
    refine ⟨rfl, fun hidle rest' hrest => ?_⟩
    have hb : (s.setInputs rest).busy = false := hidle
    rw [step_of_read (rest := rest') hrest, memRead, ha]
    exact congrArg Host.Outcome.next (hostRead_again hb r rest')

/-! ### Writes -/

/-- Outside the reserved offsets and `OUTBUF` a register is reached at its own offset only. -/
theorem eq_offset_of_regAt {off : Nat} {r : Reg} (hlt : off < 256) (h4 : off % 4 = 0) (h : regAt off = r)
    (hr : r ≠ .reserved) : off = r.offset := by
  subst h
  exact (offset_regAt hlt h4 hr).symm

/-- Settles O19: a write reaches the register at its offset, and only four registers are written. -/
theorem writeTable : Obligations.WriteTable := by
  intro s off v rest hlt h4 hin
  have hlow : v.setWidth 2 = v.extractLsb' 0 2 := BitVec.setWidth_eq_extractLsb' (by decide)
  rw [step_write hin hlt h4, ← hlow]
  refine ⟨?_, ?_, ?_, ?_, fun hcmd hdata hen hstat => ?_⟩
  · rintro rfl; rfl
  · rintro rfl; rfl
  · rintro rfl; rfl
  · rintro rfl; rfl
  · have hoff {r : Reg} := eq_offset_of_regAt (r := r) hlt h4
    rcases hostWrite_cases (s.setInputs rest) (regAt off) v with ⟨h, -⟩ | ⟨h, -⟩ | ⟨h, -⟩ | ⟨h, -⟩ | ⟨-, hsame⟩
    · exact absurd (hoff h (by decide)) hcmd
    · exact absurd (hoff h (by decide)) hdata
    · exact absurd (hoff h (by decide)) hen
    · exact absurd (hoff h (by decide)) hstat
    · rw [hsame]; rfl

/-! ### The node store -/

/-- Only CLEAR empties the node store, and only PUSHLEAF and BUILD add to it (20_memory.md R51). -/
theorem bodyOf_ok_nodes {i : Instr} {s s' : State} (h : bodyOf i s = .ok s') :
    i = .clear ∨ ((i = .build ∨ ∃ sym, i = .pushleaf sym) ∧ ∃ more, s'.nodes = s.nodes ++ more) ∨
    s'.nodes = s.nodes := by
  cases i with
  | clear => exact .inl rfl
  | pushleaf sym =>
    obtain ⟨-, -, -, rfl⟩ := pushleafBody_ok h
    exact .inr (.inl ⟨.inr ⟨sym, rfl⟩, _, rfl⟩)
  | build =>
    obtain ⟨nodes, _, hm, hs⟩ := buildBody_ok h
    obtain ⟨more, rfl⟩ := mergeAll_prefix hm
    rcases hs with ⟨-, rfl⟩ | ⟨_, _, _, -, -, rfl⟩ <;> exact .inr (.inl ⟨.inl rfl, more, rfl⟩)
  | nop => cases h; exact .inr (.inr rfl)
  | pqpop => obtain ⟨_, _, _, -, -, rfl⟩ := pqpopBody_ok h; exact .inr (.inr rfl)
  | gencodes => obtain ⟨_, -, rfl⟩ := gencodesBody_ok h; exact .inr (.inr rfl)
  | lookup sym k => obtain ⟨_, -, -, rfl⟩ := lookupBody_ok h; exact .inr (.inr rfl)
  | decode n => obtain ⟨-, _, rfl, -⟩ := decodeBody_ok h; exact .inr (.inr rfl)
  | decend => rw [decendBody_ok h]; exact .inr (.inr rfl)
  | decrst => cases h; exact .inr (.inr rfl)
  | readnode idx => obtain ⟨_, -, rfl⟩ := readnodeBody_ok h; exact .inr (.inr rfl)

/-- Settles O26: a step leaves the node store, or completes a command that appends to it, or empties it as CLEAR and
a reset do. -/
theorem nodesAreNeverRewritten : Obligations.NodesAreNeverRewritten := by
  intro s t h hreset hclear
  have same (hn : t.nodes = s.nodes) : (∃ more, t.nodes = s.nodes ++ more) ∧
      (t.nodes ≠ s.nodes → Completes s .build ∨ ∃ sym, Completes s (.pushleaf sym)) :=
    ⟨⟨[], by simp [hn]⟩, fun hne => absurd hn hne⟩
  rcases step_session h with hk | ⟨i, l, s', hcomp, -, hbody, rfl⟩ | ⟨rest, hin, -⟩
  · exact same hk.nodes
  · rcases bodyOf_ok_nodes hbody with rfl | ⟨hi, more, hn⟩ | hn
    · exact absurd hcomp hclear
    · refine ⟨⟨more, hn⟩, fun _ => ?_⟩
      rcases hi with rfl | ⟨sym, rfl⟩
      · exact .inl hcomp
      · exact .inr ⟨sym, hcomp⟩
    · exact same hn
  · exact absurd hin (hreset rest)

end Sys2Proof.Machine
end

section
/-! PROOFS. Encoding (30_encoding.md): decode and encode undo each other, the opcode map and the illegal words, the
assembler's text, and `wait`. -/

namespace Sys2Proof

/-! ### Fields of a word -/

theorem opcField_and (x y : Word) : opcField (x &&& y) = opcField x &&& opcField y := BitVec.extractLsb'_and

theorem symField_or (x y : Word) : symField (x ||| y) = symField x ||| symField y := BitVec.extractLsb'_or

theorem kField_or (x y : Word) : kField (x ||| y) = kField x ||| kField y := BitVec.extractLsb'_or

theorem cntField_or (x y : Word) : cntField (x ||| y) = cntField x ||| cntField y := BitVec.extractLsb'_or

theorem idxField_or (x y : Word) : idxField (x ||| y) = idxField x ||| idxField y := BitVec.extractLsb'_or

/-- An operand put in its place is what the field there holds. -/
theorem extractLsb'_placed {w : Nat} (x : BitVec w) {st : Nat} (h : st + w ≤ 32) :
    BitVec.extractLsb' st w (x.setWidth 32 <<< st) = x := by
  refine BitVec.eq_of_getLsbD_eq fun i hi => ?_
  have hlt : st + i < 32 := by omega
  simp [hi, hlt]

/-- A field that ends where an operand is placed holds none of its bits. -/
theorem extractLsb'_placed_above {w : Nat} (x : BitVec w) {st lo len : Nat} (h : lo + len ≤ st) :
    BitVec.extractLsb' lo len (x.setWidth 32 <<< st) = 0 := by
  refine BitVec.eq_of_getLsbD_eq fun i hi => ?_
  have hlt : lo + i < st := by omega
  simp [hlt]

@[simp] theorem symField_placeSym (sym : Symbol) : symField (placeSym sym) = sym := extractLsb'_placed sym (by decide)

@[simp] theorem kField_placeK (k : BitVec 3) : kField (placeK k) = k := extractLsb'_placed k (by decide)

@[simp] theorem cntField_placeCnt (n : Nat) : cntField (placeCnt n) = BitVec.ofNat 5 (n - 1) :=
  extractLsb'_placed _ (by decide)

@[simp] theorem idxField_placeIdx (idx : NodeIdx) : idxField (placeIdx idx) = idx := extractLsb'_placed idx (by decide)

@[simp] theorem kField_placeSym (sym : Symbol) : kField (placeSym sym) = 0 := extractLsb'_placed_above sym (by decide)

@[simp] theorem symField_placeK (k : BitVec 3) : symField (placeK k) = 0 := by
  revert k
  decide

/-! ### Decode after encode -/

/-- The word of a well-formed command selects the command's row (30_encoding.md R74). -/
theorem rowMatch (i : Instr) : Laws.RowMatch.Statement i := by
  cases i with
  | nop => exact Laws.RowMatch.nop
  | clear => exact Laws.RowMatch.clear
  | pushleaf sym => exact Laws.RowMatch.pushleaf sym
  | pqpop => exact Laws.RowMatch.pqpop
  | build => exact Laws.RowMatch.build
  | gencodes => exact Laws.RowMatch.gencodes
  | lookup sym k => exact Laws.RowMatch.lookup sym k
  | decode n => exact Laws.RowMatch.decode n
  | decend => exact Laws.RowMatch.decend
  | decrst => exact Laws.RowMatch.decrst
  | readnode idx => exact Laws.RowMatch.readnode idx

/-- The operands of a well-formed command stand in their fields (R71, R73). -/
theorem assemble_encode {i : Instr} (hw : i.wellFormed = true) : assemble i.op (encode i) = i := by
  cases i with
  | pushleaf sym =>
    have low : symField 0x2#32 = 0#8 := by decide
    simp [Instr.op, assemble, encode, symField_or, low]
  | lookup sym k =>
    have low : symField 0x6#32 = 0#8 ∧ kField 0x6#32 = 0#3 := by decide
    simp [Instr.op, assemble, encode, symField_or, kField_or, low]
  | decode n =>
    have low : cntField 0x7#32 = 0#5 := by decide
    simp only [Instr.wellFormed, Bool.and_eq_true, decide_eq_true_eq] at hw
    simp [Instr.op, assemble, encode, cntField_or, low]
    omega
  | readnode idx =>
    have low : idxField 0xA#32 = 0#9 := by decide
    simp [Instr.op, assemble, encode, idxField_or, low]
  | nop | clear | pqpop | build | gencodes | decend | decrst => rfl

/-- Settles O2: the word selects the command's row, whose operands are then read back from their fields. -/
theorem decodeOfEncode : Obligations.DecodeOfEncode := by
  intro i hw
  obtain ⟨r, hr, hop, hbits⟩ := rowMatch i hw
  refine decode_ok_iff.mpr ⟨r, hr, Row.selectedBy_iff.mpr hbits, ?_⟩
  rw [hop, assemble_encode hw]

/-! ### Encode after decode -/

/-- A row's command with the operands of a word has that word's bits outside the row's mask, and the row's own bits
(R72, R74). -/
theorem encode_assemble {r : Row} (hr : r ∈ opcodeMap) (c : Word) :
    encode (assemble r.op c) = c &&& ~~~r.mask ||| r.bits := by
  simp only [opcodeMap, List.mem_cons, List.not_mem_nil, or_false] at hr
  rcases hr with rfl | rfl | rfl | rfl | rfl | rfl | rfl | rfl | rfl | rfl | rfl
  all_goals simp only [assemble, encode, masked_sym, masked_sym_k, masked_cnt, masked_idx]
  all_goals simp

/-- Settles O3: a word is its bits inside the mask of the row it selects and its operand bits outside. -/
theorem encodeOfDecode : Obligations.EncodeOfDecode := by
  intro c i h
  refine ⟨decode_wellFormed h, ?_⟩
  obtain ⟨r, hr, hs, rfl⟩ := decode_ok_iff.mp h
  rw [encode_assemble hr, ← word_split (Row.selectedBy_iff.mp hs) rfl]

/-! ### The opcode map -/

@[simp] theorem assemble_op (op : Op) (c : Word) : (assemble op c).op = op := by cases op <;> rfl

/-- Each command has one row (R74). -/
theorem row_eq_of_op_eq : ∀ r ∈ opcodeMap, ∀ r' ∈ opcodeMap, r.op = r'.op → r = r' := by decide

/-- A word selects a row exactly when it decodes to that row's command (R74). -/
theorem selectedBy_iff_decode {r : Row} (hr : r ∈ opcodeMap) (c : Word) :
    r.selectedBy c = true ↔ decode c = .ok (assemble r.op c) := by
  constructor
  · exact fun hs => decode_ok_iff.mpr ⟨r, hr, hs, rfl⟩
  · intro h
    obtain ⟨r', hr', hs, ha⟩ := decode_ok_iff.mp h
    have hop : r.op = r'.op := by simpa using congrArg Instr.op ha
    rwa [row_eq_of_op_eq r hr r' hr' hop]

/-- A word is illegal exactly when it selects no row (R75). -/
theorem decode_error_iff_unselected (c : Word) :
    (∃ w, decode c = .error w) ↔ ∀ r ∈ opcodeMap, r.selectedBy c = false := by
  simp only [decode_error_iff, exists_and_left, exists_eq, and_true]

/-- Settles O4: the statement's rows are the model's opcode map, with the operands `assemble` forms. -/
theorem decodeFollowsOpcodeMap : Obligations.DecodeFollowsOpcodeMap := by
  intro c rows hrows
  obtain rfl : rows = opcodeMap.map fun r => (assemble r.op c, r.bits, r.mask) := hrows
  simp only [List.forall_mem_map]
  refine ⟨fun r hr => Row.selectedBy_iff.symm.trans (selectedBy_iff_decode hr c), ?_⟩
  simp only [decode_error_iff_unselected, ← Bool.not_eq_true, Row.selectedBy_iff, ne_eq]

/-! ### Illegal words -/

/-- A word is its opcode and its bits above. -/
theorem eq_iff_opcField {x y : Word} :
    x = y ↔ opcField x = opcField y ∧ x &&& 0xFFFFFFF0 = y &&& 0xFFFFFFF0 := by
  constructor
  · rintro rfl
    exact ⟨rfl, rfl⟩
  · rintro ⟨hlow, hhigh⟩
    have low (c : Word) : c &&& ~~~(0xFFFFFFF0 : Word) = (opcField c).setWidth 32 <<< 0 :=
      masked_field c _ 4 0 (by decide)
    have hx := word_split hhigh (low x)
    rw [hlow] at hx
    exact hx.trans (word_split rfl (low y)).symm

/-- Every row fixes the whole opcode, and its match is the opcode alone (R72, R74). -/
theorem opcodeMap_opcField :
    ∀ r ∈ opcodeMap, opcField r.mask = 0xF ∧ r.bits &&& 0xFFFFFFF0 = 0 ∧ opcField r.bits ≤ 0xA := by decide

/-- Each opcode has one row (R74). -/
theorem row_eq_of_opcField_eq : ∀ r ∈ opcodeMap, ∀ r' ∈ opcodeMap, opcField r.bits = opcField r'.bits → r = r' :=
  by decide

/-- The opcodes 0x0 to 0xA are commands' (R74). -/
theorem exists_row_of_opcode : ∀ v : BitVec 4, v ≤ 0xA → ∃ r ∈ opcodeMap, v = opcField r.bits := by decide

/-- A word selects a row when it has the row's opcode and every bit above that the row's format reserves is 0 (R72). -/
theorem selectedBy_iff_reserved {r : Row} (hr : r ∈ opcodeMap) (c : Word) :
    r.selectedBy c = true ↔ opcField c = opcField r.bits ∧ c &&& (r.mask &&& 0xFFFFFFF0) = 0 := by
  obtain ⟨hmask, hbits, -⟩ := opcodeMap_opcField r hr
  have hall : opcField c &&& 0xF = opcField c := BitVec.and_allOnes
  rw [Row.selectedBy_iff, eq_iff_opcField, opcField_and, hmask, hall, hbits, BitVec.and_assoc]

/-- The words of a reserved opcode (R76). -/
theorem decode_reservedOpcode_iff (c : Word) : decode c = .error .reservedOpcode ↔ ¬ opcField c ≤ 0xA := by
  rw [decode_error_iff]
  constructor
  · rintro ⟨-, hw⟩ hle
    rw [if_pos hle] at hw
    cases hw
  · intro hle
    refine ⟨fun r hr => Bool.eq_false_iff.mpr fun hs => hle ?_, (if_neg hle).symm⟩
    obtain ⟨-, -, hop⟩ := opcodeMap_opcField r hr
    rwa [((selectedBy_iff_reserved hr c).mp hs).1]

/-- The words of a command's opcode with a reserved bit at 1 (R76). -/
theorem decode_reservedBit_iff (c : Word) : decode c = .error .reservedBit ↔
    ∃ r ∈ opcodeMap, opcField c = opcField r.bits ∧ c &&& (r.mask &&& 0xFFFFFFF0) ≠ 0 := by
  rw [decode_error_iff]
  constructor
  · rintro ⟨hno, hw⟩
    have hle : opcField c ≤ 0xA := by
      by_contra hle
      rw [if_neg hle] at hw
      cases hw
    obtain ⟨r, hr, hop⟩ := exists_row_of_opcode _ hle
    refine ⟨r, hr, hop, fun hz => ?_⟩
    have hs := (selectedBy_iff_reserved hr c).mpr ⟨hop, hz⟩
    rw [hno r hr] at hs
    cases hs
  · rintro ⟨r, hr, hop, hne⟩
    obtain ⟨-, -, hle⟩ := opcodeMap_opcField r hr
    refine ⟨fun r' hr' => Bool.eq_false_iff.mpr fun hs => hne ?_, (if_pos (hop ▸ hle)).symm⟩
    obtain ⟨hop', hz⟩ := (selectedBy_iff_reserved hr' c).mp hs
    rwa [row_eq_of_opcField_eq r hr r' hr' (hop.symm.trans hop')]

end Sys2Proof

namespace Sys2Proof.Machine

/-- A turn of the core, stated by what is left pending after it. -/
theorem step_of_turn {s : State} {rest : List Event}
    (h : s.inputs = [] ∧ rest = [] ∨ s.inputs = .coreTurn :: rest) : step s = coreStep (s.setInputs rest) := by
  rcases h with ⟨hin, rfl⟩ | hin
  · have hself : s.setInputs [] = s := by rw [← hin]; rfl
    rw [hself]
    exact step_of_coreTurn (by simp [coreTurnOf, hin])
  · exact step_of_coreTurn (by simp [coreTurnOf, hin])

/-- With nothing recorded an illegal word in flight records `E_ILLEGAL` (60_exceptions.md R170). -/
theorem complete_illegal {s : State} {w : Illegal} (hd : decode s.cmdL = .error w) (he : s.errCode = .noError) :
    complete s = .next (recordError .illegal s.cmdL s.setIdle) := by
  simp [complete, hd, State.locked, he]

/-- Settles O5: the two kinds of illegal words by the opcode and the reserved bits of the opcode's row, and the turn
of the core that completes one. -/
theorem illegalWordsFault : Obligations.IllegalWordsFault := by
  refine ⟨fun c => ?_, fun c => ?_, fun s w rest hturn hbusy he hd => ?_⟩
  · rw [decode_reservedOpcode_iff, BitVec.le_def]
    change ¬ (c.extractLsb' 0 4).toNat ≤ 10 ↔ _
    omega
  · -- The eleven rows, grouped by the bits their formats reserve.
    rw [decode_reservedBit_iff]
    simp [opcodeMap, opcField, ← BitVec.toNat_inj]
    grind
  · calc step s = coreStep (s.setInputs rest) := step_of_turn hturn
      _ = complete (s.setInputs rest) := coreStep_busy hbusy
      _ = .next (recordError .illegal s.cmdL (s.setInputs rest).setIdle) := complete_illegal hd he
      _ = _ := congrArg Host.Outcome.next (recordError_first _ _ _ he)

/-! ### `wait` -/

theorem run_succ {s t : State} (h : step s = .next t) (k : Nat) : core.run (k + 1) s = core.run k t := by
  simp only [Host.Core.run, core, h]

/-- A host step `rd STATUS` (30_encoding.md R78) is served. -/
theorem step_rd_status {s : State} {rest : List Event} (h : s.inputs = rd .status :: rest) :
    step s = .next ((s.setInputs rest).hostRead .status) :=
  step_read (off := 0x0C) h (by decide) (by decide)

/-- Polls of `STATUS` take one step each and leave the invariant as it is. -/
theorem run_polls (polls : Nat) {s : State} {rest : List Event} (h : Invariant s)
    (hin : s.inputs = List.replicate polls (rd .status) ++ rest) :
    ∃ u, Invariant u ∧ u.inputs = rest ∧ ∀ k, core.run (polls + k) s = core.run k u := by
  induction polls generalizing s with
  | zero => exact ⟨s, h, hin, fun k => by rw [Nat.zero_add]⟩
  | succ polls ih =>
    have hstep := step_rd_status (rest := List.replicate polls (rd .status) ++ rest) hin
    obtain ⟨u, hu, hrest, hrun⟩ := ih ((h.setInputs _).of_keepsSession (hostRead_keepsSession _ .status)) rfl
    refine ⟨u, hu, hrest, fun k => ?_⟩
    rw [Nat.add_right_comm, run_succ hstep, hrun]

/-- Settles O54: the polls are served, the core's turn answers in the invariant with `BUSY` at 0, and the last poll
reads that `BUSY`. -/
theorem waitEndsIdle : Obligations.WaitEndsIdle := by
  intro s polls rest h hin
  rw [expandWait, List.append_assoc] at hin
  obtain ⟨u, hu, huin, hrun⟩ := run_polls polls h hin
  have hturn : step u = coreStep (u.setInputs (rd .status :: rest)) := step_of_turn (.inr huin)
  obtain ⟨v, hv⟩ := (hu.setInputs (rd .status :: rest)).coreStep_answers
  obtain ⟨-, -, -, -, hvin, -, -, hidle, -⟩ := coreStep_outside hv
  have hidle' : (v.setInputs rest).busy = false := hidle
  refine ⟨(v.setInputs rest).hostRead .status, (v.setInputs rest).statusWord, ?_, rfl, hidle, ?_, ?_⟩
  · rw [hrun, run_succ (hturn.trans hv), run_succ (step_rd_status hvin)]
    rfl
  · rw [hostRead_idle hidle']
    rfl
  · rw [(statusBits.1 _).1, hidle']

/-! ### The assembler's text -/

/-- Settles O1: the assembler and the encoder run on the sixteen lines, and each word decodes back because its command
is well-formed. -/
theorem specWordsDecode : Obligations.SpecWordsDecode := by
  refine ⟨fun p hp => ?_, by decide, by decide, by decide⟩
  have hline : assembleLine p.1.toList = .ok (some (.command p.2.1)) ∧ encode p.2.1 = p.2.2 ∧
      p.2.1.wellFormed = true := by
    revert p
    decide
  obtain ⟨htext, hword, hw⟩ := hline
  exact ⟨htext, hword, hword ▸ decodeOfEncode _ hw⟩

/-- Settles O6: the assembler runs on each of the lines. -/
theorem assemblerReadsSpecLines : Obligations.AssemblerReadsSpecLines := by
  refine ⟨rfl, rfl, rfl, rfl, rfl, rfl, rfl, rfl, rfl, rfl, rfl, rfl, rfl, rfl, rfl, rfl⟩

end Sys2Proof.Machine
end

section
/-! PROOFS. Issue and completion (40_command_model.md): a write to `CMD`, the command that the core's next turn runs,
the legality table and precise faults. -/

namespace Sys2Proof.Machine

/-! ### The core's turn -/

/-- A turn of the core with a command in flight is `Complete()`. -/
theorem step_of_turn_busy {s : State} {rest : List Event}
    (h : s.inputs = [] ∧ rest = [] ∨ s.inputs = .coreTurn :: rest) (hbusy : s.busy = true) :
    step s = complete (s.setInputs rest) := (step_of_turn h).trans (coreStep_busy hbusy)

/-- Settles O7: the core's turn is `Complete()`, which runs the command where it is not abandoned. -/
theorem stepRunsDecodedCommand : Obligations.StepRunsDecodedCommand := by
  intro s i rest hturn hbusy hd hrun
  calc step s = complete (s.setInputs rest) := step_of_turn_busy hturn hbusy
    _ = exec i (s.setInputs rest).setIdle := complete_ok hd hrun

/-! ### A write to `CMD` -/

theorem offer_busy {s : State} (h : s.busy = true) (c : Word) : offer c s = recordError .busy c s := if_pos h

theorem offer_discarded {s : State} {c : Word} (h : s.busy = false) (he : s.errCode ≠ .noError)
    (hc : c ≠ 0x00000001) : offer c s = s := by
  rw [offer_idle h, if_pos]
  simpa [(State.locked_iff s).mpr he] using hc

theorem offer_issued {s : State} {c : Word} (h : s.busy = false) (hc : s.errCode = .noError ∨ c = 0x00000001) :
    offer c s = s.latch c := by
  rw [offer_idle h, if_neg]
  rcases hc with he | rfl
  · simp [(State.locked_eq_false_iff s).mpr he]
  · simp

/-- The host's write to `CMD` is `Offer` (20_memory.md R57). -/
theorem step_write_cmd {s : State} {c : Word} {rest : List Event}
    (h : s.inputs = .write (Config.hccBase + 0x04) 4 c :: rest) : step s = .next (offer c (s.setInputs rest)) :=
  step_write h (by decide) (by decide)

/-- Settles O8: the write is `Offer`, and each clause is one of its cases. -/
theorem offerRecordsDiscardsOrIssues : Obligations.OfferRecordsDiscardsOrIssues := by
  intro s c rest hin
  rw [step_write_cmd hin]
  refine ⟨fun hbusy he => ?_, fun hbusy he => ?_, fun hidle he hc => ?_, fun hidle hc => ?_⟩
  all_goals refine congrArg Host.Outcome.next ?_
  · exact (offer_busy (s := s.setInputs rest) hbusy c).trans (recordError_first _ _ _ he)
  · exact (offer_busy (s := s.setInputs rest) hbusy c).trans (recordError_later _ _ _ he)
  · exact offer_discarded hidle he hc
  · exact offer_issued hidle hc

/-- Settles O9: the write latches the word and `DATA`, and the core's turn decodes the word back to its command. -/
theorem issuedCommandRunsNext : Obligations.IssuedCommandRunsNext := by
  intro s i rest hw hin hidle he
  have hissue : step s = .next ((s.setInputs (.coreTurn :: rest)).latch (encode i)) :=
    (step_write_cmd hin).trans (congrArg Host.Outcome.next (offer_issued hidle (.inl he)))
  have hrun := stepRunsDecodedCommand ((s.setInputs (.coreTurn :: rest)).latch (encode i)) i rest (.inr rfl) rfl
    (decodeOfEncode i hw) (.inl he)
  refine ⟨_, hissue, rfl, hrun.trans ?_⟩
  rw [← hidle]
  rfl

/-! ### Legality and faults -/

/-- The cells of the legality table that say no (R92). -/
theorem legal_eq_false_iff (op : Op) (phase : Phase) (ctValid : Bool) : legal op phase ctValid = false ↔
    (op ∈ [.pushleaf, .pqpop, .build] ∧ phase = .built) ∨
    (op ∈ [.gencodes, .lookup, .decode, .decend, .decrst] ∧ phase = .load) ∨ (op = .lookup ∧ ctValid = false) := by
  cases op <;> cases phase <;> cases ctValid <;> decide

/-- The cells of the legality table that say yes (R92). -/
theorem legal_iff (op : Op) (phase : Phase) (ctValid : Bool) : legal op phase ctValid = true ↔
    op ∈ [.nop, .clear, .readnode] ∨ (op ∈ [.pushleaf, .pqpop, .build] ∧ phase = .load) ∨
    (op ∈ [.gencodes, .decode, .decend, .decrst] ∧ phase = .built) ∨
    (op = .lookup ∧ phase = .built ∧ ctValid = true) := by
  cases op <;> cases phase <;> cases ctValid <;> decide

/-- A command that completes with nothing recorded records nothing. -/
theorem bodyOf_ok_noError {i : Instr} {s s' : State} (he : s.errCode = .noError) (h : bodyOf i s = .ok s') :
    s'.errCode = .noError := by
  obtain ⟨hkeep, hclear⟩ := bodyOf_ok_error h
  by_cases hi : i = .clear
  · exact (hclear hi).1
  · exact (hkeep hi).1.trans he

/-- Settles O10: a no-cell faults before the command's own pseudocode, whose faults are never `E_PHASE`. -/
theorem legalityTable : Obligations.LegalityTable := by
  intro i s he
  refine ⟨fun hno => ?_, fun hyes t h => ?_⟩
  · rw [exec_eq_attempt, attempt_not_legal ((legal_eq_false_iff _ _ _).mpr hno), recordError_first _ _ _ he]
  · have hlegal := (legal_iff _ _ _).mpr hyes
    rcases exec_next h with ⟨s', -, hbody, rfl⟩ | ⟨e, -, rfl, ⟨hnot, -⟩ | ⟨-, hbody⟩⟩
    · simp [bodyOf_ok_noError he hbody]
    · simp [hlegal] at hnot
    · rw [recordError_first _ _ _ he]
      exact (bodyOf_error_ne hbody).2.1

/-- A command that faults with nothing recorded only records its error (R94). -/
theorem exec_fault {i : Instr} {s t : State} (he : s.errCode = .noError) (h : exec i s = .next t)
    (hf : t.errCode ≠ .noError) : ∃ e, t = recordError e s.cmdL s := by
  rcases exec_next h with ⟨s', -, hbody, rfl⟩ | ⟨e, -, ht, -⟩
  · exact absurd (bodyOf_ok_noError he hbody) hf
  · exact ⟨e, ht⟩

/-- `Complete()` that faults with nothing recorded, on a command or an illegal word, only ends `BUSY` and records the
error (R94). -/
theorem complete_fault {s t : State} (he : s.errCode = .noError) (h : complete s = .next t)
    (hf : t.errCode ≠ .noError) : ∃ e, t = recordError e s.cmdL s.setIdle := by
  rcases complete_next h with ⟨hlocked, -, -⟩ | ⟨-, -, ht⟩ | ⟨i, -, -, hexec⟩
  · exact absurd he hlocked
  · exact ⟨_, ht⟩
  · exact exec_fault he hexec hf

/-- Settles O11: whatever faults at the core's turn is one `RecordError` in the idle state. -/
theorem faultsArePrecise : Obligations.FaultsArePrecise := by
  intro s t rest hturn hbusy he h hf
  rw [step_of_turn_busy hturn hbusy] at h
  obtain ⟨e, rfl⟩ := complete_fault (s := s.setInputs rest) he h hf
  rw [recordError_first _ _ (s.setInputs rest).setIdle he]
  rfl

/-- Settles O27: NOP is legal in every phase, and its pseudocode leaves the state to `DONE`. -/
theorem nopOnlySetsDone : Obligations.NopOnlySetsDone := by
  intro s
  have hlegal : legal Instr.nop.op s.phase s.ctValid = true := (legal_iff _ _ _).mpr (.inl List.mem_cons_self)
  rw [exec_eq_attempt, attempt_legal hlegal]
  rfl

end Sys2Proof.Machine
end

section
/-! PROOFS. The queue's commands and BUILD (41_queue_and_build.md R110 to R118): PUSHLEAF, PQPOP and the merges. -/

namespace Sys2Proof.Machine

/-! ### Completion in phase `LOAD` -/

theorem exec_of_body_ok (i : Instr) {s s' : State} (hl : legal i.op s.phase s.ctValid = true)
    (hb : bodyOf i s = .ok s') : exec i s = .next s'.setDone := by
  rw [exec_eq_attempt, attempt_legal hl, hb]
  rfl

theorem exec_of_body_error (i : Instr) {s : State} {e : ErrCode} (hl : legal i.op s.phase s.ctValid = true)
    (he : s.errCode = .noError) (hb : bodyOf i s = .error e) : exec i s = .next { s with
      errCode := e, errCmd := s.cmdL, intStat := s.intStat ||| 0b10 } := by
  rw [exec_eq_attempt, attempt_legal hl, hb, ← recordError_first e s.cmdL s he]
  rfl

/-- A legal command that raises no error completes. -/
theorem exec_next_ok {i : Instr} {s t : State} (hl : legal i.op s.phase s.ctValid = true)
    (hne : ∀ e, bodyOf i s ≠ .error e) (h : exec i s = .next t) : ∃ s', bodyOf i s = .ok s' ∧ t = s'.setDone := by
  rcases exec_next h with ⟨s', -, hb, rfl⟩ | ⟨e, -, -, ⟨hnot, -⟩ | ⟨-, hb⟩⟩
  · exact ⟨s', hb, rfl⟩
  · simp [hl] at hnot
  · exact absurd hb (hne e)

/-- The queue's commands are legal in phase `LOAD` (40_command_model.md R92). -/
theorem legal_in_load {op : Op} {s : State} (hp : s.phase = .load) (hop : op ∈ [.pushleaf, .pqpop, .build]) :
    legal op s.phase s.ctValid = true := (legal_iff _ _ _).mpr (.inr (.inl ⟨hop, hp⟩))

/-! ### PUSHLEAF -/

theorem leafWeight_eq_zero_iff (d : Word) : leafWeight d = 0 ↔ d = 0 := by
  have := d.isLt
  simp only [leafWeight, ← BitVec.toNat_inj, BitVec.toNat_setWidth, BitVec.ofNat_eq_ofNat, BitVec.toNat_ofNat]
  omega

theorem pushleafBody_zero {sym : Symbol} {s : State} (hw : leafWeight s.dataL = 0) :
    pushleafBody sym s = .error .badWeight := if_pos hw

theorem pushleafBody_seen {sym : Symbol} {s : State} (hw : leafWeight s.dataL ≠ 0)
    (hs : seen s.symSeen sym = true) : pushleafBody sym s = .error .dupSym := (if_neg hw).trans (if_pos hs)

theorem pushleafBody_new {sym : Symbol} {s : State} (hw : leafWeight s.dataL ≠ 0)
    (hs : seen s.symSeen sym = false) (hroom : s.nodes.length < Config.nodeCapacity) :
    pushleafBody sym s = .ok { s with
      nodes := s.nodes ++ [leafNode sym (leafWeight s.dataL)], symSeen := markSeen s.symSeen sym,
      pq := pqInsert ⟨leafWeight s.dataL, nextIdx s.nodes⟩ s.pq, res0 := idxWord (nextIdx s.nodes) } := by
  rw [pushleafBody, if_neg hw, hs, allocNode_of_lt hroom]
  rfl

/-- The index PUSHLEAF returns, while the store has room. -/
theorem idxWord_nextIdx {nodes : List Node} (h : nodes.length < 512) :
    idxWord (nextIdx nodes) = BitVec.ofNat 32 nodes.length := by
  refine BitVec.eq_of_toNat_eq ?_
  rw [toNat_idxWord, nextIdx_toNat h, BitVec.toNat_ofNat]
  omega

/-- Marking a symbol sets exactly its bit (10_state.md R39). -/
theorem getLsbD_markSeen (set : BitVec 256) (sym : Symbol) {k : Nat} (hk : k < 256) :
    (markSeen set sym).getLsbD k = (set.getLsbD k || decide (k = sym.toNat)) := by
  have hidx : (BitVec.ofNat 8 k).toNat = k := by simp only [BitVec.toNat_ofNat]; omega
  have := seen_markSeen set sym (BitVec.ofNat 8 k)
  simpa only [seen, hidx, ← BitVec.toNat_inj, eq_comm (a := sym.toNat)] using this

/-- Settles O28: the checks pass and the store has room, so the leaf is appended and its entry inserted. -/
theorem pushleafAddsLeaf : Obligations.PushleafAddsLeaf := by
  intro sym s hp hw hs hroom
  have hbody := pushleafBody_new (mt (leafWeight_eq_zero_iff s.dataL).mp hw) hs hroom
  refine ⟨_, _, ?_, pqInsert_perm _ s.pq, fun k => getLsbD_markSeen s.symSeen sym⟩
  rw [exec_of_body_ok (.pushleaf sym) (legal_in_load hp List.mem_cons_self) hbody, idxWord_nextIdx (by omega)]
  rfl

/-- Settles O29: the weight is checked before the symbol, and the failed check's error is recorded. -/
theorem pushleafChecksWeightThenSymbol : Obligations.PushleafChecksWeightThenSymbol := by
  intro sym s hp he
  have hl : legal (Instr.pushleaf sym).op s.phase s.ctValid = true := legal_in_load hp List.mem_cons_self
  have hzero := leafWeight_eq_zero_iff s.dataL
  exact ⟨fun hw => exec_of_body_error _ hl he (pushleafBody_zero (hzero.mpr hw)),
    fun hw hs => exec_of_body_error _ hl he (pushleafBody_seen (mt hzero.mp hw) hs)⟩

/-! ### PQPOP -/

theorem pqpopBody_empty {s : State} (h : s.pq = []) : pqpopBody s = .error .emptyPop := by
  simp [pqpopBody, h, pqPopMin]

theorem pqpopBody_first {s : State} {e : Entry} {rest : List Entry} {n : Node} (hq : s.pq = e :: rest)
    (hn : nodeAt s.nodes e.i = some n) : pqpopBody s = .ok { s with
      pq := rest, res0 := idxWord e.i, res1 := weightLow e.w, res2 := nodeTagWord n.leaf n.sym e.w } := by
  simp [pqpopBody, hq, pqPopMin, hn]

/-- Settles O30: the head of the rising queue is its least entry, and its node is allocated. -/
theorem pqpopReturnsLeast : Obligations.PqpopReturnsLeast := by
  intro s h hp hne
  obtain ⟨e, rest, hq⟩ := List.exists_cons_of_ne_nil hne
  have he : e ∈ s.pq := by simp [hq]
  obtain ⟨-, hleast⟩ := pqPopMin_least (e := e) (rest := rest) h.queueRising (by rw [hq]; rfl)
  obtain ⟨n, hn, -, -⟩ := h.loadEntries hp e he
  refine ⟨e, n, rest, _, _, _, he, fun x hx hxe => ?_, hn, hq ▸ .refl _,
    exec_of_body_ok .pqpop (legal_in_load hp (by decide)) (pqpopBody_first hq hn), toNat_idxWord _, toNat_weightLow _,
    toNat_nodeTagWord _ _ _⟩
  exact Entry.lt_iff.mp (hleast x hx hxe)

/-- Settles O31: there is no entry to pop. -/
theorem pqpopOnEmptyQueueFaults : Obligations.PqpopOnEmptyQueueFaults := fun _ hp he hq =>
  exec_of_body_error .pqpop (legal_in_load hp (by decide)) he (pqpopBody_empty hq)

/-! ### BUILD -/

theorem buildBody_empty {s : State} (h : s.pq = []) : buildBody s = .ok (s.builtEmpty s.nodes) := by
  simp [buildBody, h, mergeAll, pqPopMin]

theorem buildBody_merged {s : State} {nodes : List Node} {e : Entry} {n : Node}
    (hm : mergeAll s.pq.length s.nodes s.pq = .ok (nodes, [e])) (hn : nodeAt nodes e.i = some n) :
    buildBody s = .ok (s.builtTree nodes e n) := by
  simp [buildBody, hm, pqPopMin, hn]

/-- In the invariant a non-empty queue merges to one entry, with which BUILD's pseudocode completes (R116 to R118). -/
theorem Invariant.build_nonempty {s : State} (h : Invariant s) (hp : s.phase = .load) (hne : s.pq ≠ []) :
    ∃ nodes e n, mergeAll s.pq.length s.nodes s.pq = .ok (nodes, [e]) ∧ Merges s.nodes s.pq.toFinset nodes e ∧
      nodeAt nodes e.i = some n ∧ e.w = n.w ∧ nodes.length + 1 = s.nodes.length + s.pq.length ∧
      buildBody s = .ok (s.builtTree nodes e n) := by
  obtain ⟨nodes, pq, hm, hF, -, hlen, -, ⟨hnil, -, -⟩ | ⟨e, rfl, hmerges⟩⟩ :=
    (h.forest hp).mergeAll (Nat.le_refl _)
  · exact absurd hnil hne
  · obtain ⟨n, hn, hw⟩ := hF.entry e List.mem_cons_self
    exact ⟨nodes, e, n, hm, hmerges, hn, hw, hlen, buildBody_merged hm hn⟩

/-- Settles O32: the merge loop runs on the rising list as the merging of the set of its entries does, which is
`Forest.mergeAll`'s induction over the merges. -/
theorem buildMergesTheLeastTwo : Obligations.BuildMergesTheLeastTwo := by
  intro s h hp hne
  obtain ⟨nodes, e, n, -, hmerges, hn, -, hlen, hbody⟩ := h.build_nonempty hp hne
  exact ⟨nodes, e, n, _, _, _, hmerges, hn, hlen,
    exec_of_body_ok .build (legal_in_load hp (by decide)) hbody, toNat_idxWord _, toNat_weightLow _,
    toNat_weightHigh _⟩

end Sys2Proof.Machine
end

section
/-! PROOFS. Optimality (41_queue_and_build.md R120, 42_codegen.md R135): codes of which none begins another satisfy
Kraft's inequality, and the total of BUILD's tree is the weight of the nodes its merges add. -/

namespace Sys2Proof.Laws

/-! ### Kraft's inequality -/

/-- Where no word begins another, a sequence of words can be read back from its concatenation: of two words that begin
it one begins the other, so they are the same. -/
theorem uniquelyDecodable_of_prefixFree {α : Type*} {S : Set (List α)} (h0 : [] ∉ S)
    (hp : ∀ a ∈ S, ∀ b ∈ S, a <+: b → a = b) : InformationTheory.UniquelyDecodable S := by
  have hne : ∀ {w : List α}, w ∈ S → w ≠ [] := fun hw he => h0 (he ▸ hw)
  intro L M hL hM he
  induction L generalizing M with
  | nil =>
    cases M with
    | nil => rfl
    | cons v M =>
      rw [List.flatten_nil, List.flatten_cons, eq_comm, List.append_eq_nil_iff] at he
      exact absurd he.1 (hne (hM v List.mem_cons_self))
  | cons w L ih =>
    obtain ⟨hw, hL'⟩ := List.forall_mem_cons.mp hL
    cases M with
    | nil =>
      rw [List.flatten_nil, List.flatten_cons, List.append_eq_nil_iff] at he
      exact absurd he.1 (hne hw)
    | cons v M =>
      obtain ⟨hv, hM'⟩ := List.forall_mem_cons.mp hM
      rw [List.flatten_cons, List.flatten_cons] at he
      have hwv : w = v := by
        rcases List.prefix_or_prefix_of_prefix (List.prefix_append w _) (he ▸ List.prefix_append v _) with h | h
        · exact hp w hw v hv h
        · exact (hp v hv w hw h).symm
      subst hwv
      rw [ih M hL' hM' (List.append_cancel_left he)]

/-- The lengths of non-empty words of which none begins another satisfy Kraft's inequality. -/
theorem kraft_of_prefixFree {α : Type*} [DecidableEq α] {q : Finset α} {c : α → List Bool}
    (h0 : ∀ x ∈ q, c x ≠ []) (hp : ∀ x ∈ q, ∀ y ∈ q, c x <+: c y → x = y) : Kraft q fun x => (c x).length := by
  have hinj : ∀ x ∈ q, ∀ y ∈ q, c x = c y → x = y := fun x hx y hy he => hp x hx y hy (he ▸ List.prefix_refl _)
  have hud : InformationTheory.UniquelyDecodable (q.image c : Set (List Bool)) := by
    refine uniquelyDecodable_of_prefixFree ?_ ?_
    · simpa using h0
    · simp only [Finset.coe_image, Set.forall_mem_image]
      exact fun x hx y hy hpre => congrArg c (hp x hx y hy hpre)
  have hkraft := InformationTheory.kraft_mcmillan_inequality hud
  rwa [Finset.sum_image hinj, Fintype.card_bool, Nat.cast_ofNat] at hkraft

end Sys2Proof.Laws

namespace Sys2Proof.Machine

/-! ### An assignment of codes to the queue -/

/-- The code that an assignment to symbols gives a queued entry. -/
def queuedCode (nodes : List Node) (code : Symbol → List Bool) (e : Entry) : List Bool :=
  ((nodeAt nodes e.i).map fun n => code n.sym).getD []

theorem queuedCode_of_node {nodes : List Node} {code : Symbol → List Bool} {e : Entry} {n : Node}
    (h : nodeAt nodes e.i = some n) : queuedCode nodes code e = code n.sym := by
  simp [queuedCode, h]

theorem length_queuedCode (nodes : List Node) (code : Symbol → List Bool) (e : Entry) :
    (queuedCode nodes code e).length = ((nodeAt nodes e.i).map fun n => (code n.sym).length).getD 0 := by
  cases h : nodeAt nodes e.i <;> simp [queuedCode, h]

/-- Different queued entries are leaves of different symbols (10_state.md R45.6), so codes of which none begins
another on the queued symbols satisfy Kraft's inequality on the queue. -/
theorem Invariant.kraft_queuedCode {s : State} (h : Invariant s) (hp : s.phase = .load)
    {code : Symbol → List Bool} (hne : ∀ a, code a ≠ [])
    (hpf : ∀ e ∈ s.pq, ∀ e' ∈ s.pq, ∀ n m, nodeAt s.nodes e.i = some n → nodeAt s.nodes e'.i = some m →
      n.sym ≠ m.sym → ¬ List.IsPrefix (code n.sym) (code m.sym)) :
    Laws.Kraft s.pq.toFinset fun e => (queuedCode s.nodes code e).length := by
  refine Laws.kraft_of_prefixFree (fun e he => ?_) fun e he e' he' hpre => ?_
  · obtain ⟨n, hn, -⟩ := h.loadEntries hp e (List.mem_toFinset.mp he)
    rw [queuedCode_of_node hn]
    exact hne n.sym
  · rw [List.mem_toFinset] at he he'
    obtain ⟨n, hn, hnl, -⟩ := h.loadEntries hp e he
    obtain ⟨m, hm, hml, -⟩ := h.loadEntries hp e' he'
    rw [queuedCode_of_node hn, queuedCode_of_node hm] at hpre
    have hsym : n.sym = m.sym := by
      by_contra hsym
      exact hpf e he e' he' n m hn hm hsym hpre
    exact (h.forest hp).tag_inj he he' (h.symbolsDistinct _ _ n m hn hm hnl hml hsym)

/-! ### The total of the generated table -/

/-- With no tree no symbol has a length (R130). -/
theorem weightedLength_noTree {s : State} {g : Gathered} (ht : s.treeValid = false) (hg : gatherCodes s = .ok g) :
    weightedLength s.nodes (fun sym => (tableAt g.table sym).len.toNat) = 0 := by
  have hempty : gatherCodes s = .ok Gathered.empty := by simp [gatherCodes, ht]
  rw [hempty] at hg
  cases hg
  simp [weightedLength, Gathered.empty]

/-- In single mode the total is the root's weight: its code has one bit, and no other leaf has a code (R131). -/
theorem Invariant.weightedLength_single {s : State} {g : Gathered} {n : Node} (h : Invariant s)
    (hp : s.phase = .built) (hs : s.single = true) (hn : nodeAt s.nodes s.root = some n)
    (hg : gatherCodes s = .ok g) : weightedLength s.nodes (fun sym => (tableAt g.table sym).len.toNat) = n.w.toNat := by
  have hlen (sym : Symbol) : (tableAt g.table sym).len.toNat = if n.sym = sym then 1 else 0 := by
    rw [(h.table_spec hp hg sym).2.1 hs n hn]
    split <;> rfl
  obtain ⟨-, m, hm, hl⟩ := h.rootLeaf hp hs
  rw [hn] at hm
  cases hm
  have hfit : s.nodes.length ≤ 511 := h.nodesFit
  have hsum := (sum_indices_le (nodes := s.nodes) (P := fun m => m.leaf)
    (f := fun m => m.w.toNat * (tableAt g.table m.sym).len.toNat) (List.nodup_singleton s.root)
    fun i hi => ⟨n, by rwa [List.mem_singleton.mp hi], hl⟩).2 fun k m hm hml hk => ?_
  · rw [weightedLength, ← hsum]
    simp [hn, hlen]
  · have hk' : (BitVec.ofNat 9 k).toNat = k := by
      have := (List.getElem?_eq_some_iff.mp hm).1
      rw [BitVec.toNat_ofNat, Nat.mod_eq_of_lt (by omega)]
    have hne : n.sym ≠ m.sym := fun he => by
      have := h.symbolsDistinct s.root (BitVec.ofNat 9 k) n m hn (by rwa [nodeAt, hk']) hl hml he
      exact hk s.root (List.mem_singleton_self _) (this ▸ hk')
    rw [hlen, if_neg hne, Nat.mul_zero]

/-- In a tree of more than one leaf the total is the weight of its internal nodes, so at most that of the store's. -/
theorem Invariant.weightedLength_le_innerWeight {s : State} {g : Gathered} (h : Invariant s)
    (ht : s.treeValid = true) (hs : s.single = false) (hg : gatherCodes s = .ok g) :
    weightedLength s.nodes (fun sym => (tableAt g.table sym).len.toNat) ≤ innerWeight s.nodes := by
  obtain ⟨t, hb⟩ := h.exists_tree ht
  have htree : gatherCodes s = .ok (t.leaves.foldl (addFrom 0 0) Gathered.empty) := by
    rw [← h.treeRules.traverse_eq hb]
    simp [gatherCodes, ht, hs]
  rw [htree] at hg
  cases hg
  rw [h.treeRules.weightedLength_eq hb, leaves_total_eq h.nodesOk hb]
  refine (sum_indices_le (P := fun n => !n.leaf) ((forks_sublist t).nodup (indices_nodup h.nodesOk h.oneParent hb))
    fun i hi => ?_).1
  obtain ⟨n, hn, hl⟩ := forks_inner hb i hi
  exact ⟨n, hn, by simp [hl]⟩

/-! ### The tree that BUILD makes -/

/-- A merge's result is the only entry there was, or the last node made, an internal one. -/
theorem Merges.one_or_inner {nodes nodes' : List Node} {q : Finset Entry} {e : Entry} (h : Merges nodes q nodes' e) :
    (q = {e} ∧ nodes' = nodes) ∨
      ∃ older w l r, nodes' = older ++ [innerNode w l r] ∧ e.i = nextIdx older := by
  induction h with
  | one nodes e => exact .inl ⟨rfl, rfl⟩
  | @merge nodes nodes' q a b e _ _ _ _ _ ih =>
    rcases ih with ⟨hq, rfl⟩ | hinner
    · have he := Finset.mem_singleton.mp (hq ▸ Finset.mem_insert_self _ _)
      exact .inr ⟨nodes, _, _, _, rfl, (congrArg Entry.i he).symm⟩
    · exact .inr hinner

/-- Only a queue of one entry merges to a leaf. -/
theorem Merges.eq_singleton_of_leaf {nodes nodes' : List Node} {q : Finset Entry} {e : Entry} {n : Node}
    (h : Merges nodes q nodes' e) (hfit : nodes'.length ≤ 511) (hn : nodeAt nodes' e.i = some n)
    (hl : n.leaf = true) : q = {e} := by
  rcases h.one_or_inner with ⟨hq, -⟩ | ⟨older, w, l, r, rfl, he⟩
  · exact hq
  · rw [List.length_append, List.length_singleton] at hfit
    rw [he] at hn
    rcases (nodeAt_append_one (by omega)).mp hn with hn | ⟨-, rfl⟩
    · rw [nodeAt_nextIdx (by omega)] at hn
      cases hn
    · cases hl

/-- In phase `LOAD` there is no internal node (10_state.md R45.3). -/
theorem Invariant.innerWeight_load {s : State} (h : Invariant s) (hp : s.phase = .load) : innerWeight s.nodes = 0 := by
  have hnone : (s.nodes.filter fun n => !n.leaf) = [] :=
    List.filter_eq_nil_iff.mpr fun n hn => by simp [h.loadLeaves hp n hn]
  simp [innerWeight, hnone]

/-- The total of the table of BUILD's tree is at most the cost of any lengths that are positive on the queue and satisfy
Kraft's inequality (R120). -/
theorem Invariant.built_total_le {s s' : State} {g : Gathered} (h : Invariant s) (hp : s.phase = .load)
    (hb : buildBody s = .ok s') (hg : gatherCodes s' = .ok g) {len : Entry → Nat} (hpos : ∀ e ∈ s.pq, 1 ≤ len e)
    (hk : Laws.Kraft s.pq.toFinset len) :
    weightedLength s'.nodes (fun sym => (tableAt g.table sym).len.toNat) ≤ ∑ e ∈ s.pq.toFinset, e.w.toNat * len e := by
  by_cases hq : s.pq = []
  · rw [buildBody_empty hq] at hb
    cases hb
    rw [weightedLength_noTree rfl hg]
    exact Nat.zero_le _
  · obtain ⟨nodes, e, n, hm, hmerges, hn, hw, -, hbody⟩ := h.build_nonempty hp hq
    have hinv : Invariant (s.builtTree nodes e n) := h.build hp hbody
    rw [hbody] at hb
    cases hb
    cases hl : n.leaf with
    | true =>
      have hone := hmerges.eq_singleton_of_leaf hinv.nodesFit hn hl
      have he : 1 ≤ len e := hpos e (List.mem_toFinset.mp (hone ▸ Finset.mem_singleton_self e))
      rw [hinv.weightedLength_single rfl hl hn hg, hone, Finset.sum_singleton, ← hw]
      exact Nat.le_mul_of_pos_right _ he
    | false =>
      calc _ ≤ innerWeight nodes := hinv.weightedLength_le_innerWeight rfl hl hg
        _ ≤ innerWeight s.nodes + ∑ e ∈ s.pq.toFinset, e.w.toNat * len e := merge_cost _ (h.forest hp) hm len hk
        _ = ∑ e ∈ s.pq.toFinset, e.w.toNat * len e := by rw [h.innerWeight_load hp, Nat.zero_add]

/-- Settles O55: the assigned codes satisfy Kraft's inequality on the queue, and among such lengths the merges' total
is least. -/
theorem builtCodeIsOptimal : Obligations.BuiltCodeIsOptimal := by
  intro s t u tab code h hp hb hg htab hne hpf
  obtain ⟨s', hbody, rfl⟩ :=
    exec_next_ok (i := .build) (legal_in_load hp (by decide)) (fun _ => buildBody_no_error) hb
  have hbuilt : s'.setDone.phase = .built := by
    obtain ⟨_, _, -, ⟨-, rfl⟩ | ⟨_, _, _, -, -, rfl⟩⟩ := buildBody_ok hbody <;> rfl
  obtain ⟨u', hgen, rfl⟩ := exec_next_ok (i := .gencodes)
    ((legal_iff _ _ _).mpr (.inr (.inr (.inl ⟨by decide, hbuilt⟩)))) (fun _ => gencodesBody_no_error) hg
  obtain ⟨g, hgather, rfl⟩ := gencodesBody_ok hgen
  cases htab
  have hnd := rising_nodup h.queueRising
  simp only [← length_queuedCode]
  rw [← List.sum_toFinset (fun e : Entry => e.w.toNat * (queuedCode s.nodes code e).length) hnd]
  refine h.built_total_le hp hbody hgather (fun e he => ?_) (h.kraft_queuedCode hp hne hpf)
  obtain ⟨n, hn, -⟩ := h.loadEntries hp e he
  rw [queuedCode_of_node hn]
  exact List.length_pos_of_ne_nil (hne n.sym)

end Sys2Proof.Machine
end

section
/-! PROOFS. The code generator (42_codegen.md R130 to R139): the table GENCODES writes, its totals, and LOOKUP. -/

namespace Sys2Proof.Machine

/-! ### Completion of GENCODES -/

/-- GENCODES is legal in phase `BUILT` (40_command_model.md R92). -/
theorem legal_gencodes {s : State} (hp : s.phase = .built) : legal Instr.gencodes.op s.phase s.ctValid = true :=
  (legal_iff _ _ _).mpr (.inr (.inr (.inl ⟨by decide, hp⟩)))

theorem exec_gencodes {s : State} {g : Gathered} (hp : s.phase = .built) (hg : gatherCodes s = .ok g) :
    exec .gencodes s = .next (s.withCodes g).setDone :=
  exec_of_body_ok .gencodes (legal_gencodes hp) (by simp [bodyOf, gencodesBody, hg])

theorem exec_gencodes_next {s t : State} (hp : s.phase = .built) (h : exec .gencodes s = .next t) :
    ∃ g, gatherCodes s = .ok g ∧ t = (s.withCodes g).setDone := by
  obtain ⟨s', hb, rfl⟩ := exec_next_ok (i := .gencodes) (legal_gencodes hp) (fun _ => gencodesBody_no_error) h
  obtain ⟨g, hg, rfl⟩ := gencodesBody_ok hb
  exact ⟨g, hg, rfl⟩

/-! ### What is gathered -/

/-- The three things GENCODES can gather: nothing without a tree, the code "0" of a lone leaf, or the leaves of a tree
of more than one (R130, R131). -/
theorem Invariant.gatherCodes_cases {s : State} {g : Gathered} (h : Invariant s) (hp : s.phase = .built)
    (hg : gatherCodes s = .ok g) :
    (s.treeValid = false ∧ g = .empty) ∨
    (∃ n, s.treeValid = true ∧ s.single = true ∧ nodeAt s.nodes s.root = some n ∧ n.leaf = true ∧
      g = Gathered.empty.addLeaf n 0 1) ∨
    (∃ t, s.treeValid = true ∧ s.single = false ∧ Below s.nodes s.root t ∧
      g = t.leaves.foldl (addFrom 0 0) .empty) := by
  cases ht : s.treeValid with
  | false =>
    simp only [gatherCodes, ht, Bool.not_false, if_true, Except.ok.injEq] at hg
    exact .inl ⟨rfl, hg.symm⟩
  | true =>
    cases hs : s.single with
    | true =>
      obtain ⟨-, n, hn, hl⟩ := h.rootLeaf hp hs
      simp only [gatherCodes, ht, hs, hn, Bool.not_true, Bool.false_eq_true, if_false, if_true, Except.ok.injEq] at hg
      exact .inr (.inl ⟨n, rfl, rfl, hn, hl, hg.symm⟩)
    | false =>
      obtain ⟨t, hb⟩ := h.exists_tree ht
      simp only [gatherCodes, ht, hs, Bool.not_true, Bool.false_eq_true, if_false, h.treeRules.traverse_eq hb,
        Except.ok.injEq] at hg
      exact .inr (.inr ⟨t, rfl, rfl, hb, hg.symm⟩)

/-- A lone leaf of depth 1 adds its weight once (R131). -/
theorem total_addLeaf_empty (n : Node) (p : CodeBits) : (Gathered.empty.addLeaf n p 1).total = n.w.toNat := by
  simp [Gathered.addLeaf, Gathered.empty]

/-- A symbol has a code exactly when it is the symbol of a leaf of the tree below the root. -/
theorem hasCode_iff_mem_leaves {nodes : List Node} {root : NodeIdx} {t : NodeTree} (ht : Below nodes root t)
    (sym : Symbol) : (∃ p, HasCode nodes root sym p) ↔ sym ∈ t.leaves.map fun e => e.2.2.sym := by
  rw [List.mem_map]
  constructor
  · rintro ⟨p, y, n, hp, hn, hl, rfl⟩
    exact ⟨(p, y, n), (mem_leaves ht p y n).mpr ⟨path_iff_follow.mp hp, hn, hl⟩, rfl⟩
  · rintro ⟨⟨p, y, n⟩, he, rfl⟩
    obtain ⟨hp, hn, hl⟩ := (mem_leaves ht p y n).mp he
    exact ⟨p, y, n, path_iff_follow.mpr hp, hn, hl, rfl⟩

/-- Whatever the tree, an entry has a length exactly when its symbol has a leaf below the root (R130, R131). -/
theorem Invariant.len_ne_zero_iff {s : State} {g : Gathered} (h : Invariant s) (hp : s.phase = .built)
    (hg : gatherCodes s = .ok g) (sym : Symbol) :
    (tableAt g.table sym).len ≠ 0 ↔ s.treeValid = true ∧ ∃ p, HasCode s.nodes s.root sym p := by
  obtain ⟨htree, hsingle, hnone⟩ := h.table_spec hp hg sym
  rcases h.gatherCodes_cases hp hg with ⟨ht, -⟩ | ⟨n, ht, hs, hn, hl, -⟩ | ⟨t, ht, hs, -, -⟩
  · simp [hnone ht, ht]
  · rw [hsingle hs n hn, hasCode_iff_mem_leaves (.leaf hn hl)]
    by_cases he : n.sym = sym
    · simp [he, ht, NodeTree.leaves]
    · simp [he, NodeTree.leaves, eq_comm (a := sym)]
  · constructor
    · exact fun hlen => ⟨ht, _, h.code_of_entry hp hg ht hs hlen⟩
    · rintro ⟨-, p, hc⟩ hz
      obtain ⟨⟨hlen, -⟩, hpos, -⟩ := (htree ht hs).1 p hc
      rw [hz] at hlen
      exact absurd hlen (Nat.ne_of_lt hpos)

/-- Settles O34: the traversal never fails in the invariant, and its entries are the tree's paths. -/
theorem gencodesGivesPaths : Obligations.GencodesGivesPaths := by
  intro s h hp ht hs
  obtain ⟨g, hg⟩ := h.gatherCodes_ok
  exact ⟨g.table, _, _, _, exec_gencodes hp hg, fun sym => (h.table_spec hp hg sym).1 ht hs⟩

/-! ### Prefix-freeness -/

/-- A path to a leaf goes no further: of two codes one begins the other only if they are one symbol's (R134). -/
theorem HasCode.sym_eq_of_prefix {nodes : List Node} {root : NodeIdx} {a b : Symbol} {p q : List Bool}
    (ha : HasCode nodes root a p) (hb : HasCode nodes root b q) (hpq : p <+: q) : a = b := by
  obtain ⟨x, n, hx, hn, hnl, rfl⟩ := ha
  obtain ⟨y, m, hy, hm, -, rfl⟩ := hb
  obtain ⟨r, rfl⟩ := hpq
  by_cases hr : r = []
  · subst hr
    rw [List.append_nil] at hy
    rw [hx.unique hy, hm] at hn
    cases hn
    rfl
  · obtain ⟨k, hk, hkl⟩ := hx.inner_of_longer hy hr
    rw [hn] at hk
    cases hk
    rw [hnl] at hkl
    cases hkl

/-- Settles O38: entries with a length are paths to leaves, or, in single mode, the root's one entry. -/
theorem codesArePrefixFree : Obligations.CodesArePrefixFree := by
  intro s tab h hct a b hab ha hb hpre
  have hp := h.built_of_table hct
  obtain ⟨g, hg, rfl⟩ := h.tableOfTree tab hct
  obtain ⟨ht, -⟩ := (h.len_ne_zero_iff hp hg a).mp ha
  cases hs : s.single with
  | false => exact hab ((h.code_of_entry hp hg ht hs ha).sym_eq_of_prefix (h.code_of_entry hp hg ht hs hb) hpre)
  | true =>
    obtain ⟨-, n, hn, -⟩ := h.rootLeaf hp hs
    have hroot : ∀ {sym}, (tableAt g.table sym).len ≠ 0 → n.sym = sym := fun {sym} hlen => by
      by_contra hne
      rw [(h.table_spec hp hg sym).2.1 hs n hn, if_neg hne] at hlen
      exact hlen rfl
    exact hab ((hroot ha).symm.trans (hroot hb))

/-! ### Single mode and no tree -/

/-- Settles O35: the lone leaf adds its weight once and its code "0", and without a tree nothing is gathered. -/
theorem gencodesSpecialCases : Obligations.GencodesSpecialCases := by
  intro s h hp
  obtain ⟨g, hg⟩ := h.gatherCodes_ok
  have hspec := h.table_spec hp hg
  rcases h.gatherCodes_cases hp hg with ⟨ht, rfl⟩ | ⟨n, ht, hs, hn, -, rfl⟩ | ⟨t, ht, hs, -, -⟩
  · refine ⟨fun hs => absurd (h.rootLeaf hp hs).1 (by simp [ht]), fun _ => ?_⟩
    exact ⟨_, exec_gencodes hp hg, fun sym => (hspec sym).2.2 ht⟩
  · have hentry := fun sym => (hspec sym).2.1 hs n hn
    refine ⟨fun _ => ⟨n, _, _, _, hn, exec_gencodes hp hg, ?_, ?_, ?_, fun sym hne => ?_⟩, fun hf => by simp [ht] at hf⟩
    · have hlt : n.w.toNat < 2 ^ 48 := Nat.lt_trans n.w.isLt (by decide)
      exact (toNat_total _).trans (by rw [total_addLeaf_empty, Nat.mod_eq_of_lt hlt])
    · rw [hentry, if_pos rfl]
      decide
    · rw [hentry, if_pos rfl]
    · rw [hentry, if_neg hne.symm]
  · exact ⟨fun hs' => by simp [hs] at hs', fun hf => by simp [ht] at hf⟩

/-! ### The totals -/

/-- Where the symbols with a length are those of a list without repetition, the list counts them. -/
theorem codedSymbols_length {tab : CodeTable} {L : List Symbol} (hnd : L.Nodup)
    (hmem : ∀ sym, (tableAt tab sym).len ≠ 0 ↔ sym ∈ L) :
    ((List.range 256).filter fun k => (tableAt tab (BitVec.ofNat 8 k)).len != 0).length = L.length := by
  have hinj : Function.Injective (BitVec.toNat : Symbol → Nat) := fun _ _ => BitVec.eq_of_toNat_eq
  rw [← List.length_map (f := BitVec.toNat) (as := L)]
  refine List.Perm.length_eq ((List.perm_ext_iff_of_nodup (List.nodup_range.filter _) (hnd.map hinj)).mpr fun k => ?_)
  simp only [List.mem_filter, List.mem_range, List.mem_map, bne_iff_ne, hmem]
  constructor
  · rintro ⟨hk, hL⟩
    exact ⟨_, hL, by rw [BitVec.toNat_ofNat, Nat.mod_eq_of_lt hk]⟩
  · rintro ⟨sym, hL, rfl⟩
    exact ⟨sym.isLt, by rwa [BitVec.ofNat_toNat, BitVec.setWidth_eq]⟩

/-- The count gathered is the number of symbols with a code (R132). -/
theorem Invariant.gathered_count {s : State} {g : Gathered} (h : Invariant s) (hp : s.phase = .built)
    (hg : gatherCodes s = .ok g) :
    g.count = ((List.range 256).filter fun k => (tableAt g.table (BitVec.ofNat 8 k)).len != 0).length := by
  have hlen := h.len_ne_zero_iff hp hg
  rcases h.gatherCodes_cases hp hg with ⟨ht, rfl⟩ | ⟨n, ht, -, hn, hl, rfl⟩ | ⟨t, ht, -, hb, rfl⟩
  · exact (codedSymbols_length List.nodup_nil fun sym => by rw [hlen, ht]; simp).symm
  · refine (codedSymbols_length (List.nodup_singleton n.sym) fun sym => ?_).symm
    rw [hlen, hasCode_iff_mem_leaves (.leaf hn hl), and_iff_right ht]
    exact Iff.rfl
  · rw [codedSymbols_length (List.pairwise_map.mpr (h.treeRules.leaves_distinct hb)) fun sym => by
      rw [hlen, hasCode_iff_mem_leaves hb, and_iff_right ht], foldl_count, List.length_map]
    exact Nat.zero_add _

/-- At most 256 leaves, of 32-bit weights and of codes of at most 255 bits, sum to less than 2^48 (R10, R13, R135). -/
theorem Invariant.leaves_total_lt {s : State} (h : Invariant s) {t : NodeTree} (hb : Below s.nodes s.root t) :
    (t.leaves.map fun e => e.2.2.w.toNat * e.1.length).sum < 2 ^ 48 := by
  have hterm : ∀ v ∈ t.leaves.map fun e => e.2.2.w.toNat * e.1.length, v ≤ 2 ^ 32 * 255 := by
    intro v hv
    obtain ⟨⟨p, y, n⟩, he, rfl⟩ := List.mem_map.mp hv
    obtain ⟨hp, hn, hl⟩ := (mem_leaves hb p y n).mp he
    exact Nat.mul_le_mul (Nat.le_of_lt (h.leafWeights n (nodeAt_mem hn) hl))
      (h.treeRules.path_le hb (path_iff_follow.mpr hp))
  calc _ ≤ t.leaves.length * (2 ^ 32 * 255) := by simpa using List.sum_le_card_nsmul _ _ hterm
    _ ≤ 256 * (2 ^ 32 * 255) := Nat.mul_le_mul_right _ (h.treeRules.leaves_le hb)
    _ < 2 ^ 48 := by decide

/-- The total gathered is `Σ w · len` over the leaves of the store, and fits its 48 bits (R135). -/
theorem Invariant.gathered_total {s : State} {g : Gathered} (h : Invariant s) (hp : s.phase = .built)
    (hg : gatherCodes s = .ok g) :
    weightedLength s.nodes (fun sym => (tableAt g.table sym).len.toNat) = g.total ∧ g.total < 2 ^ 48 := by
  rcases h.gatherCodes_cases hp hg with ⟨ht, rfl⟩ | ⟨n, -, hs, hn, -, rfl⟩ | ⟨t, -, -, hb, rfl⟩
  · exact ⟨weightedLength_noTree ht hg, by decide⟩
  · rw [h.weightedLength_single hp hs hn hg, total_addLeaf_empty]
    exact ⟨rfl, Nat.lt_trans n.w.isLt (by decide)⟩
  · rw [h.treeRules.weightedLength_eq hb, foldl_total]
    simpa [Gathered.empty] using h.leaves_total_lt hb

/-- Settles O36: what is gathered is the count and the total, and both fit their registers. -/
theorem gencodesTotals : Obligations.GencodesTotals := by
  intro s h hp
  obtain ⟨g, hg⟩ := h.gatherCodes_ok
  have hcount := h.gathered_count hp hg
  obtain ⟨htotal, hlt⟩ := h.gathered_total hp hg
  have hle : g.count ≤ 256 := by
    rw [hcount]
    exact (List.length_filter_le _ _).trans (by rw [List.length_range])
  refine ⟨_, g.table, exec_gencodes hp hg, rfl, ?_, ?_, htotal ▸ hlt⟩
  · rw [← hcount]
    exact Nat.mod_eq_of_lt (by omega)
  · rw [htotal]
    exact (toNat_total g.total).trans (Nat.mod_eq_of_lt hlt)

/-! ### GENCODES again -/

/-- Settles O37: what GENCODES gathers reads only the tree, which GENCODES leaves as it is. -/
theorem gencodesIsRepeatable : Obligations.GencodesIsRepeatable := by
  intro s t u h hp hst htu
  obtain ⟨g, hg, rfl⟩ := exec_gencodes_next hp hst
  obtain ⟨g', hg', rfl⟩ := exec_gencodes_next (s := (s.withCodes g).setDone) hp htu
  have hsame : gatherCodes (s.withCodes g).setDone = gatherCodes s := gatherCodes_congr rfl rfl rfl rfl
  rw [hsame, hg] at hg'
  cases hg'
  refine ⟨rfl, rfl, rfl, rfl, fun tab hct => ?_⟩
  obtain ⟨g', hg', rfl⟩ := h.tableOfTree tab hct
  rw [hg] at hg'
  cases hg'
  rfl

/-! ### LOOKUP -/

/-- LOOKUP is legal in phase `BUILT` with a table (40_command_model.md R92). -/
theorem legal_lookup {s : State} {tab : CodeTable} (sym : Symbol) (k : BitVec 3) (hp : s.phase = .built)
    (hct : s.ct = some tab) : legal (Instr.lookup sym k).op s.phase s.ctValid = true :=
  (legal_iff _ _ _).mpr (.inr (.inr (.inr ⟨rfl, hp, by simp [State.ctValid, hct]⟩)))

theorem lookupBody_code {s : State} {tab : CodeTable} {sym : Symbol} (k : BitVec 3) (hct : s.ct = some tab)
    (hlen : (tableAt tab sym).len ≠ 0) : lookupBody sym k s = .ok { s with
      res0 := (tableAt tab sym).len.setWidth 32, res1 := codeWord (tableAt tab sym).bits k } := by
  simp only [lookupBody, hct, if_neg hlen]

theorem lookupBody_miss {s : State} {tab : CodeTable} {sym : Symbol} (k : BitVec 3) (hct : s.ct = some tab)
    (hlen : (tableAt tab sym).len = 0) : lookupBody sym k s = .error .codeMiss := by
  simp only [lookupBody, hct, if_pos hlen]

theorem getLsbD_codeWord (bits : CodeBits) (k : BitVec 3) {j : Nat} (hj : j < 32) :
    (codeWord bits k).getLsbD j = bits.getLsbD (32 * k.toNat + j) := by
  simp [codeWord, hj]

/-- Settles O39: the entry has a length, so its code word is returned. -/
theorem lookupReturnsCodeWord : Obligations.LookupReturnsCodeWord := by
  intro sym k s tab hp hct hlen
  exact ⟨_, exec_of_body_ok (.lookup sym k) (legal_lookup sym k hp hct) (lookupBody_code k hct hlen),
    fun j => getLsbD_codeWord _ k⟩

/-- Settles O40: the table is the tree's, where a symbol without a leaf has no length. -/
theorem lookupOfMissingCodeFaults : Obligations.LookupOfMissingCodeFaults := by
  intro sym k s h hp he hv hno
  obtain ⟨tab, hct⟩ := Option.isSome_iff_exists.mp hv
  obtain ⟨g, hg, rfl⟩ := h.tableOfTree tab hct
  have hlen : (tableAt g.table sym).len = 0 := by
    by_contra hlen
    obtain ⟨ht, p, hc⟩ := (h.len_ne_zero_iff hp hg sym).mp hlen
    exact hno ht p hc
  exact exec_of_body_error (.lookup sym k) (legal_lookup sym k hp hct) he (lookupBody_miss k hct hlen)

end Sys2Proof.Machine
end

section
/-! PROOFS. The bit-stream decoder (43_decode.md R145 to R155): DECODE of a chunk, DECEND, DECRST, and the round trip
of a stream, which is one walk over the bits of its chunks. -/

namespace Sys2Proof.Machine

/-- The decoder's commands are legal in phase `BUILT` (40_command_model.md R92). -/
theorem legal_in_built {op : Op} {s : State} (hp : s.phase = .built) (hop : op ∈ [.decode, .decend, .decrst]) :
    legal op s.phase s.ctValid = true :=
  (legal_iff _ _ _).mpr (.inr (.inr (.inl ⟨List.mem_cons_of_mem _ hop, hp⟩)))

/-! ### The walk of a sequence of bits -/

/-- The walk DECODE takes over the bits `bs` in the tree of `s`: in single mode each bit emits the root's symbol, else
the bits lead (43_decode.md R147, R150). -/
def State.walk (s : State) (bs : List Bool) (w : Walk) : WalkResult :=
  if s.single then walkSingle s.nodes s.root bs.length w else walkBits s.nodes s.root bs w

theorem State.walk_tree {s : State} (hs : s.single = false) (bs : List Bool) (w : Walk) :
    s.walk bs w = walkBits s.nodes s.root bs w := by
  simp [State.walk, hs]

theorem State.walk_single {s : State} {r : Node} (hs : s.single = true) (hr : nodeAt s.nodes s.root = some r)
    (bs : List Bool) (w : Walk) :
    s.walk bs w = .walked ⟨w.at_, w.out ++ List.replicate bs.length r.sym⟩ := by
  simp [State.walk, hs, walkSingle, hr]

/-- A walk in single mode that succeeds has read the root. -/
theorem State.root_of_walk_single {s : State} {bs : List Bool} {v w : Walk} (hs : s.single = true)
    (h : s.walk bs v = .walked w) : ∃ r, nodeAt s.nodes s.root = some r := by
  cases hr : nodeAt s.nodes s.root with
  | none => simp [State.walk, hs, walkSingle, hr] at h
  | some r => exact ⟨r, rfl⟩

/-- A walk over no bits stays where it is. -/
theorem State.walk_nil {s : State} {v w : Walk} (h : s.walk [] v = .walked w) : w = v := by
  cases hs : s.single with
  | true =>
    obtain ⟨r, hr⟩ := State.root_of_walk_single hs h
    simpa [State.walk_single hs hr] using h.symm
  | false => simpa [State.walk_tree hs, walkBits] using h.symm

/-- A walk over `bs ++ cs` that succeeds is a walk over `bs` and then, its output begun afresh, one over `cs`: so
where a stream is cut does not matter (43_decode.md R155). -/
theorem State.walk_append {s : State} {bs cs : List Bool} {x : NodeIdx} {w : Walk}
    (h : s.walk (bs ++ cs) ⟨x, []⟩ = .walked w) :
    ∃ v out, s.walk bs ⟨x, []⟩ = .walked v ∧ s.walk cs ⟨v.at_, []⟩ = .walked ⟨w.at_, out⟩ ∧ w.out = v.out ++ out := by
  cases hs : s.single with
  | true =>
    obtain ⟨r, hr⟩ := State.root_of_walk_single hs h
    rw [State.walk_single hs hr] at h
    cases h
    exact ⟨_, _, State.walk_single hs hr _ _, State.walk_single hs hr _ _, by simp⟩
  | false =>
    simp only [State.walk_tree hs] at h ⊢
    rw [walkBits_append] at h
    cases hv : walkBits s.nodes s.root bs ⟨x, []⟩ with
    | walked v =>
      simp only [hv] at h
      rw [walkBits_out] at h
      cases hu : walkBits s.nodes s.root cs ⟨v.at_, []⟩ with
      | walked u =>
        simp only [hu] at h
        cases h
        exact ⟨v, u.out, rfl, hu, rfl⟩
      | malformed => simp [hu] at h
      | broken f => simp [hu] at h
    | malformed => simp [hv] at h
    | broken f => simp [hv] at h

/-! ### DECODE -/

theorem length_chunkBits (n : Nat) (d : Word) : (chunkBits n d).length = n := by simp [chunkBits]

theorem decodeBody_noTree {n : Nat} {s : State} (ht : s.treeValid = false) :
    decodeBody n s = .error .malformed := by
  simp [decodeBody, ht]

theorem decodeBody_walked {n : Nat} {s : State} {w : Walk} (ht : s.treeValid = true)
    (hw : s.walk (chunkBits n s.dataL) ⟨s.ptr, []⟩ = .walked w) : decodeBody n s = .ok (s.afterWalk w) := by
  rw [State.walk, length_chunkBits] at hw
  simp [decodeBody, ht, hw]

/-- DECODE completes with what its walk over the chunk reaches (43_decode.md R147, R148). -/
theorem exec_decode {n : Nat} {s : State} {w : Walk} (hp : s.phase = .built) (ht : s.treeValid = true)
    (hw : s.walk (chunkBits n s.dataL) ⟨s.ptr, []⟩ = .walked w) :
    exec (.decode n) s = .next (s.afterWalk w).setDone :=
  exec_of_body_ok (.decode n) (legal_in_built hp List.mem_cons_self) (decodeBody_walked ht hw)

/-- Settles O41: the walk from the end of the pending path never fails, which is `walkBits_inner`'s induction over the
chunk's bits. -/
theorem decodeConsumesCodes : Obligations.DecodeConsumesCodes := by
  intro n s p h hp ht hs hpath
  obtain ⟨-, m, -, hm, hl⟩ := h.walkerInside hp ht hs
  obtain ⟨y, syms, codes, q, hwalk, hq, ⟨k, hk, hkl⟩, hcodes, hbits, hlen⟩ := walkBits_inner h.nodesOk h.nodesFit
    (h.rootInner hp ht hs) (chunkBits n s.dataL) hpath ⟨m, hm, hl⟩ []
  rw [length_chunkBits] at hlen
  exact ⟨y, k, syms, codes, q, exec_decode hp ht ((State.walk_tree hs _ _).trans hwalk), hcodes, hbits, hq, hk, hkl,
    hlen⟩

/-- Settles O42: the root is a leaf, whose symbol each bit emits. -/
theorem decodeInSingleMode : Obligations.DecodeInSingleMode := by
  intro n s h hp hs
  obtain ⟨ht, r, hr, -⟩ := h.rootLeaf hp hs
  refine ⟨r, hr, h.walkerSingle hp hs, ?_⟩
  rw [exec_decode hp ht (State.walk_single hs hr _ _), length_chunkBits, State.afterWalk]
  simp [State.setDone]

/-! ### DECEND and DECRST -/

theorem decendBody_midCode {s : State} (ht : s.treeValid = true) (hs : s.single = false) (hr : s.ptr ≠ s.root) :
    decendBody s = .error .midCode := by
  simp [decendBody, State.atRoot, ht, hs, hr]

theorem decendBody_boundary {s : State} (h : s.treeValid = false ∨ s.single = true ∨ s.ptr = s.root) :
    decendBody s = .ok s := by
  rcases h with h | h | h <;> simp [decendBody, State.atRoot, h]

/-- DECEND completes at a code boundary (43_decode.md R151). -/
theorem exec_decend {s : State} (hp : s.phase = .built)
    (h : s.treeValid = false ∨ s.single = true ∨ s.ptr = s.root) : exec .decend s = .next s.setDone :=
  exec_of_body_ok .decend (legal_in_built hp (by decide)) (decendBody_boundary h)

/-- Settles O44: DECEND's one check is the negation of the second clause's cases. -/
theorem decendChecksCodeBoundary : Obligations.DecendChecksCodeBoundary := fun _ hp =>
  ⟨fun ht hs hr he => exec_of_body_error .decend (legal_in_built hp (by decide)) he (decendBody_midCode ht hs hr),
    exec_decend hp⟩

/-- Settles O43: DECODE's first check is that there is a tree, and without one DECEND has nothing to check. -/
theorem decodeWithNoTreeFaults : Obligations.DecodeWithNoTreeFaults := fun n _ hp ht he =>
  ⟨exec_of_body_error (.decode n) (legal_in_built hp List.mem_cons_self) he (decodeBody_noTree ht),
    exec_decend hp (.inl ht)⟩

theorem exec_decrst {s : State} (hp : s.phase = .built) :
    exec .decrst s = .next { s with ptr := s.root, ob := [], intStat := s.intStat ||| 0b01 } :=
  exec_of_body_ok .decrst (legal_in_built hp (by decide)) rfl

/-- Settles O45: the walker is put at the root and the output emptied, and `STATUS` and `OUTBUF` are views of them. -/
theorem decrstRestartsStream : Obligations.DecrstRestartsStream := by
  intro s hp
  refine ⟨exec_decrst hp, fun t h => ?_⟩
  rw [exec_decrst hp] at h
  cases h
  exact ⟨by simp [statusWord_getLsbD, State.atRoot], fun k => by simp [State.outBuf]⟩

/-! ### A stream -/

/-- The bits of the chunks of a stream, in order. -/
def streamBits (chunks : List (Nat × Word)) : List Bool := chunks.flatMap fun c => chunkBits c.1 c.2

/-- One chunk that decodes: its output, and then the rest of the stream from where its walk stopped. -/
theorem decodeStream_cons {n : Nat} {d : Word} {s : State} {w : Walk} (rest : List (Nat × Word))
    (hp : s.phase = .built) (ht : s.treeValid = true) (he : s.errCode = .noError)
    (hw : s.walk (chunkBits n d) ⟨s.ptr, []⟩ = .walked w) :
    decodeStream ((n, d) :: rest) s =
      (decodeStream rest (({ s with dataL := d }).afterWalk w).setDone).map fun r => (w.out ++ r.1, r.2) := by
  have hx : exec (.decode n) { s with dataL := d } = .next (({ s with dataL := d }).afterWalk w).setDone :=
    exec_decode hp ht hw
  have hfree : (({ s with dataL := d }).afterWalk w).setDone.locked = false := (State.locked_eq_false_iff _).mpr he
  simp only [decodeStream, hx, hfree]
  rfl

/-- A stream decodes as one walk over all its bits, however they are cut into chunks; only the walker, the output, the
latched chunk, `RES0` and `DONE` change (43_decode.md R154, R155). -/
theorem decodeStream_of_walk (chunks : List (Nat × Word)) {s : State} {w : Walk} (hp : s.phase = .built)
    (ht : s.treeValid = true) (he : s.errCode = .noError)
    (hw : s.walk (streamBits chunks) ⟨s.ptr, []⟩ = .walked w) :
    ∃ d ob r0 st, decodeStream chunks s =
      some (w.out, { s with ptr := w.at_, dataL := d, ob := ob, res0 := r0, intStat := st }) := by
  induction chunks generalizing s w with
  | nil =>
    obtain rfl := State.walk_nil hw
    exact ⟨s.dataL, s.ob, s.res0, s.intStat, rfl⟩
  | cons c rest ih =>
    obtain ⟨n, d⟩ := c
    obtain ⟨v, out, hv, hrest, hout⟩ := State.walk_append (bs := chunkBits n d) hw
    obtain ⟨d', ob, r0, st, hdec⟩ := ih (s := (({ s with dataL := d }).afterWalk v).setDone) hp ht he hrest
    exact ⟨d', ob, r0, st, by rw [decodeStream_cons rest hp ht he hv, hdec, hout]; rfl⟩

/-- A stream of no bits has no chunks of at least one bit. -/
theorem eq_nil_of_streamBits {chunks : List (Nat × Word)} (hn : ∀ c ∈ chunks, 1 ≤ c.1)
    (h : streamBits chunks = []) : chunks = [] := by
  refine List.eq_nil_iff_forall_not_mem.mpr fun c hc => ?_
  have hlen := congrArg List.length (List.flatMap_eq_nil_iff.mp h c hc)
  rw [length_chunkBits] at hlen
  exact absurd (hn c hc) (by simp [hlen])

/-- Over the codes of a sequence of symbols the walk from the root emits the sequence and ends at the root
(43_decode.md R155). -/
theorem Invariant.walk_codes {s : State} {g : Gathered} {syms : List Symbol} (h : Invariant s)
    (hp : s.phase = .built) (ht : s.treeValid = true) (hg : gatherCodes s = .ok g)
    (hsyms : ∀ sym ∈ syms, (tableAt g.table sym).len ≠ 0) :
    s.walk (syms.flatMap fun sym => (tableAt g.table sym).code) ⟨s.root, []⟩ = .walked ⟨s.root, syms⟩ := by
  cases hs : s.single with
  | false =>
    have hcodes : List.Forall₂ (HasCode s.nodes s.root) syms (syms.map fun sym => (tableAt g.table sym).code) :=
      List.forall₂_map_right_iff.mpr
        (List.forall₂_same.mpr fun sym hsym => h.code_of_entry hp hg ht hs (hsyms sym hsym))
    rw [State.walk_tree hs, List.flatMap_def]
    exact walkBits_codes h.nodesOk h.nodesFit (h.rootInner hp ht hs) hcodes []
  | true =>
    obtain ⟨-, r, hr, -⟩ := h.rootLeaf hp hs
    have hentry : ∀ sym ∈ syms, r.sym = sym ∧ (tableAt g.table sym).code.length = 1 := by
      intro sym hsym
      have hlen := hsyms sym hsym
      rw [(h.table_spec hp hg sym).2.1 hs r hr] at hlen ⊢
      by_cases heq : r.sym = sym
      · exact ⟨heq, by simp [heq, CodeEntry.code]⟩
      · simp [heq] at hlen
    have hcount : (syms.flatMap fun sym => (tableAt g.table sym).code).length = syms.length := by
      rw [List.length_flatMap, List.map_congr_left fun sym hsym => (hentry sym hsym).2]
      simp
    rw [State.walk_single hs hr, hcount, List.nil_append,
      ← List.eq_replicate_of_mem fun sym hsym => (hentry sym hsym).1.symm]

/-- Settles O53: the stream is one walk over its bits, which over the codes of the sequence emits it; without a tree
no symbol has a code, and the stream is empty. -/
theorem streamRoundTrip : Obligations.StreamRoundTrip := by
  intro s tab syms chunks h he hct hroot hsyms hn hbits
  have hp := h.built_of_table hct
  obtain ⟨g, hg, rfl⟩ := h.tableOfTree tab hct
  change streamBits chunks = _ at hbits
  cases ht : s.treeValid with
  | false =>
    have hnone : syms = [] := List.eq_nil_iff_forall_not_mem.mpr fun sym hsym =>
      hsyms sym hsym (by rw [(h.table_spec hp hg sym).2.2 ht])
    subst hnone
    obtain rfl := eq_nil_of_streamBits (fun c hc => (hn c hc).1) hbits
    exact ⟨s, rfl, exec_decend hp (.inl ht)⟩
  | true =>
    have hwalk := h.walk_codes hp ht hg hsyms
    rw [← hbits, ← hroot] at hwalk
    obtain ⟨d, ob, r0, st, hdec⟩ := decodeStream_of_walk chunks hp ht he hwalk
    exact ⟨_, hdec, exec_decend hp (.inr (.inr hroot))⟩

end Sys2Proof.Machine
end

section
/-! PROOFS. Tree inspection (44_inspect.md R165): READNODE of an allocated and of an unallocated index. -/

namespace Sys2Proof.Machine

/-- READNODE is legal in every phase (40_command_model.md R92). -/
theorem legal_readnode (idx : NodeIdx) (s : State) : legal (Instr.readnode idx).op s.phase s.ctValid = true := rfl

theorem readnodeBody_allocated {idx : NodeIdx} {s : State} {n : Node} (hn : nodeAt s.nodes idx = some n) :
    readnodeBody idx s = .ok { s with
      res0 := childrenWord n, res1 := weightLow n.w, res2 := nodeTagWord n.leaf n.sym n.w } := by
  simp only [readnodeBody, hn]

theorem readnodeBody_unallocated {idx : NodeIdx} {s : State} (hn : nodeAt s.nodes idx = none) :
    readnodeBody idx s = .error .badIndex := by
  simp only [readnodeBody, hn]

theorem nodeAt_eq_none_iff {nodes : List Node} {i : NodeIdx} : nodeAt nodes i = none ↔ nodes.length ≤ i.toNat :=
  List.getElem?_eq_none_iff

/-- A store within its capacity (00_scope.md R11) does not reach NIL. -/
theorem Invariant.length_le_nil {s : State} (h : Invariant s) : s.nodes.length ≤ nil.toNat := h.nodesFit

/-- Settles O46: the entry is there, and its packed words are read as numbers. -/
theorem readnodeReturnsEntry : Obligations.ReadnodeReturnsEntry := fun idx s n hn =>
  ⟨childrenWord n, weightLow n.w, nodeTagWord n.leaf n.sym n.w,
    exec_of_body_ok (.readnode idx) (legal_readnode idx s) (readnodeBody_allocated hn),
    toNat_childrenWord _, toNat_weightLow _, toNat_nodeTagWord _ _ _⟩

/-- Settles O47: no entry stands at or above `NODE_COUNT`, which never exceeds NIL in the invariant. -/
theorem readnodeBadIndexFaults : Obligations.ReadnodeBadIndexFaults := by
  intro idx s he hidx
  have hlen : s.nodes.length ≤ idx.toNat := by
    rcases hidx with hlen | ⟨rfl, h⟩
    · exact hlen
    · exact h.length_le_nil
  exact exec_of_body_error (.readnode idx) (legal_readnode idx s) he
    (readnodeBody_unallocated (nodeAt_eq_none_iff.mpr hlen))

end Sys2Proof.Machine
end

section
/-! PROOFS. Errors and the lock (60_exceptions.md R170 to R179): `DONE` or `ERRP`, the first error, the locked HCC, the
cause of each error, and empty input. -/

namespace Sys2Proof.Machine

/-! ### Completion and the first error -/

/-- Settles O12: a command that completes keeps the empty record and the pending bits up to `DONE`, and one that faults
is one `RecordError`. -/
theorem completionSetsDoneOrErrp : Obligations.CompletionSetsDoneOrErrp := by
  intro i s t he h
  rcases exec_next h with ⟨s', -, hbody, rfl⟩ | ⟨e, hne, rfl, -⟩
  · exact .inl ⟨s'.setDone_errCode.trans (bodyOf_ok_noError he hbody),
      congrArg (· ||| 0b01) (bodyOf_ok_outside hbody).intStat⟩
  · rw [recordError_first _ _ _ he]
    exact .inr ⟨hne, rfl⟩

/-- Settles O13: RecordError's two cases, the precise fault of a completion, and the write to `CMD` while busy, which is
one RecordError. -/
theorem firstErrorIsKept : Obligations.FirstErrorIsKept := by
  refine ⟨fun e c s => ⟨recordError_first e c s, recordError_later e c s⟩, ?_, ?_⟩
  · intro s t rest hturn hbusy he h hf
    obtain ⟨l, hl⟩ : ∃ l, s.inputs = [] ∧ l = [] ∨ s.inputs = .coreTurn :: l :=
      hturn.elim (fun hin => ⟨[], .inl ⟨hin, rfl⟩⟩) fun hin => ⟨rest, .inr hin⟩
    rw [faultsArePrecise s t l hl hbusy he h hf]
    simp
  · intro s t c rest hin hbusy h
    rw [step_write_cmd hin, offer_busy (s := s.setInputs rest) hbusy] at h
    cases h
    refine ⟨by simp [hbusy], by simp, by simp, fun he => ?_, fun he => ?_⟩
    · rw [recordError_first _ _ (s.setInputs rest) he]
      exact ⟨rfl, rfl⟩
    · rw [recordError_later _ _ (s.setInputs rest) he]
      rfl

/-! ### While an error is recorded -/

/-- What the lock protects: the session, the result registers and the error record (60_exceptions.md R174). -/
structure KeepsLocked (s t : State) : Prop extends SameSession s t where
  errCode : t.errCode = s.errCode
  errCmd : t.errCmd = s.errCmd
  res0 : t.res0 = s.res0
  res1 : t.res1 = s.res1
  res2 : t.res2 = s.res2

theorem KeepsLocked.refl (s : State) : KeepsLocked s s :=
  { (KeepsSession.refl s).toSameSession with errCode := rfl, errCmd := rfl, res0 := rfl, res1 := rfl, res2 := rfl }

theorem KeepsLocked.of_setInputs {s t : State} {l : List Event} (h : KeepsLocked (s.setInputs l) t) :
    KeepsLocked s t := { h with }

theorem hostRead_keepsLocked (s : State) (r : Reg) : KeepsLocked s (s.hostRead r) := { KeepsLocked.refl s with }

/-- While an error is recorded `Offer` records no second one, and issues at most a CLEAR (40_command_model.md R90). -/
theorem offer_keepsLocked {s : State} (he : s.errCode ≠ .noError) (c : Word) : KeepsLocked s (offer c s) := by
  rcases offer_cases c s with ⟨-, h⟩ | ⟨-, -, -, h⟩ | ⟨-, -, h⟩ <;> rw [h]
  · rw [recordError_later _ _ _ he]
    exact .refl s
  · exact .refl s
  · exact { KeepsLocked.refl s with }

theorem hostWrite_keepsLocked {s : State} (he : s.errCode ≠ .noError) (r : Reg) (v : Word) :
    KeepsLocked s (s.hostWrite r v) := by
  rcases hostWrite_cases s r v with ⟨-, h⟩ | ⟨-, h⟩ | ⟨-, h⟩ | ⟨-, h⟩ | ⟨-, h⟩ <;> rw [h]
  · exact offer_keepsLocked he v
  all_goals exact { KeepsLocked.refl s with }

theorem op_eq_clear_iff (i : Instr) : i.op = .clear ↔ i = .clear := by cases i <;> simp [Instr.op]

/-- While an error is recorded whatever is in flight but CLEAR is abandoned, illegal words included
(40_command_model.md R91). -/
theorem complete_abandoned {s : State} (he : s.errCode ≠ .noError) (hd : decode s.cmdL ≠ .ok .clear) :
    complete s = .next s.setIdle := by
  have hlocked := (State.locked_iff s).mpr he
  unfold complete
  cases hi : decode s.cmdL with
  | error w => exact if_pos hlocked
  | ok i =>
    have hop : i.op ≠ .clear := fun hop => hd (hi.trans (congrArg Except.ok ((op_eq_clear_iff i).mp hop)))
    simp [hop, hlocked]

theorem coreStep_keepsLocked {s t : State} (he : s.errCode ≠ .noError)
    (hclear : ¬ (s.busy = true ∧ decode s.cmdL = .ok .clear)) (h : coreStep s = .next t) : KeepsLocked s t := by
  cases hbusy : s.busy with
  | false =>
    rw [coreStep_idle hbusy] at h
    cases h
    exact .refl s
  | true =>
    rw [coreStep_busy hbusy, complete_abandoned he fun hd => hclear ⟨hbusy, hd⟩] at h
    cases h
    exact { KeepsLocked.refl s with }

/-- While an error is recorded a step that is no reset and completes no CLEAR keeps all that the lock protects. -/
theorem step_keepsLocked {s t : State} (he : s.errCode ≠ .noError) (hreset : ∀ rest, s.inputs ≠ .reset :: rest)
    (hclear : ¬ Completes s .clear) (h : step s = .next t) : KeepsLocked s t := by
  rcases step_next h with ⟨u, hu, hcore⟩ | ⟨_, _, rest, r, -, -, rfl⟩ | ⟨_, _, v, rest, r, -, -, rfl⟩ | ⟨rest, hin, -⟩
  · obtain ⟨l, rfl⟩ := coreTurnOf_eq hu
    have hno : ¬ ((s.setInputs l).busy = true ∧ decode (s.setInputs l).cmdL = .ok .clear) :=
      fun ⟨hbusy, hd⟩ => hclear (completes_iff.mpr ⟨_, hu, hbusy, hd, .inr rfl⟩)
    exact (coreStep_keepsLocked (s := s.setInputs l) he hno hcore).of_setInputs
  · exact (hostRead_keepsLocked (s.setInputs rest) r).of_setInputs
  · exact (hostWrite_keepsLocked (s := s.setInputs rest) he r v).of_setInputs
  · exact absurd hin (hreset rest)

/-- Settles O14: no step under the lock but the two excluded touches what it protects, and the core's turn abandons
the command. -/
theorem lockKeepsSession : Obligations.LockKeepsSession := by
  refine ⟨fun s t he hreset hclear h => ?_, fun s rest hturn he hbusy hcmd => ?_⟩
  · obtain ⟨⟨hphase, hnodes, hpq, hseen, hroot, hptr, htree, hsingle, hct, hob⟩, hcode, hword, h0, h1, h2⟩ :=
      step_keepsLocked he hreset hclear h
    exact ⟨hcode, hword, hphase, hnodes, hpq, hseen, hroot, hptr, htree, hsingle, hct, hob, h0, h1, h2⟩
  · calc step s = complete (s.setInputs rest) := step_of_turn_busy hturn hbusy
      _ = .next (s.setInputs rest).setIdle := complete_abandoned he fun hd => hcmd (decode_clear_iff.mp hd)

/-! ### The causes of errors -/

/-- The error table (60_exceptions.md R170): when the command `i` raises the error `e` in the state `s`. -/
def Causes (i : Instr) (s : State) : ErrCode → Prop
  | .noError => True
  | .emptyPop => i = .pqpop ∧ s.pq = []
  | .codeMiss => ∃ sym k tab, i = .lookup sym k ∧ s.ct = some tab ∧ (tableAt tab sym).len = 0 ∧
      (s.treeValid = true → ∀ p, ¬ HasCode s.nodes s.root sym p)
  | .malformed => (∃ n, i = .decode n) ∧ s.treeValid = false
  | .midCode => i = .decend ∧ s.ptr ≠ s.root
  | .badPhase => (i.op ∈ [.pushleaf, .pqpop, .build] ∧ s.phase = .built) ∨
      (i.op ∈ [.gencodes, .lookup, .decode, .decend, .decrst] ∧ s.phase = .load) ∨
      (i.op = .lookup ∧ s.ctValid = false)
  | .dupSym => ∃ sym, i = .pushleaf sym ∧ ∃ n ∈ s.nodes, n.leaf = true ∧ n.sym = sym
  | .badWeight => (∃ sym, i = .pushleaf sym) ∧ s.dataL = 0
  | .badIndex => ∃ idx, i = .readnode idx ∧ s.nodes.length ≤ idx.toNat
  | .illegal => False
  | .busy => False

/-- A symbol whose entry has no length has no leaf below the root (42_codegen.md R137). -/
theorem Invariant.no_code_of_len_zero {s : State} {tab : CodeTable} {sym : Symbol} (h : Invariant s)
    (hct : s.ct = some tab) (hlen : (tableAt tab sym).len = 0) (ht : s.treeValid = true) (p : List Bool) :
    ¬ HasCode s.nodes s.root sym p := by
  intro hc
  obtain ⟨g, hg, rfl⟩ := h.tableOfTree tab hct
  exact (h.len_ne_zero_iff (h.built_of_table hct) hg sym).mpr ⟨ht, p, hc⟩ hlen

/-- In the invariant neither guard of the walk is reached, so DECODE faults only with no tree (43_decode.md R152). -/
theorem Invariant.decodeBody_error {n : Nat} {s : State} {e : ErrCode} (h : Invariant s) (hp : s.phase = .built)
    (hb : decodeBody n s = .error e) : e = .malformed ∧ s.treeValid = false := by
  obtain ⟨he, ht | ⟨hs, hw⟩⟩ := Machine.decodeBody_error hb
  · exact ⟨he, ht⟩
  · refine ⟨he, Bool.eq_false_iff.mpr fun ht => ?_⟩
    obtain ⟨w, hwalked, -⟩ := h.walk hp ht n
    simp [hs, hw] at hwalked

/-- Each command's own fault has its cause. -/
theorem Invariant.bodyOf_error_causes {i : Instr} {s : State} {e : ErrCode} (h : Invariant s)
    (hl : legal i.op s.phase s.ctValid = true) (hb : Machine.bodyOf i s = .error e) : Causes i s e := by
  cases i with
  | nop => cases hb
  | clear => cases hb
  | pushleaf sym =>
    obtain ⟨rfl, hw⟩ | ⟨rfl, hseen⟩ := pushleafBody_error hb
    · exact ⟨⟨sym, rfl⟩, (leafWeight_eq_zero_iff _).mp hw⟩
    · exact ⟨sym, rfl, (h.seenLeaves sym).mp hseen⟩
  | pqpop =>
    obtain ⟨rfl, hq⟩ := pqpopBody_error hb
    exact ⟨rfl, hq⟩
  | build => exact absurd hb buildBody_no_error
  | gencodes => exact absurd hb gencodesBody_no_error
  | lookup sym k =>
    obtain ⟨rfl, tab, hct, hlen⟩ := lookupBody_error hb
    exact ⟨sym, k, tab, rfl, hct, hlen, h.no_code_of_len_zero hct hlen⟩
  | decode n =>
    have hp : s.phase = .built := by simpa [Instr.op] using (legal_iff _ _ _).mp hl
    obtain ⟨rfl, ht⟩ := h.decodeBody_error hp hb
    exact ⟨⟨n, rfl⟩, ht⟩
  | decend =>
    obtain ⟨rfl, -, -, hr⟩ := decendBody_error hb
    exact ⟨rfl, hr⟩
  | decrst => cases hb
  | readnode idx =>
    obtain ⟨rfl, hidx⟩ := readnodeBody_error hb
    exact ⟨idx, rfl, hidx⟩

/-- What is recorded after a command that ran with nothing recorded has its cause. -/
theorem Invariant.exec_causes {i : Instr} {s t : State} (h : Invariant s) (he : s.errCode = .noError)
    (hx : exec i s = .next t) : Causes i s t.errCode := by
  rcases exec_next hx with ⟨s', -, hb, rfl⟩ | ⟨e, -, rfl, hcase⟩
  · rw [State.setDone_errCode, bodyOf_ok_noError he hb]
    trivial
  · rw [recordError_first _ _ _ he]
    rcases hcase with ⟨hno, rfl⟩ | ⟨hl, hb⟩
    · exact (legal_eq_false_iff _ _ _).mp hno
    · exact h.bodyOf_error_causes hl hb

/-- Settles O51: the codes are the table's, and each clause is the cause of its own error. -/
theorem errorsHaveTheirCauses : Obligations.ErrorsHaveTheirCauses := by
  refine ⟨fun e v => ?_, fun i s t h he hx => ?_⟩
  · cases e <;> simp [ErrCode.code, eq_comm (a := v)]
  · have hcause : ∀ e, t.errCode = e → Causes i s e := fun _ heq => heq ▸ h.exec_causes he hx
    exact ⟨hcause .emptyPop, hcause .codeMiss, hcause .malformed, hcause .midCode, hcause .badPhase, hcause .dupSym,
      hcause .badWeight, hcause .badIndex, hcause .illegal, hcause .busy⟩

/-! ### Empty input -/

/-- BUILD of an empty queue completes with no tree (41_queue_and_build.md R118). -/
theorem exec_build_empty {s : State} (hp : s.phase = .load) (hq : s.pq = []) :
    exec .build s = .next (s.builtEmpty s.nodes).setDone :=
  exec_of_body_ok .build (legal_in_load hp (by decide)) (buildBody_empty hq)

theorem gatherCodes_noTree {s : State} (ht : s.treeValid = false) : gatherCodes s = .ok .empty := by
  simp [gatherCodes, ht]

/-- Settles O33: each of the three commands completes on what the one before it leaves. -/
theorem emptyInputIsNoError : Obligations.EmptyInputIsNoError := by
  intro s hp hq
  have hgather : gatherCodes (s.builtEmpty s.nodes).setDone = .ok .empty := gatherCodes_noTree rfl
  refine ⟨_, _, exec_build_empty hp hq, ?_, exec_gencodes rfl hgather, rfl, rfl, rfl, rfl,
    ⟨_, rfl, tableAt_emptyTable⟩, exec_decend rfl (.inl rfl)⟩
  rw [hq]
  rfl

end Sys2Proof.Machine
end

section
/-! PROOFS. Reset and hazards (70_reset_and_hazards.md): the values after a reset and after CLEAR, and what a register
reads as while a command is in flight. -/

namespace Sys2Proof.Machine

/-! ### Reset and CLEAR -/

theorem step_reset {s : State} {rest : List Event} (h : s.inputs = .reset :: rest) :
    step s = .next (s.setInputs rest).resetMachine := by
  simp only [step, h]

/-- CLEAR is legal in every phase, and its pseudocode never faults (40_command_model.md R96). -/
theorem exec_clear (s : State) : exec .clear s = .next s.newSession.setDone :=
  exec_of_body_ok .clear rfl rfl

/-- Where a session has just begun and nothing is in flight, `AT_ROOT` and `PQ_EMPTY` are the flags set in `STATUS`
besides `IRQ`. -/
theorem statusWord_newSession {s : State} (hidle : s.busy = false) :
    s.newSession.statusWord = 0x000000C0 ||| flagAt s.newSession.irq 8 := by
  have hb : s.newSession.busy = false := hidle
  have hflags : (flagAt false 0 ||| flagAt false 1 ||| flagAt false 2 ||| flagAt false 3 ||| flagAt false 4 |||
      flagAt false 5 ||| flagAt true 6 ||| flagAt true 7) = 0x000000C0 := by decide
  unfold State.statusWord
  rw [hb, ← hflags]
  rfl

/-- Settles O24: a reset leaves the reset state but for the model's own fields, and CLEAR a new session with `DONE`
set. -/
theorem resetAndClearValues : Obligations.ResetAndClearValues := by
  refine ⟨fun s rest hin => ?_, fun s => ⟨exec_clear s, fun t h hidle => ?_⟩⟩
  · exact ⟨_, step_reset hin, rfl, rfl, statusBits.2, rfl, rfl, rfl, rfl, rfl, rfl, rfl, rfl, rfl, rfl, rfl, rfl,
      fun _ => rfl, rfl, rfl, rfl, rfl, rfl, rfl, rfl⟩
  · rw [exec_clear] at h
    cases h
    exact statusWord_newSession (s := s.setDone) hidle

/-! ### Reads while `BUSY = 1` -/

/-- The width of a register in bits (10_state.md R20); a register of which no bit is used reads as a word of zeros. -/
def Reg.width : Reg → Nat
  | .status | .pqSize | .nodeCount | .root | .ptr => 9
  | .errCode => 4
  | .outCount => 6
  | .intEn | .intStat => 2
  | .outBuf _ => 8
  | .id | .cmd | .data | .errCmd | .res0 | .res1 | .res2 | .reserved => 32

theorem toNat_setWidth_lt {w : Nat} (x : BitVec w) : (x.setWidth 32).toNat < 2 ^ w := by
  rw [BitVec.toNat_setWidth]
  exact (Nat.mod_le _ _).trans_lt x.isLt

theorem statusWord_lt (s : State) : s.statusWord.toNat < 2 ^ 9 := by
  obtain ⟨-, -, -, -, -, -, -, -, -, hhigh⟩ := statusBits.1 s
  exact Nat.lt_pow_two_of_testBit _ hhigh

/-- A register holds a value of its width. -/
theorem regValue_lt (s : State) (r : Reg) : (s.regValue r).toNat < 2 ^ r.width := by
  cases r with
  | status => exact statusWord_lt s
  | errCode | pqSize | nodeCount | root | ptr | outCount | intEn | intStat | outBuf => exact toNat_setWidth_lt _
  | id | cmd | data | errCmd | res0 | res1 | res2 | reserved => exact BitVec.isLt _

theorem unsettled_lt (r : Reg) : r.unsettled.toNat < 2 ^ r.width := by
  cases r with
  | outBuf k => exact (by decide : (0xFF : Word).toNat < 2 ^ 8)
  | _ => decide

/-- Whatever is drawn, a read returns a value of the register's width (70_reset_and_hazards.md R207). -/
theorem readValue_lt (s : State) (r : Reg) : (s.readValue r).toNat < 2 ^ r.width := by
  unfold State.readValue
  split
  · rw [BitVec.toNat_or, BitVec.toNat_and, BitVec.toNat_and]
    exact Nat.or_lt_two_pow (Nat.and_le_left.trans_lt (regValue_lt s r)) (Nat.and_lt_two_pow _ (unsettled_lt r))
  · exact regValue_lt s r

/-- A settled bit reads exactly at all times. -/
theorem readValue_settled_bit (s : State) {r : Reg} {j : Nat} (h : r.unsettled.getLsbD j = false) :
    (s.readValue r).getLsbD j = (s.regValue r).getLsbD j := by
  unfold State.readValue
  split
  · have hlt : (s.regValue r).getLsbD j = true → decide (j < 32) = true := fun hb =>
      decide_eq_true (BitVec.lt_of_getLsbD hb)
    simpa only [BitVec.getLsbD_or, BitVec.getLsbD_and, BitVec.getLsbD_not, h, Bool.and_false, Bool.or_false,
      Bool.not_false, Bool.and_true, Bool.and_eq_left_iff_imp] using hlt
  · rfl

/-- A register with no unsettled bit reads exactly at all times. -/
theorem hostRead_settled (s : State) {r : Reg} (h : r.unsettled = 0) :
    s.hostRead r = { s with reply := some (s.regValue r) } := by
  simp [State.hostRead, State.readValue, State.drawsFree, h]

/-- While `BUSY = 1` a read of a register with an unsettled bit draws a free value. -/
theorem hostRead_unsettled {s : State} (hbusy : s.busy = true) {r : Reg} (h : r.unsettled ≠ 0) :
    s.hostRead r = { s with reply := some (s.readValue r), freeCount := s.freeCount + 1 } := by
  have hdraws : s.drawsFree r = true := by simpa [State.drawsFree, hbusy] using h
  simp [State.hostRead, hdraws]

theorem step_read_settled {s : State} {off : Nat} {rest : List Event}
    (hin : s.inputs = .read (Config.hccBase + off) 4 :: rest) (hlt : off < 256) (h4 : off % 4 = 0)
    (h : (regAt off).unsettled = 0) :
    step s = .next { s with inputs := rest, reply := some ((s.setInputs rest).regValue (regAt off)) } := by
  rw [step_read hin hlt h4, hostRead_settled _ h]
  rfl

theorem step_read_unsettled {s : State} {off : Nat} {rest : List Event} (hbusy : s.busy = true)
    (hin : s.inputs = .read (Config.hccBase + off) 4 :: rest) (hlt : off < 256) (h4 : off % 4 = 0)
    (h : (regAt off).unsettled ≠ 0) :
    step s = .next { s with
      inputs := rest, reply := some ((s.setInputs rest).readValue (regAt off)), freeCount := s.freeCount + 1 } := by
  rw [step_read hin hlt h4, hostRead_unsettled (s := s.setInputs rest) hbusy h]
  rfl

theorem regAt_outBuf_of_le {off : Nat} (h : 0x80 ≤ off) : regAt off = .outBuf ((off - 0x80) / 4) := if_pos h

/-- Settles O21: a row of the first clause has no unsettled bit, one of the last draws a value of its register's width,
and the unsettled bits of `STATUS` are none of 0, 1 and 8. -/
theorem readsWhileBusy : Obligations.ReadsWhileBusy := by
  intro s off rest hbusy hin
  refine ⟨fun v hv => ?_, ?_, fun bits hbits => ?_⟩
  · suffices hrow : off < 256 ∧ off % 4 = 0 ∧ (regAt off).unsettled = 0 ∧
        (s.setInputs rest).regValue (regAt off) = v by
      obtain ⟨hlt, h4, hsettled, rfl⟩ := hrow
      exact step_read_settled hin hlt h4 hsettled
    rcases hv with hv | ⟨hlo, hhi, h4, rfl⟩
    · simp only [List.mem_cons, Prod.mk.injEq, List.not_mem_nil, or_false] at hv
      rcases hv with ⟨rfl, rfl⟩ | ⟨rfl, rfl⟩ | ⟨rfl, rfl⟩ | ⟨rfl, rfl⟩ | ⟨rfl, rfl⟩ | ⟨rfl, rfl⟩ | ⟨rfl, rfl⟩ <;>
        exact ⟨by decide, by decide, rfl, rfl⟩
    · rw [regAt_reserved hlo (by omega)]
      exact ⟨by omega, h4, rfl, rfl⟩
  · rintro rfl
    have hbit {j : Nat} (hj : Reg.status.unsettled.getLsbD j = false) :
        ((s.setInputs rest).readValue .status).getLsbD j = s.statusWord.getLsbD j :=
      readValue_settled_bit _ hj
    obtain ⟨h0, h1, -, -, -, -, -, -, h8, -⟩ := statusBits.1 s
    exact ⟨_, step_read_unsettled hbusy hin (by decide) (by decide) (by decide),
      (hbit (by decide)).trans (h0.trans hbusy), (Bool.eq_iff_iff.mp (hbit (by decide))).trans h1,
      (hbit (by decide)).trans h8, readValue_lt _ .status⟩
  · suffices hrow : off < 256 ∧ off % 4 = 0 ∧ (regAt off).unsettled ≠ 0 ∧ (regAt off).width = bits by
      obtain ⟨hlt, h4, hunsettled, rfl⟩ := hrow
      exact ⟨_, readValue_lt _ _, step_read_unsettled hbusy hin hlt h4 hunsettled⟩
    rcases hbits with hv | ⟨hlo, hhi, h4, rfl⟩
    · simp only [List.mem_cons, Prod.mk.injEq, List.not_mem_nil, or_false] at hv
      rcases hv with ⟨rfl, rfl⟩ | ⟨rfl, rfl⟩ | ⟨rfl, rfl⟩ | ⟨rfl, rfl⟩ | ⟨rfl, rfl⟩ | ⟨rfl, rfl⟩ | ⟨rfl, rfl⟩ |
          ⟨rfl, rfl⟩ <;>
        exact ⟨by decide, by decide, by decide, rfl⟩
    · rw [regAt_outBuf_of_le hlo]
      exact ⟨hhi, h4, (by decide : (0xFF : Word) ≠ 0), rfl⟩

end Sys2Proof.Machine
end
